-- ==== Sys2Proof/Word.lean ====
section
/-! DEFINITION. The two widths TIBB moves: 32-bit words (requests, responses, RS) and 8-bit bytes
(test codes, test data), with the plainest arithmetic the spec's notation uses (00_scope.md R10, R11). -/

namespace Sys2Proof

/-- A `u8`: a test code, a test-data byte, or one byte of an RS word. -/
abbrev Byte := BitVec 8

/-- A `u32`: one word of a request, of a response, or of RS. -/
abbrev Word := BitVec 32

/-- `ceil_div(a, b) = (a + b - 1) div b`, for `b > 0` (R11). -/
def ceilDiv (a b : Nat) : Nat := (a + b - 1) / b

end Sys2Proof
end

