-- ==== Sys2Proof/Syntax.lean ====
section
/-! DEFINITION. The syntax of TIBB command set 1: the field descriptor (00_scope.md R13) and one constructor
of `Instr` for each row of spec/opcode_table.json (30_encoding.md R101). -/

namespace Sys2Proof

/-- A field descriptor (R13). The width is held as the encoding holds it, minus one (`WM1`, R102), so that
each field's type has exactly the values the encoding admits. -/
structure Desc where
  /-- `bsel : u2`, which of `BASE[0..3]`. -/
  bsel   : BitVec 2
  /-- `offset : u32`, a byte offset from `BASE[bsel]`. -/
  offset : Word
  /-- `WM1`, the width minus one: the width is 1..32. -/
  wm1    : BitVec 5
  /-- `boff`, the bit offset: 0..31. -/
  boff   : BitVec 5
  deriving DecidableEq, Repr

/-- The five commands (R101). -/
inductive Instr where
  /-- FIELD_WRITE, OP 0x01: the masked read-modify-write of one field (R142). -/
  | fieldWrite (d : Desc) (value : Word)
  /-- REG_READ, OP 0x02: the read of one raw word (R150). -/
  | regRead (bsel : BitVec 2) (offset : Word)
  /-- TEST_WRITE, OP 0x03: one test code and `N = data.length` data bytes (R170). -/
  | testWrite (code : Byte) (data : List Byte)
  /-- SOLVE, OP 0x04: the divider search (R210). -/
  | solve (ref target : Word)
  /-- FR_LOOKUP, OP 0x05: the frequency-range lookup (R220). -/
  | frLookup (clk : Word)
  deriving DecidableEq, Repr

end Sys2Proof
end

