-- ==== Sys2Proof/Config.lean ====
section
/-! DEFINITION. What an implementation fixes: the configuration record of 10_state.md R36, the numeric
constants the spec states (00_scope.md R8, R9, R14), and the ONE configuration that `State.reset` carries.
The spec leaves every field of the record open, so the record is held in the state and every statement
about every state holds for every configuration. -/

namespace Sys2Proof

/-- `AW`, the width of an RS byte address: 32 or 64 (R36). -/
inductive AddrWidth where
  | aw32
  | aw64
  deriving DecidableEq, Repr

/-- The receiver's address policy for the second and later data bytes of one transfer (R182). -/
inductive MultiByte where
  | same
  | incr
  deriving DecidableEq, Repr

/-- One entry `(thr_mhz : u16, code : u8)` of the frequency-range table (R221). -/
structure FrEntry where
  thrMhz : BitVec 16
  code   : Byte
  deriving DecidableEq, Repr

/-- The configuration record (R36). It is fixed before the first command and no command writes it. -/
structure Config where
  /-- `AW`. -/
  aw          : AddrWidth
  /-- `BASE[0..3]`, byte addresses. WF1 bounds each by `2^AW`. -/
  base        : Vector Nat 4
  /-- `DESC_TESTCLK`. -/
  testClk     : Desc
  /-- `DESC_TESTDIN`. -/
  testDin     : Desc
  /-- `DESC_TESTEN`. -/
  testEn      : Desc
  /-- `DESC_TESTCLR`. -/
  testClr     : Desc
  /-- `FR_TABLE`, in index order. `NFR` is its length. -/
  frTable     : List FrEntry
  /-- `MULTI_BYTE`. -/
  multiByte   : MultiByte
  /-- `TREG_DEFAULT[0..255]`, each a `u8` or unknown (`none`). -/
  tregDefault : Vector (Option Byte) 256
  deriving DecidableEq, Repr

namespace Const

/-- `MHz`, in hertz (R14). -/
def mhz : Nat := 1000000

/-- `FB_MAX`, the exclusive upper bound of the feedback divider (R8). -/
def fbMax : Nat := 512

/-- `F_PFD_MIN`, 5 MHz in hertz (R8). -/
def fPfdMin : Nat := 5 * mhz

/-- `F_PFD_MAX`, 40 MHz in hertz (R8). -/
def fPfdMax : Nat := 40 * mhz

/-- `NMAX`, the most data bytes of one TEST_WRITE (R8). -/
def nMax : Nat := 255

end Const

/-- The configuration `State.reset` carries: CFG-X of 95_test_vectors.md §0 with `MULTI_BYTE = SAME` and
`TREG_DEFAULT` all unknown. DESIGN CHOICE, unsafe (assumption log 1): the spec gives no configuration of
the hardware, and calls this one illustrative. -/
def Config.illustrative : Config where
  aw := .aw32
  base := #v[0x10000000, 0x20000000, 0, 0]
  testClk := ⟨0, 0xB4, 0, 1⟩
  testDin := ⟨0, 0xB8, 7, 0⟩
  testEn := ⟨0, 0xB8, 0, 16⟩
  testClr := ⟨0, 0xB4, 0, 0⟩
  frTable := [⟨80, 0x00⟩, ⟨90, 0x10⟩, ⟨100, 0x20⟩, ⟨500, 0x05⟩,
    ⟨1000, 0x0A⟩, ⟨1500, 0x0F⟩, ⟨1500, 0x2F⟩, ⟨2000, 0x1F⟩]
  multiByte := .same
  tregDefault := Vector.replicate 256 none

end Sys2Proof
end

