-- ==== Sys2Proof/WellFormed.lean ====
section
/-! DEFINITION. Which terms of `Instr` are commands the encoding admits (30_encoding.md R102, R104, R111). -/

namespace Sys2Proof

/-- The descriptor's invariant `boff + width <= 32` (R13), which IL4 checks as `BOFF + WM1 + 1 <= 32`. -/
abbrev Desc.wellFormed (d : Desc) : Prop := d.boff.toNat + d.wm1.toNat + 1 ≤ 32

/-- The commands the encoding admits: a FIELD_WRITE whose field lies within the word (R111 IL4) and a
TEST_WRITE of 1 to 255 data bytes (R104, R111 IL5). Every other term is well-formed as it stands. -/
def Instr.wellFormed : Instr → Bool
  | .fieldWrite d _   => decide d.wellFormed
  | .regRead _ _      => true
  | .testWrite _ data => decide (1 ≤ data.length ∧ data.length ≤ Const.nMax)
  | .solve _ _        => true
  | .frLookup _       => true

end Sys2Proof
end

