-- ==== Sys2Proof/Decode.lean ====
section
/-! DEFINITION. The decoder of request words, total, with a name for every rejection (30_encoding.md R100 to
R114), the encoder written from the same tables, the descriptor codec (R110), and the host's table word. -/

namespace Sys2Proof

/-- `width = WM1 + 1` (R109). -/
def Desc.width (d : Desc) : Nat := d.wm1.toNat + 1

/-- Why a request is no command. All but `empty` are the cases of R111, in the order R291 checks them. -/
inductive DecodeError where
  /-- `L = 0`: no request at all. The machine refuses it (R100, R297); it is not ILLEGAL. Safe. -/
  | empty
  /-- IL1: OP is 0x00 or in 0x06..0xFF. -/
  | badOpcode
  /-- IL2: a reserved header bit is 1. -/
  | reservedBits
  /-- IL3: the length is not the format's. -/
  | badLength
  /-- IL4: Format F with `BOFF + WM1 + 1 > 32`. -/
  | fieldTooWide
  /-- IL5: Format T with `N = 0`. -/
  | noData
  /-- IL6: Format T with a non-zero pad byte. -/
  | padNotZero
  deriving DecidableEq, Repr

/-- The five formats (R101 to R108). -/
inductive Format where
  | f
  | r
  | t
  | s
  | l
  deriving DecidableEq, Repr

/-- `OP = w[0][7:0]` (R101). -/
def opcodeOf (header : Word) : Byte := header.extractLsb' 0 8

/-- The opcode map (R101); `none` is IL1. -/
def formatOf (op : Byte) : Option Format :=
  if op = 0x01 then some .f
  else if op = 0x02 then some .r
  else if op = 0x03 then some .t
  else if op = 0x04 then some .s
  else if op = 0x05 then some .l
  else none

/-- The reserved header bits of a format (R102 to R108): 31:20 for F, 31:20 and 17:8 for R, 31:24 for T,
31:8 for S and L. -/
def reservedMask : Format → Word
  | .f => 0xFFF00000
  | .r => 0xFFF3FF00
  | .t => 0xFF000000
  | .s => 0xFFFFFF00
  | .l => 0xFFFFFF00

/-- The `N` of a Format T header, `w[0][23:16]` (R104). -/
def dataCount (header : Word) : Nat := (header.extractLsb' 16 8).toNat

/-- The length in words a request of the format has (R101, R105). -/
def requestLength (fmt : Format) (header : Word) : Nat :=
  match fmt with
  | .f => 3
  | .r => 2
  | .t => 1 + ceilDiv (dataCount header) 4
  | .s => 3
  | .l => 2

/-- `dh = (bsel, width - 1, boff)` packed in 12 bits, and the offset (R110). -/
def descEncode (d : Desc) : BitVec 12 × Word := (d.bsel ++ d.wm1 ++ d.boff, d.offset)

/-- The descriptor a packed pair stands for (R110). -/
def descDecode (dh : BitVec 12) (offset : Word) : Desc :=
  ⟨dh.extractLsb' 10 2, offset, dh.extractLsb' 5 5, dh.extractLsb' 0 5⟩

/-- The four bytes of a data word, byte `i` at bits `8*i+7 : 8*i` (R106). -/
def wordBytes (w : Word) : List Byte :=
  [w.extractLsb' 0 8, w.extractLsb' 8 8, w.extractLsb' 16 8, w.extractLsb' 24 8]

/-- All bytes of the data words, pad bytes among them, in the order of R106. -/
def unpackBytes (ws : List Word) : List Byte := ws.flatMap wordBytes

/-- Data bytes packed four to a word, the first lowest, the last word padded with zero bytes (R106). -/
def packBytes : List Byte → List Word
  | [] => []
  | [a] => [0#8 ++ 0#8 ++ 0#8 ++ a]
  | [a, b] => [0#8 ++ 0#8 ++ b ++ a]
  | [a, b, c] => [0#8 ++ c ++ b ++ a]
  | a :: b :: c :: d :: rest => (d ++ c ++ b ++ a) :: packBytes rest

/-- The command of a request whose opcode, reserved bits and length have passed (R291 steps 1 to 3): what
remains is the field legality of step 4, then the operands of R109. -/
def decodeFields (fmt : Format) (header : Word) (body : List Word) : Except DecodeError Instr :=
  match fmt with
  | .f =>
    let d := descDecode (header.extractLsb' 8 12) (body.getD 0 0)
    if d.wellFormed then .ok (.fieldWrite d (body.getD 1 0)) else .error .fieldTooWide
  | .r => .ok (.regRead (header.extractLsb' 18 2) (body.getD 0 0))
  | .t =>
    let n := dataCount header
    let bytes := unpackBytes body
    if n = 0 then .error .noData
    else if (bytes.drop n).all (· = 0) then
      .ok (.testWrite (header.extractLsb' 8 8) (bytes.take n))
    else .error .padNotZero
  | .s => .ok (.solve (body.getD 0 0) (body.getD 1 0))
  | .l => .ok (.frLookup (body.getD 0 0))

/-- The command a request `w[0..L-1]` stands for, or the first check of R291 that it fails. -/
def decode : List Word → Except DecodeError Instr
  | [] => .error .empty
  | header :: body =>
    match formatOf (opcodeOf header) with
    | none => .error .badOpcode
    | some fmt =>
      if header &&& reservedMask fmt ≠ 0 then .error .reservedBits
      else if body.length + 1 ≠ requestLength fmt header then .error .badLength
      else decodeFields fmt header body

/-- The words of a command (R102 to R108). -/
def encode : Instr → List Word
  | .fieldWrite d value => [0#12 ++ (descEncode d).1 ++ 0x01#8, (descEncode d).2, value]
  | .regRead bsel offset => [0#12 ++ bsel ++ 0#10 ++ 0x02#8, offset]
  | .testWrite code data =>
    (0#8 ++ BitVec.ofNat 8 data.length ++ code ++ 0x03#8) :: packBytes data
  | .solve ref target => [0x00000004, ref, target]
  | .frLookup clk => [0x00000005, clk]

/-- `OP`, as a number (R101). -/
def opNumber (header : Word) : Nat := header.toNat % 2 ^ 8

/-- IL1: OP is 0x00 or in 0x06..0xFF (R111). -/
def il1 (header : Word) : Prop := opNumber header = 0 ∨ 6 ≤ opNumber header

/-- IL2: a reserved header bit is 1: bits 31:20 for F, 31:20 or 17:8 for R, 31:24 for T, 31:8 for S and L (R111). -/
def il2 (header : Word) : Prop :=
  (opNumber header = 1 ∧ header.toNat / 2 ^ 20 ≠ 0) ∨
  (opNumber header = 2 ∧ (header.toNat / 2 ^ 20 ≠ 0 ∨ header.toNat / 2 ^ 8 % 2 ^ 10 ≠ 0)) ∨
  (opNumber header = 3 ∧ header.toNat / 2 ^ 24 ≠ 0) ∨
  (opNumber header = 4 ∧ header.toNat / 2 ^ 8 ≠ 0) ∨
  (opNumber header = 5 ∧ header.toNat / 2 ^ 8 ≠ 0)

/-- `N`, as a number (R104). -/
def countNumber (header : Word) : Nat := header.toNat / 2 ^ 16 % 2 ^ 8

/-- IL3: the length `L` differs from the format's (R111). -/
def il3 (header : Word) (length : Nat) : Prop :=
  (opNumber header = 1 ∧ length ≠ 3) ∨
  (opNumber header = 2 ∧ length ≠ 2) ∨
  (opNumber header = 3 ∧ length ≠ 1 + ceilDiv (countNumber header) 4) ∨
  (opNumber header = 4 ∧ length ≠ 3) ∨
  (opNumber header = 5 ∧ length ≠ 2)

/-- IL4: Format F with `BOFF + WM1 + 1 > 32` (R111). -/
def il4 (header : Word) : Prop :=
  opNumber header = 1 ∧ 32 < header.toNat / 2 ^ 8 % 2 ^ 5 + header.toNat / 2 ^ 13 % 2 ^ 5 + 1

/-- IL5: Format T with `N = 0` (R111). -/
def il5 (header : Word) : Prop := opNumber header = 3 ∧ countNumber header = 0

/-- IL6: Format T with a non-zero pad byte, at `w[1 + (i div 4)][8*(i mod 4)+7 : 8*(i mod 4)]` (R111, R106). -/
def il6 (header : Word) (body : List Word) : Prop :=
  opNumber header = 3 ∧ ∃ i, countNumber header ≤ i ∧ i < 4 * body.length ∧
    (body.getD (i / 4) 0).toNat / 2 ^ (8 * (i % 4)) % 2 ^ 8 ≠ 0

/-- An ILLEGAL request (R111), said on the numbers of its words and without the decoder. -/
def isIllegal (header : Word) (body : List Word) : Prop :=
  il1 header ∨ il2 header ∨ il3 header (body.length + 1) ∨ il4 header ∨ il5 header ∨ il6 header body

/-- The first `n` 32-bit words of the number `w`, the least significant first. -/
def tableWords : Nat → Nat → List Word
  | 0, _ => []
  | n + 1, w => BitVec.ofNat 32 w :: tableWords n (w / 2 ^ 32)

/-- The framed request that an instruction of the opcode table numbered `w` stands for: as many words as its
format has (R101), every bit above `nbits` zero. Where the header has no format, or `nbits` names more
words than the format has, the words that `nbits` names. -/
def tableRequest (nbits w : Nat) : List Word :=
  let bits := w % 2 ^ nbits
  let header : Word := BitVec.ofNat 32 bits
  let own := match formatOf (opcodeOf header) with
    | some fmt => requestLength fmt header
    | none => 1
  tableWords (max own (ceilDiv nbits 32)) bits

/-- The instruction the decoder reads from a table word (the host's fixed name). -/
def decodeTableWord (nbits w : Nat) : Option Instr :=
  match decode (tableRequest nbits w) with
  | .ok i => some i
  | .error _ => none

end Sys2Proof
end

