-- ==== Sys2Proof/Machine/State.lean ====
section
/-! DEFINITION. The state of TIBB (10_state.md R30 to R46), the reasons a step can stop, and the machine
right after reset. Every field is plain data. The spec gives no register file, no program counter and no
flags (R30, R31, R35); the fields marked "the model's own" are the host channel's two ends and the record
of RS accesses that the rules speak of. -/

namespace Sys2Proof.Machine

/-- RS as byte cells, addresses strictly rising (assumption log 3). -/
abbrev Memory := List Host.Cell

/-- The byte an address of RS that no cell lists reads as. DESIGN CHOICE, unsafe (assumption log 2): the
spec leaves `rs_init` open, one draw per word (R39, R46). -/
def unlistedByte : Byte := 0

/-- The four test lines (R36, R40). -/
inductive Line where
  | clk
  | din
  | en
  | clr
  deriving DecidableEq, Repr

/-- The phases of a TEST_WRITE (R33). -/
inductive TwPhase where
  | c1
  | c2
  | c3
  | c4
  | c5
  | d1
  | d2
  | d3
  | done
  deriving DecidableEq, Repr

/-- The TIB phase state `(tw_phase, tw_i)` (R33) with the operands of the TEST_WRITE it belongs to. -/
structure TibState where
  code  : Byte
  data  : List Byte
  /-- `tw_phase`. -/
  phase : TwPhase
  /-- `tw_i`, the index of the current data byte. -/
  i     : Nat
  deriving DecidableEq, Repr

/-- The DIV internal state of a SOLVE (R34) with its operands in hertz. The spec gives `p`, `best_p` and
`best_rem` as u32 and `best_fb` as u9; all arithmetic is exact (R11), so they are held as naturals. -/
structure SolveState where
  ref     : Nat
  target  : Nat
  /-- `p`, the candidate pre-divider. -/
  p       : Nat
  bestP   : Nat
  bestFb  : Nat
  /-- `best_rem`, the sentinel `ref` before any candidate is accepted (R212). -/
  bestRem : Nat
  found   : Bool
  deriving DecidableEq, Repr

/-- The DIV internal state `(j, match_j)` of an FR_LOOKUP (R34) with its operand in hertz. -/
structure LookupState where
  clk    : Nat
  /-- `j`, the table index. -/
  j      : Nat
  /-- `match_j`, the last matching index or none. -/
  matchJ : Option Nat
  deriving DecidableEq, Repr

/-- The command a BUSY sequencer is executing, with the state that exists only inside it (R33, R34). -/
inductive Activity where
  | fieldWrite (d : Desc) (value : Word)
  | regRead (bsel : BitVec 2) (offset : Word)
  | testWrite (t : TibState)
  | solve (c : SolveState)
  | frLookup (c : LookupState)
  deriving DecidableEq, Repr

/-- The sequencer state `seq` (R32). -/
inductive Seq where
  | idle
  | busy (cmd : Activity)
  deriving DecidableEq, Repr

/-- The PHY test receiver (R42, R43) and its sticky fault mark (R45). -/
structure Receiver where
  /-- `treg`, one entry for each 8-bit test code, a `u8` or unknown (`none`). -/
  treg      : Vector (Option Byte) 256
  /-- `code_latch`, `none` when no code has been latched since reset or the last clear. -/
  codeLatch : Option Byte
  /-- `k`, the data bytes captured since the last code latch, modulo 256. -/
  k         : Byte
  /-- `trx_fault`, the sticky mark of R184. -/
  trxFault  : Bool
  deriving DecidableEq, Repr

/-- One RS access (R72, R73): the address and the word read or written. -/
inductive Access where
  | read (a : Nat) (v : Word)
  | write (a : Nat) (v : Word)
  deriving DecidableEq, Repr

/-- What the world outside TIBB can do (00_scope.md R16, 60_exceptions.md R297, 70_reset_and_hazards.md R320). -/
inductive HostEvent where
  /-- The host delivers one whole framed request (R100). -/
  | request (ws : List Word)
  /-- An agent other than TIBB writes the RS word at `a` (R297). -/
  | foreignWrite (a : Nat) (v : Word)
  /-- The platform's power-on reset, with the draw of `rs_init` it makes (R320). -/
  | reset (rsInit : Memory)
  deriving DecidableEq, Repr

/-- The state of the machine. -/
structure State where
  /-- The configuration (R36), fixed before the first command. -/
  cfg     : Config
  /-- The sequencer (R32), with the TIB phase state (R33) and the DIV internal state (R34) while BUSY. -/
  seq     : Seq
  /-- RS (R38). The line levels are functions of it (R40). -/
  rs      : Memory
  /-- The PHY test receiver (R42, R43) with the mark `trx_fault` (R45). -/
  trx     : Receiver
  /-- The sticky mark `refused` (R45). -/
  refused : Bool
  /-- The model's own: what the outside world will do next, the first first. -/
  inbox   : List HostEvent
  /-- The model's own: every response TIBB has returned, the oldest first (R112). -/
  outbox  : List (List Word)
  /-- The model's own: every RS access TIBB has made, the oldest first (R81). -/
  trace   : List Access
  deriving DecidableEq, Repr

/-- A step of TIBB never ends in a fault, so no constructor stands here: every failure the spec describes is a
status in a response (R290), the mark `trx_fault` (R184) or a refusal (R297). -/
inductive Fault where
  deriving DecidableEq, Repr

/-- Why the model gives no step. Every constructor but `notModelled` is one of R297 or R320 and carries the
state the refusal leaves, in which the mark `refused` is set. All are safe: the hardware has no defined
response, and no claim passes through a refusal. -/
inductive Refusal where
  /-- `exec`, for an instruction that has no meaning yet; no arm answers it in this model. Safe. -/
  | notModelled (mnemonic : String)
  /-- `step`: a request of `L = 0` (R100, R297). Safe. -/
  | emptyRequest (marked : State)
  /-- `exec` and `step`: the configuration fails a check of R37 (R297). Safe. -/
  | illFormedConfig (marked : State)
  /-- `exec` and `step`: a request arrives while the sequencer is BUSY (R32, R297). Safe. -/
  | requestWhileBusy (marked : State)
  /-- `step`: an agent other than TIBB writes RS (R85, R297). Safe. -/
  | foreignWrite (marked : State)
  /-- `step`: a reset arrives during a command (R320). Safe. -/
  | resetWhileBusy (marked : State)
  deriving DecidableEq, Repr

/-- The receiver at power-on (R46): every register unknown, no code latched, `k = 0`. The mark is given,
because no reset clears it (R45). -/
def Receiver.powerOn (trxFault : Bool) : Receiver where
  treg := Vector.replicate 256 none
  codeLatch := none
  k := 0
  trxFault := trxFault

/-- A launch (R46, R320): the given configuration and draw of `rs_init`, the sequencer IDLE, the receiver at
power-on, both marks false, and nothing received, answered or accessed yet. -/
def State.launch (cfg : Config) (rsInit : Memory) : State where
  cfg := cfg
  seq := .idle
  rs := rsInit
  trx := Receiver.powerOn false
  refused := false
  inbox := []
  outbox := []
  trace := []

/-- The machine right after reset: the launch of the configuration the assumption log names (log 1), with
nothing listed in RS (log 2). -/
def State.reset : State := State.launch Config.illustrative []

end Sys2Proof.Machine
end

