-- ==== Sys2Proof/Machine/Flags.lean ====
section
/-! DEFINITION. TIBB has no flags or condition codes (10_state.md R35): what stands in their place is the 8-bit
status of every response (60_exceptions.md R290). -/

namespace Sys2Proof.Machine

/-- The statuses (R290). No other is ever returned. -/
inductive Status where
  | ok
  | illegal
  | eaddr
  | misaligned
  | einvalRefclk
  | einvalNocand
  | enorange
  deriving DecidableEq, Repr

/-- The 8-bit code of a status (R290). -/
def Status.code : Status → Byte
  | .ok           => 0x00
  | .illegal      => 0x01
  | .eaddr        => 0x02
  | .misaligned   => 0x03
  | .einvalRefclk => 0x10
  | .einvalNocand => 0x11
  | .enorange     => 0x12

/-- The words of a response (R112): `r[0] = zext_32(status)`, followed by the result words only when the
status is OK. -/
def responseWords (st : Status) (results : List Word) : List Word :=
  if st = .ok then st.code.setWidth 32 :: results else [st.code.setWidth 32]

end Sys2Proof.Machine
end

