-- ==== Sys2Proof/Machine/Operands.lean ====
section
/-! DEFINITION. The operand forms and the bit-field arithmetic of TIBB: masks and field values (00_scope.md R11,
R13, 41_field_codec.md R141, R142), effective addresses and their checks (20_memory.md R71), the four test lines
(10_state.md R40), and the well-formedness of a configuration (R37). -/

namespace Sys2Proof

/-- `2^AW`, the first byte address beyond RS (R36). -/
def AddrWidth.size : AddrWidth → Nat
  | .aw32 => 2 ^ 32
  | .aw64 => 2 ^ 64

/-- `mask(w) = 2^w - 1`, exact, for `1 <= w <= 32` (R11). -/
def mask (w : Nat) : Word := BitVec.ofNat 32 (2 ^ w - 1)

/-- `fmask(d) = mask(d.width) << d.boff` (R141). -/
def Desc.fmask (d : Desc) : Word := mask d.width <<< d.boff.toNat

/-- `fieldval(d, w) = (w >> d.boff) & mask(d.width)` (R13). -/
def Desc.fieldval (d : Desc) (w : Word) : Word := (w >>> d.boff.toNat) &&& mask d.width

/-- The merged word of a FIELD_WRITE (R142): `(w & ~fmask(d)) | ((value & mask(width)) << boff)`. -/
def Desc.merge (d : Desc) (w value : Word) : Word :=
  (w &&& ~~~d.fmask) ||| ((value &&& mask d.width) <<< d.boff.toNat)

/-- `BASE[bsel] + offset`, an exact sum (R71). -/
def Config.ea (cfg : Config) (bsel : BitVec 2) (offset : Word) : Nat :=
  cfg.base[bsel.toNat]'bsel.isLt + offset.toNat

/-- `addr(d) = BASE[d.bsel] + d.offset` (R13). -/
def Config.addr (cfg : Config) (d : Desc) : Nat := cfg.ea d.bsel d.offset

namespace Machine

/-- The address checks, EADDR before MISALIGNED (R71, R291); `none` where both pass. -/
def addrCheck (cfg : Config) (bsel : BitVec 2) (offset : Word) : Option Status :=
  if cfg.aw.size ≤ cfg.ea bsel offset then some .eaddr
  else if cfg.ea bsel offset % 4 ≠ 0 then some .misaligned
  else none

/-- All four lines. -/
def allLines : List Line := [.clk, .din, .en, .clr]

/-- The descriptor of a line (R36). -/
def lineDesc (cfg : Config) : Line → Desc
  | .clk => cfg.testClk
  | .din => cfg.testDin
  | .en  => cfg.testEn
  | .clr => cfg.testClr

/-- The width each line's descriptor must have (R37 WF2). -/
def lineWidth : Line → Nat
  | .clk => 1
  | .din => 8
  | .en  => 1
  | .clr => 1

/-- The bit ranges `[boff, boff + width)` of two descriptors share no bit (R37 WF4). -/
abbrev rangesDisjoint (d e : Desc) : Prop :=
  d.boff.toNat + d.width ≤ e.boff.toNat ∨ e.boff.toNat + e.width ≤ d.boff.toNat

end Machine

open Machine

/-- WF1: every base is below `2^AW` and a multiple of 4 (R37). -/
abbrev Config.wf1 (cfg : Config) : Prop :=
  ∀ b : Fin 4, cfg.base[b] < cfg.aw.size ∧ cfg.base[b] % 4 = 0

/-- WF2: each line's field lies within the word and has the line's width (R37). -/
abbrev Config.wf2 (cfg : Config) : Prop :=
  ∀ l ∈ allLines, (lineDesc cfg l).wellFormed ∧ (lineDesc cfg l).width = lineWidth l

/-- WF3: each line's address is below `2^AW` and a multiple of 4 (R37). -/
abbrev Config.wf3 (cfg : Config) : Prop :=
  ∀ l ∈ allLines, cfg.addr (lineDesc cfg l) < cfg.aw.size ∧ cfg.addr (lineDesc cfg l) % 4 = 0

/-- WF4: no two line fields share a bit (R37). -/
abbrev Config.wf4 (cfg : Config) : Prop :=
  ∀ l ∈ allLines, ∀ m ∈ allLines, l ≠ m → cfg.addr (lineDesc cfg l) = cfg.addr (lineDesc cfg m) →
    rangesDisjoint (lineDesc cfg l) (lineDesc cfg m)

/-- WF5: `1 <= NFR <= 256` (R37). -/
abbrev Config.wf5 (cfg : Config) : Prop := 1 ≤ cfg.frTable.length ∧ cfg.frTable.length ≤ 256

/-- A well-formed configuration (R37). -/
abbrev Config.wf (cfg : Config) : Prop := cfg.wf1 ∧ cfg.wf2 ∧ cfg.wf3 ∧ cfg.wf4 ∧ cfg.wf5

end Sys2Proof
end

