-- ==== Sys2Proof/Machine/Ops.lean ====
section
/-! DEFINITION. The operations the commands share: RS as byte cells in canonical form, the two RS accesses
(20_memory.md R72, R73), the receiver's reaction to a write (42_test_interface.md R180), the field write
(41_field_codec.md R142), and the ends of a command: `respond` (30_encoding.md R112), `raiseStatus` (60_exceptions.md
R292), which is what TIBB has in place of taking an exception (R295; there is no return from one, R296), and the
refusals of R297. -/

namespace Sys2Proof.Machine

/-- The byte at address `a`. -/
def Memory.readByte : Memory → Nat → Byte
  | [], _ => unlistedByte
  | c :: m, a => if c.1 = a then c.2 else Memory.readByte m a

/-- The memory with byte `v` at address `a`, in canonical form where `m` is: rising addresses, and no cell
whose byte is the one an unlisted address reads as. -/
def Memory.writeByte : Memory → Nat → Byte → Memory
  | [], a, v => if v = unlistedByte then [] else [(a, v)]
  | c :: m, a, v =>
    if a < c.1 then (if v = unlistedByte then c :: m else (a, v) :: c :: m)
    else if c.1 = a then (if v = unlistedByte then m else (a, v) :: m)
    else c :: Memory.writeByte m a v

/-- The canonical form: addresses strictly rising, and no cell equal to what an unlisted address reads as. -/
abbrev Memory.wf (m : Memory) : Prop :=
  m.Pairwise (fun c d => c.1 < d.1) ∧ ∀ c ∈ m, c.2 ≠ unlistedByte

/-- The memory that holds the given cells, the last of equal addresses winning, in canonical form. -/
def Memory.ofCells (cells : List Host.Cell) : Memory :=
  cells.foldl (fun m c => m.writeByte c.1 c.2) []

/-- The RS word at byte address `a`, its least significant byte lowest. TIBB moves whole words only, so the
byte order cannot be seen through it (R75, R76; assumption log 3). -/
def Memory.readWord (m : Memory) (a : Nat) : Word :=
  m.readByte (a + 3) ++ m.readByte (a + 2) ++ m.readByte (a + 1) ++ m.readByte a

/-- RS with the word `v` at byte address `a`. -/
def Memory.writeWord (m : Memory) (a : Nat) (v : Word) : Memory :=
  (((m.writeByte a (v.extractLsb' 0 8)).writeByte (a + 1) (v.extractLsb' 8 8)).writeByte
    (a + 2) (v.extractLsb' 16 8)).writeByte (a + 3) (v.extractLsb' 24 8)

/-- The levels of the four lines (R40). -/
structure Lines where
  clk : BitVec 1
  din : Byte
  en  : BitVec 1
  clr : BitVec 1
  deriving DecidableEq, Repr

/-- The field value of a line's descriptor in RS (R40). -/
def lineValue (cfg : Config) (rs : Memory) (l : Line) : Word :=
  (lineDesc cfg l).fieldval (rs.readWord (cfg.addr (lineDesc cfg l)))

/-- The line levels as functions of RS (R40). -/
def linesOf (cfg : Config) (rs : Memory) : Lines where
  clk := (lineValue cfg rs .clk).setWidth 1
  din := (lineValue cfg rs .din).setWidth 8
  en := (lineValue cfg rs .en).setWidth 1
  clr := (lineValue cfg rs .clr).setWidth 1

/-- The line levels of a state (R40). -/
def State.lines (s : State) : Lines := linesOf s.cfg s.rs

/-- The receiver in its cleared state (R185). -/
def Receiver.cleared (cfg : Config) (r : Receiver) : Receiver :=
  { r with treg := cfg.tregDefault, codeLatch := none, k := 0 }

/-- The receiver after it latches a code (R181). -/
def Receiver.latch (code : Byte) (r : Receiver) : Receiver :=
  { r with codeLatch := some code, k := 0 }

/-- The test register a data capture writes (R182): the latched code under SAME, `(code + k) mod 256` under
INCR. -/
def captureAddr (policy : MultiByte) (code k : Byte) : Byte :=
  match policy with
  | .same => code
  | .incr => code + k

/-- The receiver after a data capture (R182); with no code latched, the mark of R184 (a). -/
def Receiver.capture (cfg : Config) (d : Byte) (r : Receiver) : Receiver :=
  match r.codeLatch with
  | none => { r with trxFault := true }
  | some code =>
    { r with
      treg := r.treg.set (captureAddr cfg.multiByte code r.k).toNat (some d)
        (captureAddr cfg.multiByte code r.k).isLt
      k := r.k + 1 }

/-- `TRX_observe(old, new)` (R180), on the line levels before and after one RS write. -/
def observe (cfg : Config) (old new : Lines) (r : Receiver) : Receiver :=
  if old.clk ≠ new.clk ∧ (old.en ≠ new.en ∨ old.clr ≠ new.clr ∨ old.din ≠ new.din) then
    { r with trxFault := true }
  else if new.clr = 1 then r.cleared cfg
  else if old.clk = 1 ∧ new.clk = 0 ∧ new.en = 1 then r.latch new.din
  else if old.clk = 0 ∧ new.clk = 1 ∧ new.en = 0 then r.capture cfg new.din
  else r

/-- `RSRead(a)` (R72): the word, and the state with nothing changed but the record of accesses. -/
def rsRead (a : Nat) (s : State) : Word × State :=
  (s.rs.readWord a, { s with trace := s.trace ++ [.read a (s.rs.readWord a)] })

/-- `RSWrite(a, v)` (R73): the write and the receiver's reaction to it, in one indivisible step. It is always
performed, even when `v` is the stored word (R74). -/
def rsWrite (a : Nat) (v : Word) (s : State) : State :=
  let rs := s.rs.writeWord a v
  { s with
    rs := rs
    trx := observe s.cfg (linesOf s.cfg s.rs) (linesOf s.cfg rs) s.trx
    trace := s.trace ++ [.write a v] }

/-- `FieldWrite(d, v)` (R142 from the masking step on): read, merge, write. -/
def fieldWrite (d : Desc) (value : Word) (s : State) : State :=
  let a := s.cfg.addr d
  let (w, s') := rsRead a s
  rsWrite a (d.merge w value) s'

/-- The state with the sequencer at `q` (R32). -/
def State.setSeq (q : Seq) (s : State) : State := { s with seq := q }

/-- `respond(status, results…)` (R112): the response is returned and the sequencer is IDLE. -/
def respond (st : Status) (results : List Word) (s : State) : State :=
  { s with seq := .idle, outbox := s.outbox ++ [responseWords st results] }

/-- `raise S` (R292): the command ends with the status alone. -/
def raiseStatus (st : Status) (s : State) : State := respond st [] s

/-- The state a refusal leaves: nothing changed but the sticky mark `refused` (R45, R297). -/
def State.markRefused (s : State) : State := { s with refused := true }

/-- The sequencer is in IDLE. -/
abbrev State.isIdle (s : State) : Prop := s.seq = .idle

/-- What every request needs before its command starts: a well-formed configuration (R37) and an IDLE
sequencer (R32). Otherwise the model refuses it (R297). -/
def accept (s : State) (command : State → State) : Host.Outcome State Fault Refusal :=
  if ¬s.cfg.wf then .refused (.illFormedConfig s.markRefused)
  else if ¬s.isIdle then .refused (.requestWhileBusy s.markRefused)
  else .next (command s)

/-- An ILLEGAL request (R111): the status, and nothing else. -/
def illegalRequest (s : State) : Host.Outcome State Fault Refusal :=
  accept s (raiseStatus .illegal)

end Sys2Proof.Machine
end

