-- ==== Sys2Proof/Machine/Phases.lean ====
section
/-! DEFINITION. What a BUSY sequencer does: one phase of each command (42_test_interface.md R172, 43_divider_solver.md
R210 and R220, 41_field_codec.md R142 and R150), and the run of a command to its response (10_state.md R32). -/

namespace Sys2Proof.Machine

/-- The line write a TIB phase performs (R172); DONE performs none. -/
def tibWrite (t : TibState) : Option (Line × Word) :=
  match t.phase with
  | .c1 => some (.clk, 1)
  | .c2 => some (.din, t.code.setWidth 32)
  | .c3 => some (.en, 1)
  | .c4 => some (.clk, 0)
  | .c5 => some (.en, 0)
  | .d1 => some (.clk, 0)
  | .d2 => some (.din, (t.data.getD t.i 0).setWidth 32)
  | .d3 => some (.clk, 1)
  | .done => none

/-- The next TIB phase (R172). -/
def tibNext (t : TibState) : TibState :=
  match t.phase with
  | .c1 => { t with phase := .c2 }
  | .c2 => { t with phase := .c3 }
  | .c3 => { t with phase := .c4 }
  | .c4 => { t with phase := .c5 }
  | .c5 => { t with phase := .d1, i := 0 }
  | .d1 => { t with phase := .d2 }
  | .d2 => { t with phase := .d3 }
  | .d3 => if t.i + 1 < t.data.length then { t with phase := .d1, i := t.i + 1 } else { t with phase := .done }
  | .done => t

/-- The TIB phase a TEST_WRITE starts in (R172). R172 gives `tw_i` a value, 0, only on entry to D1; that it holds 0
from C1 to C5 too, where nothing reads it, is the model's choice (DESIGN CHOICE, assumption log 20). -/
def tibStart (code : Byte) (data : List Byte) : TibState := ⟨code, data, .c1, 0⟩

/-- One phase of a TEST_WRITE: its FieldWrite, performed and observed before the next phase begins, or the
response at DONE (R172). -/
def advanceTib (t : TibState) (s : State) : State :=
  match tibWrite t with
  | none => respond .ok [] s
  | some (l, v) => (fieldWrite (lineDesc s.cfg l) v s).setSeq (.busy (.testWrite (tibNext t)))

/-- `min_p = max(1, ceil_div(ref, 40 MHz))` (R211). -/
def minPreDiv (ref : Nat) : Nat := max 1 (ceilDiv ref Const.fPfdMax)

/-- `max_p = ref div 5 MHz` (R211). It is itself no candidate (R212). -/
def maxPreDiv (ref : Nat) : Nat := ref / Const.fPfdMin

/-- `fb = (tgt * p) div ref`, exact (R210). -/
def feedbackDiv (ref target p : Nat) : Nat := target * p / ref

/-- `rem = (tgt * p) mod ref`, exact (R210). -/
def remainder (ref target p : Nat) : Nat := target * p % ref

/-- `ach = (ref * best_fb) div best_p`: the product first, then one floor division (R215). -/
def achievedClk (ref fb p : Nat) : Nat := ref * fb / p

/-- The DIV state before the scan (R210). `best_p` and `best_fb` have no value until a candidate is found; what
stands here is never read (assumption log 9). -/
def solveStart (ref target : Nat) : SolveState where
  ref := ref
  target := target
  p := minPreDiv ref
  bestP := 0
  bestFb := 0
  bestRem := ref
  found := false

/-- The scan's treatment of the candidate `p` (R210, R212, R213). -/
def solveCandidate (c : SolveState) : SolveState :=
  let fb := feedbackDiv c.ref c.target c.p
  let rem := remainder c.ref c.target c.p
  if 1 ≤ fb ∧ fb < Const.fbMax ∧ rem < c.bestRem then
    { c with p := c.p + 1, bestP := c.p, bestFb := fb, bestRem := rem, found := true }
  else { c with p := c.p + 1 }

/-- The end of a SOLVE (R210, R214, R215). -/
def solveEnd (c : SolveState) (s : State) : State :=
  if c.found then
    respond .ok [BitVec.ofNat 32 c.bestP, BitVec.ofNat 32 c.bestFb,
      BitVec.ofNat 32 (achievedClk c.ref c.bestFb c.bestP)] s
  else raiseStatus .einvalNocand s

/-- One candidate of a SOLVE, or its end at `p = max_p` (R210). -/
def advanceSolve (c : SolveState) (s : State) : State :=
  if c.p < maxPreDiv c.ref then s.setSeq (.busy (.solve (solveCandidate c)))
  else solveEnd c s

/-- `thr_mhz <= clk div 1 000 000` (R222). -/
def entryMatches (e : FrEntry) (clk : Nat) : Bool := e.thrMhz.toNat ≤ clk / Const.mhz

/-- The end of an FR_LOOKUP (R220, R224). -/
def lookupEnd (c : LookupState) (s : State) : State :=
  match c.matchJ with
  | none => raiseStatus .enorange s
  | some m =>
    match s.cfg.frTable[m]? with
    | none => raiseStatus .enorange s
    | some e => respond .ok [e.code.setWidth 32, BitVec.ofNat 32 m] s

/-- One table entry of an FR_LOOKUP, or its end after the last (R220). -/
def advanceLookup (c : LookupState) (s : State) : State :=
  match s.cfg.frTable[c.j]? with
  | some e =>
    let matchJ := if entryMatches e c.clk then some c.j else c.matchJ
    s.setSeq (.busy (.frLookup { c with j := c.j + 1, matchJ := matchJ }))
  | none => lookupEnd c s

/-- One phase of the command the sequencer is executing; an IDLE sequencer does nothing (R32). -/
def advance (s : State) : State :=
  match s.seq with
  | .idle => s
  | .busy (.fieldWrite d value) => respond .ok [] (fieldWrite d value s)
  | .busy (.regRead bsel offset) =>
    let (w, s') := rsRead (s.cfg.ea bsel offset) s
    respond .ok [w] s'
  | .busy (.testWrite t) => advanceTib t s
  | .busy (.solve c) => advanceSolve c s
  | .busy (.frLookup c) => advanceLookup c s

/-- A bound on the phases a command still has before its response. -/
def phasesLeft (cfg : Config) : Activity → Nat
  | .fieldWrite _ _ => 1
  | .regRead _ _ => 1
  | .testWrite t => 9 + 3 * t.data.length
  | .solve c => maxPreDiv c.ref - c.p + 1
  | .frLookup c => cfg.frTable.length - c.j + 1

/-- `n` phases, or as many as there are before the sequencer is IDLE. -/
def runPhases : Nat → State → State
  | 0, s => s
  | n + 1, s => if s.seq = .idle then s else runPhases n (advance s)

/-- The command the sequencer is executing, to its response (R32). -/
def finish (s : State) : State :=
  match s.seq with
  | .idle => s
  | .busy cmd => runPhases (phasesLeft s.cfg cmd) s

/-- A command, from its start to its response (R32): the sequencer goes BUSY, performs the command, and is IDLE
again. -/
def runCommand (cmd : Activity) (s : State) : State := finish (s.setSeq (.busy cmd))

end Sys2Proof.Machine
end

