-- ==== Sys2Proof/Machine/Divider.lean ====
section
/-! DEFINITION. The Divider Solver: SOLVE and FR_LOOKUP (43_divider_solver.md), and the two searches as functions of
their operands alone, for the statements that speak of their results. -/

namespace Sys2Proof.Machine

/-- SOLVE (R210): EINVAL_REFCLK where no pre-divider range exists; else the scan of `min_p .. max_p - 1`, then OK
with the divider pair and the achieved clock, or EINVAL_NOCAND. -/
def execSolve (ref target : Word) (s : State) : Host.Outcome State Fault Refusal :=
  accept s fun s =>
    if maxPreDiv ref.toNat < minPreDiv ref.toNat then raiseStatus .einvalRefclk s
    else runCommand (.solve (solveStart ref.toNat target.toNat)) s

/-- FR_LOOKUP (R220): the whole table in index order, then OK with the last matching entry's code and index, or
ENORANGE. -/
def execFrLookup (clk : Word) (s : State) : Host.Outcome State Fault Refusal :=
  accept s fun s => runCommand (.frLookup ⟨clk.toNat, 0, none⟩) s

/-- A candidate pre-divider the scan examines: `min_p <= p <= max_p - 1` (R212). -/
abbrev candidateRange (ref p : Nat) : Prop := minPreDiv ref ≤ p ∧ p < maxPreDiv ref

/-- A candidate the scan may accept: its feedback divider is in `[1, 512)` (R213). -/
abbrev acceptable (ref target p : Nat) : Prop :=
  1 ≤ feedbackDiv ref target p ∧ feedbackDiv ref target p < Const.fbMax

/-- `p` is the scan's result (R212): an examined, acceptable candidate whose remainder is below that of every
earlier acceptable one and at most that of every later one. -/
abbrev isBestPreDiv (ref target p : Nat) : Prop :=
  (candidateRange ref p ∧ acceptable ref target p) ∧
  ∀ q, candidateRange ref q → acceptable ref target q →
    remainder ref target p ≤ remainder ref target q ∧
    (q < p → remainder ref target p < remainder ref target q)

/-- `m` is the last index of the table whose entry matches (R222). -/
abbrev isLastMatch (table : List FrEntry) (clk m : Nat) : Prop :=
  (∃ e, table[m]? = some e ∧ entryMatches e clk = true) ∧
  ∀ j e, m < j → table[j]? = some e → entryMatches e clk = false

end Sys2Proof.Machine
end

