-- ==== Sys2Proof/Machine/FieldCodec.lean ====
section
/-! DEFINITION. The Register Field Codec: FIELD_WRITE and REG_READ (41_field_codec.md). -/

namespace Sys2Proof.Machine

/-- FIELD_WRITE (R142): ILLEGAL, EADDR and MISALIGNED in that order (R291), each before any access; then the read
and the write of one word, and OK. -/
def execFieldWrite (d : Desc) (value : Word) (s : State) : Host.Outcome State Fault Refusal :=
  accept s fun s =>
    if ¬d.wellFormed then raiseStatus .illegal s
    else match addrCheck s.cfg d.bsel d.offset with
      | some st => raiseStatus st s
      | none => runCommand (.fieldWrite d value) s

/-- REG_READ (R150): EADDR, then MISALIGNED, each before the read; then the read of one word, and OK with it. -/
def execRegRead (bsel : BitVec 2) (offset : Word) (s : State) : Host.Outcome State Fault Refusal :=
  accept s fun s =>
    match addrCheck s.cfg bsel offset with
    | some st => raiseStatus st s
    | none => runCommand (.regRead bsel offset) s

end Sys2Proof.Machine
end

