-- ==== Sys2Proof/Machine/TestInterface.lean ====
section
/-! DEFINITION. The D-PHY Test-Interface Bit-banger: TEST_WRITE (42_test_interface.md), and the same protocol as the
straight list of line writes that R170 gives, for the statements that speak of the whole transfer. -/

namespace Sys2Proof.Machine

/-- TEST_WRITE (R170): ILLEGAL for a count of data bytes no encoding admits (R104); then the phases C1 to C5 and
D1 to D3 of each byte (R172), and OK. -/
def execTestWrite (code : Byte) (data : List Byte) (s : State) : Host.Outcome State Fault Refusal :=
  accept s fun s =>
    if data.length = 0 ∨ Const.nMax < data.length then raiseStatus .illegal s
    else runCommand (.testWrite (tibStart code data)) s

/-- The three line writes of one data byte (R170). -/
def byteWrites (b : Byte) : List (Line × Word) := [(.clk, 0), (.din, b.setWidth 32), (.clk, 1)]

/-- The line writes of a TEST_WRITE, in order (R170): five for the code, three for each data byte. -/
def transferWrites (code : Byte) (data : List Byte) : List (Line × Word) :=
  [(.clk, 1), (.din, code.setWidth 32), (.en, 1), (.clk, 0), (.en, 0)] ++ data.flatMap byteWrites

/-- The FieldWrites of a list of line writes, in order. -/
def writeLines (ws : List (Line × Word)) (s : State) : State :=
  ws.foldl (fun s w => fieldWrite (lineDesc s.cfg w.1) w.2 s) s

/-- The line levels after a FieldWrite of the value to the line, every other line unchanged (R175). -/
def Lines.set (ls : Lines) (l : Line) (v : Word) : Lines :=
  match l with
  | .clk => { ls with clk := v.setWidth 1 }
  | .din => { ls with din := v.setWidth 8 }
  | .en  => { ls with en := v.setWidth 1 }
  | .clr => { ls with clr := v.setWidth 1 }

/-- The line levels after a list of line writes (R175). -/
def levelsAfter (ws : List (Line × Word)) (ls : Lines) : Lines := ws.foldl (fun ls w => ls.set w.1 w.2) ls

/-- The test registers after data bytes are captured at a latched code, the first with count `k` (R182). -/
def captureAll (policy : MultiByte) (code : Byte) :
    Byte → List Byte → Vector (Option Byte) 256 → Vector (Option Byte) 256
  | _, [], treg => treg
  | k, b :: bs, treg =>
    captureAll policy code (k + 1) bs
      (treg.set (captureAddr policy code k).toNat (some b) (captureAddr policy code k).isLt)

end Sys2Proof.Machine
end

