-- ==== Sys2Proof/Machine/Dispatch.lean ====
section
/-! DEFINITION. The meaning of each command, one arm a constructor of `Instr` (30_encoding.md R101). -/

namespace Sys2Proof.Machine

def exec (i : Instr) (s : State) : Host.Outcome State Fault Refusal :=
  match i with
  | .fieldWrite d value => Sys2Proof.Machine.execFieldWrite d value s
  | .regRead bsel offset => Sys2Proof.Machine.execRegRead bsel offset s
  | .testWrite code data => Sys2Proof.Machine.execTestWrite code data s
  | .solve ref target => Sys2Proof.Machine.execSolve ref target s
  | .frLookup clk => Sys2Proof.Machine.execFrLookup clk s

end Sys2Proof.Machine
end

