-- ==== Sys2Proof/Machine/Events.lean ====
section
/-! DEFINITION. What each event of the outside world does: a request (30_encoding.md R100, R111), a foreign RS write
(60_exceptions.md R297), the power-on reset (70_reset_and_hazards.md R320), and no event at all. -/

namespace Sys2Proof.Machine

/-- A request delivered to an IDLE sequencer: refused if empty (R297), answered ILLEGAL if it is no command (R111),
else the command. -/
def deliver (ws : List Word) (s : State) : Host.Outcome State Fault Refusal :=
  match decode ws with
  | .ok i => exec i s
  | .error .empty => .refused (.emptyRequest s.markRefused)
  | .error _ => illegalRequest s

/-- The power-on reset (R320, R46): RS holds the given draw of `rs_init`, the receiver is at power-on, the sequencer
is IDLE. The configuration stands as supplied, and no reset clears the marks (R45). -/
def applyReset (rsInit : Memory) (s : State) : State :=
  { s with
    seq := .idle
    rs := Memory.ofCells (rsInit.filter fun c => c.1 < s.cfg.aw.size)
    trx := Receiver.powerOn s.trx.trxFault }

/-- A reset is refused during a command (R320). -/
def resetEvent (rsInit : Memory) (s : State) : Host.Outcome State Fault Refusal :=
  if ¬s.cfg.wf then .refused (.illFormedConfig s.markRefused)
  else if ¬s.isIdle then .refused (.resetWhileBusy s.markRefused)
  else .next (applyReset rsInit s)

/-- No event: an IDLE sequencer waits for the next request (R320), a BUSY one performs its command to the
response (R32). Under an ill-formed configuration nothing runs (R37). -/
def noEvent (s : State) : Host.Outcome State Fault Refusal :=
  if ¬s.cfg.wf then .refused (.illFormedConfig s.markRefused) else .next (finish s)

/-- One event. -/
def handle (e : HostEvent) (s : State) : Host.Outcome State Fault Refusal :=
  match e with
  | .request ws => deliver ws s
  | .foreignWrite _ _ => .refused (.foreignWrite s.markRefused)
  | .reset rsInit => resetEvent rsInit s

end Sys2Proof.Machine
end

