-- ==== Sys2Proof/Machine/Step.lean ====
section
/-! DEFINITION. One step of the machine: the next event of the outside world, taken whole (10_state.md R32: commands are
atomic), and where the next request is delivered. -/

namespace Sys2Proof.Machine

/-- One step. TIBB has no program counter and fetches nothing (R31): the next request is the inbox's first event, and a
command runs from its request to its response in one step (R32, 92_eei_decisions.md D33). -/
def step (s : State) : Host.Outcome State Fault Refusal :=
  match s.inbox with
  | [] => noEvent s
  | e :: rest => handle e { s with inbox := rest }

/-- The state in which the very next event is the request of a table word (the host's fixed name): the host delivers
it before everything else in the inbox. -/
def State.withFetchWord (s : State) (nbits w : Nat) : State :=
  { s with inbox := .request (tableRequest nbits w) :: s.inbox }

end Sys2Proof.Machine
end

