-- ==== Sys2Proof/Machine/Client.lean ====
section
/-! DEFINITION. The reference client programs of 44_client_sequences.md: software around the block (00_scope.md R6),
given as the exact requests they send. They are no part of the machine. Every value the spec does not give is
a field of the parameters below (R250, R251). -/

namespace Sys2Proof.Client

open Sys2Proof.Machine

/-- The source's error kinds (R266, R281). -/
inductive ErrorKind where
  | eNotFound
  | eInvalid
  | eIo
  deriving DecidableEq, Repr

/-- How a client program, or a part of it, ends: with a result, with the first error (R281), or because the machine
refuses an event (R297). Each end names the machine's state, with all that was written left written (R281). -/
inductive Result (α : Type) where
  | done (s : State) (a : α)
  | failed (s : State) (e : ErrorKind)
  | stopped (s : State) (r : Refusal)
  deriving Repr

/-- The next part of a client program runs only where this one succeeded: the first failure ends it (R260, R281). -/
def Result.bind {α β : Type} (r : Result α) (next : State → α → Result β) : Result β :=
  match r with
  | .done s a => next s a
  | .failed s e => .failed s e
  | .stopped s why => .stopped s why

/-- The field catalog (R251), a descriptor for each field but the four test lines, which the machine's configuration
holds (R36). -/
structure Catalog where
  vopSel         : Desc
  txmodeL0       : Desc
  stopexitL0     : Desc
  hsa            : Desc
  hbp            : Desc
  hline          : Desc
  vsa            : Desc
  vbp            : Desc
  vfp            : Desc
  vactive        : Desc
  polHsyncLow    : Desc
  polVsyncLow    : Desc
  polDeLow       : Desc
  polPixclkNeg   : Desc
  vidModeType    : Desc
  vidPktSize     : Desc
  dpiColorCoding : Desc
  lpCmdEn        : Desc
  lpHfpEn        : Desc
  lpVactEn       : Desc
  lpVfpEn        : Desc
  lpVbpEn        : Desc
  lpVsaEn        : Desc
  /-- The timeout fields `TO_*`, one for each entry of `TO_VALS`. -/
  timeouts       : List Desc
  txEscClkDiv    : Desc
  powerOn        : Desc
  phyShutdown    : Desc
  phyReset       : Desc
  laneCount      : Desc
  phyEnableclk   : Desc
  phyForcepll    : Desc
  deriving DecidableEq, Repr

/-- The catalog's fields in the controller: all but `VOP_SEL`, by name (R251). -/
def Catalog.controllerFields (c : Catalog) : List Desc :=
  [c.txmodeL0, c.stopexitL0, c.hsa, c.hbp, c.hline, c.vsa, c.vbp, c.vfp, c.vactive,
    c.polHsyncLow, c.polVsyncLow, c.polDeLow, c.polPixclkNeg, c.vidModeType, c.vidPktSize,
    c.dpiColorCoding, c.lpCmdEn, c.lpHfpEn, c.lpVactEn, c.lpVfpEn, c.lpVbpEn, c.lpVsaEn] ++
  c.timeouts ++
  [c.txEscClkDiv, c.powerOn, c.phyShutdown, c.phyReset, c.laneCount, c.phyEnableclk, c.phyForcepll]

/-- Every descriptor of the catalog but the four test lines: `VOP_SEL` and the controller's fields (R251). -/
def Catalog.fields (c : Catalog) : List Desc := c.vopSel :: c.controllerFields

/-- Each field of the catalog in its base (R251): `VOP_SEL`, and no other field, in the GRF, `bsel = 1`; every other
field, the four test lines among them, in the controller, `bsel = 0`. -/
abbrev Catalog.placed (c : Catalog) (cfg : Config) : Prop :=
  c.vopSel.bsel = 1 ∧ (∀ d ∈ c.controllerFields, d.bsel = 0) ∧ ∀ l ∈ allLines, (lineDesc cfg l).bsel = 0

/-- One push `(code, byte)` of a single data byte. -/
abbrev Push := Byte × Byte

/-- The client parameters (R250). -/
structure Params where
  refClk          : Word
  sysClk          : Word
  escReq          : Word
  /-- `CP_LPF_SEQ(k)` for `k = phy_clk div 200 000 000`. -/
  cpLpfSeq        : Nat → List Push
  codeHsrxLane0   : Byte
  codePllInputDiv : Byte
  codePllLoopDiv  : Byte
  /-- `FB_MARKER`, 4..7. -/
  fbMarker        : Nat
  restConfig      : List Push
  timingPairs     : List Push
  lanesVal        : Word
  sdOn            : BitVec 1
  sdOff           : BitVec 1
  rstOn           : BitVec 1
  rstOff          : BitVec 1
  vopB            : Nat
  vopL            : Nat
  selB            : Word
  selL            : Word
  dpi16           : Word
  dpi24           : Word
  dpi30           : Word
  burstVal        : Word
  pktSize         : Word
  /-- `TO_VALS`, in the order of the catalog's timeout fields. -/
  toVals          : List Word
  escDiv          : Word
  txmodeVal       : Word
  stopexitVal     : Word
  catalog         : Catalog

/-- `v` fits the field of `d`. -/
def fits (d : Desc) (v : Word) : Prop := v &&& mask d.width = v

/-- A field shares no bit with a test line (R251). -/
def clearOfLines (cfg : Config) (d : Desc) : Prop :=
  ∀ l ∈ allLines, cfg.addr d = cfg.addr (lineDesc cfg l) → rangesDisjoint d (lineDesc cfg l)

/-- The constraints on the client parameters (R250, R251). A parameter set that breaks them is outside every
claim. -/
structure Params.wf (p : Params) (cfg : Config) : Prop where
  cpLpfNonempty : ∀ k, p.cpLpfSeq k ≠ []
  markerRange   : 4 ≤ p.fbMarker ∧ p.fbMarker ≤ 7
  threeTimings  : p.timingPairs.length = 3
  vopDistinct   : p.vopB ≠ p.vopL
  oneTimeoutVal : p.toVals.length = p.catalog.timeouts.length
  fieldsLegal   : ∀ d ∈ p.catalog.fields, d.wellFormed
  fieldsClear   : ∀ d ∈ p.catalog.fields, clearOfLines cfg d
  placed        : p.catalog.placed cfg
  lanesFit      : fits p.catalog.laneCount p.lanesVal
  selFit        : fits p.catalog.vopSel p.selB ∧ fits p.catalog.vopSel p.selL
  dpiFit        : ∀ v ∈ [p.dpi16, p.dpi24, p.dpi30], fits p.catalog.dpiColorCoding v
  burstFits     : fits p.catalog.vidModeType p.burstVal
  pktFits       : fits p.catalog.vidPktSize p.pktSize
  toFit         : ∀ dv ∈ p.catalog.timeouts.zip p.toVals, fits dv.1 dv.2
  escFits       : fits p.catalog.txEscClkDiv p.escDiv
  modesFit      : fits p.catalog.txmodeL0 p.txmodeVal ∧ fits p.catalog.stopexitL0 p.stopexitVal

/-- The timing descriptor the DSI and clock steps read (R252, R270, R273), all its counts unsigned. `bpp` is the
optional property `bits-per-pixel`. -/
structure Timing where
  pixelClk       : Nat
  hactive        : Nat
  hfrontPorch    : Nat
  hbackPorch     : Nat
  hsyncLen       : Nat
  vactive        : Nat
  vfrontPorch    : Nat
  vbackPorch     : Nat
  vsyncLen       : Nat
  hsyncLow       : Bool
  vsyncLow       : Bool
  deLow          : Bool
  pixdataNegedge : Bool
  bpp            : Option Int
  deriving DecidableEq, Repr

/-- The clock plan (R252), in hertz. The byte and escape clocks have no value before the divider is solved. -/
structure ClockPlan where
  referenceClk : Nat
  systemClk    : Nat
  pixelClk     : Nat
  phyClk       : Nat
  txByteClk    : Option Nat
  txEscClk     : Option Nat
  deriving DecidableEq, Repr

/-- The plan before the PHY is configured (R252): `phy_clk = pixel_clk * 6`, or `EInvalid` where that is no u32. -/
def derivePlan (p : Params) (t : Timing) : Except ErrorKind ClockPlan :=
  if 2 ^ 32 ≤ t.pixelClk * 6 then .error .eInvalid
  else .ok ⟨p.refClk.toNat, p.sysClk.toNat, t.pixelClk, t.pixelClk * 6, none, none⟩

/-- The plan after the divider is solved (R253): every derived clock comes from the achieved one (R336);
`EInvalid` where `ESC_REQ = 0`. -/
def updatePlan (p : Params) (plan : ClockPlan) (achieved : Nat) : Except ErrorKind ClockPlan :=
  if p.escReq = 0 then .error .eInvalid
  else .ok { plan with
    phyClk := achieved
    txByteClk := some (achieved / 8)
    txEscClk := some (min p.escReq.toNat (achieved / 8)) }

/-- One request and its response (20_memory.md R83). A non-OK status is `EInvalid` (R266); on OK the result words. -/
def send (i : Instr) (s : State) : Result (List Word) :=
  match step { s with inbox := .request (encode i) :: s.inbox } with
  | .refused r => .stopped s r
  | .fault e => nomatch e
  | .next s' =>
    match s'.outbox.getLast? with
    | some (0 :: results) => .done s' results
    | _ => .failed s' .eInvalid

/-- A request whose response carries no result. -/
def sendUnit (i : Instr) (s : State) : Result Unit := (send i s).bind fun s _ => .done s ()

/-- Requests in order; the first non-OK status ends the list. -/
def sendAll : List Instr → State → Result Unit
  | [], s => .done s ()
  | i :: is, s => (sendUnit i s).bind fun s _ => sendAll is s

/-- `tw code, byte` for each push. -/
def pushes (ps : List Push) : List Instr := ps.map fun cb => .testWrite cb.1 [cb.2]

/-- A field flag as a field value. -/
def flagVal (b : Bool) : Word := if b then 1 else 0

/-- The clear pulse of the test interface (R262). -/
def clearPulse (cfg : Config) : List Instr := [.fieldWrite cfg.testClr 1, .fieldWrite cfg.testClr 0]

/-- The two bytes of the feedback divider (R263): the low 5 bits, then the high bits with the marker bit set. -/
def fbBytes (fbMarker fb : Nat) : Byte × Byte :=
  (BitVec.ofNat 8 (fb &&& 0x1F), BitVec.ofNat 8 ((fb >>> 5) ||| (1 <<< fbMarker)))

/-- Steps 1 to 5 of R260. -/
def phyOpening (p : Params) (cfg : Config) (req : Nat) : List Instr :=
  [.fieldWrite p.catalog.phyShutdown (p.sdOn.setWidth 32), .fieldWrite p.catalog.phyReset (p.rstOn.setWidth 32)] ++
  clearPulse cfg ++ pushes (p.cpLpfSeq (req / 200000000))

/-- Steps 10 to 19 of R260, for a solved divider pair. -/
def phyClosing (p : Params) (pre fb : Nat) : List Instr :=
  pushes [(p.codePllInputDiv, BitVec.ofNat 8 (pre - 1)),
    (p.codePllLoopDiv, (fbBytes p.fbMarker fb).1), (p.codePllLoopDiv, (fbBytes p.fbMarker fb).2)] ++
  pushes p.restConfig ++ pushes p.timingPairs ++
  [.fieldWrite p.catalog.laneCount p.lanesVal, .fieldWrite p.catalog.phyEnableclk 1,
    .fieldWrite p.catalog.phyForcepll 1, .fieldWrite p.catalog.phyShutdown (p.sdOff.setWidth 32),
    .fieldWrite p.catalog.phyReset (p.rstOff.setWidth 32)]

/-- Steps 9 to 19 of R260 on SOLVE's result words: the plan's update (R253), the range check of R263, the pushes and
the closing writes.

DESIGN CHOICE (assumption log 21): the plan is the result of a success only. R260's `configure` takes `plan: &mut
ClockPlan`, and the spec does not say what the caller's plan holds when it fails, above all at the range check of R263,
which comes after step 9's update. A failure here names the machine's state and the error, and no plan. -/
def phyAfterSolve (p : Params) (plan : ClockPlan) (s : State) (results : List Word) : Result ClockPlan :=
  let pre := (results.getD 0 0).toNat
  let fb := (results.getD 1 0).toNat
  match updatePlan p plan (results.getD 2 0).toNat with
  | .error e => .failed s e
  | .ok plan' =>
    if 0xFF < pre - 1 then .failed s .eInvalid
    else (sendAll (phyClosing p pre fb) s).bind fun s _ => .done s plan'

/-- The PHY configure sequence (R260). The range code is looked up with the requested clock (R264). The caller's plan is
given back on success only (DESIGN CHOICE, assumption log 21). -/
def phyConfigure (p : Params) (plan : ClockPlan) (s : State) : Result ClockPlan :=
  let req := plan.phyClk
  (sendAll (phyOpening p s.cfg req) s).bind fun s _ =>
  (send (.frLookup (BitVec.ofNat 32 req)) s).bind fun s found =>
  (sendUnit (.testWrite p.codeHsrxLane0 [(found.getD 0 0).setWidth 8]) s).bind fun s _ =>
  (send (.solve p.refClk (BitVec.ofNat 32 req)) s).bind fun s solved =>
  phyAfterSolve p plan s solved

/-- `dpi(bpp)` (R273): the 24-bit code for every value but 16 and 30, and for none. -/
def dpi (p : Params) (bpp : Option Int) : Word :=
  if bpp = some 16 then p.dpi16 else if bpp = some 30 then p.dpi30 else p.dpi24

/-- `HLINE`, an exact sum (R272). -/
def hlineTotal (t : Timing) : Nat := t.hsyncLen + t.hbackPorch + t.hactive + t.hfrontPorch

/-- A count as a FIELD_WRITE's value operand, which the field write masks (R270). -/
def countVal (n : Nat) : Word := BitVec.ofNat 32 n

/-- Steps 1 to 10 of R270, in its order. -/
def dsiWrites (p : Params) (t : Timing) (videoSourceId : Nat) : List Instr :=
  let c := p.catalog
  [.fieldWrite c.vopSel (if videoSourceId = p.vopB then p.selB else p.selL),
    .fieldWrite c.txmodeL0 p.txmodeVal, .fieldWrite c.stopexitL0 p.stopexitVal,
    .fieldWrite c.hsa (countVal t.hsyncLen), .fieldWrite c.hbp (countVal t.hbackPorch),
    .fieldWrite c.hline (countVal (hlineTotal t)), .fieldWrite c.vsa (countVal t.vsyncLen),
    .fieldWrite c.vbp (countVal t.vbackPorch), .fieldWrite c.vfp (countVal t.vfrontPorch),
    .fieldWrite c.vactive (countVal t.vactive),
    .fieldWrite c.polHsyncLow (flagVal t.hsyncLow), .fieldWrite c.polVsyncLow (flagVal t.vsyncLow),
    .fieldWrite c.polDeLow (flagVal t.deLow), .fieldWrite c.polPixclkNeg (flagVal t.pixdataNegedge),
    .fieldWrite c.vidModeType p.burstVal, .fieldWrite c.vidPktSize p.pktSize,
    .fieldWrite c.dpiColorCoding (dpi p t.bpp),
    .fieldWrite c.lpCmdEn 1, .fieldWrite c.lpHfpEn 1, .fieldWrite c.lpVactEn 1,
    .fieldWrite c.lpVfpEn 1, .fieldWrite c.lpVbpEn 1, .fieldWrite c.lpVsaEn 1] ++
  (c.timeouts.zip p.toVals).map (fun dv => Instr.fieldWrite dv.1 dv.2) ++
  [.fieldWrite c.txEscClkDiv p.escDiv, .fieldWrite c.powerOn 1]

/-- The DSI configure sequence (R270). The video source is checked before any request (R271). -/
def dsiConfigure (p : Params) (t : Timing) (videoSourceId : Nat) (s : State) : Result Unit :=
  if videoSourceId ≠ p.vopB ∧ videoSourceId ≠ p.vopL then .failed s .eInvalid
  else sendAll (dsiWrites p t videoSourceId) s

/-- What the external collaborators of the orchestrator answer (R280): whether a panel is found, its timing, the
video source it is wired to, and whether the backlight comes on. -/
structure Platform where
  panelFound    : Bool
  timing        : Option Timing
  videoSourceId : Nat
  backlightOk   : Bool
  deriving DecidableEq, Repr

/-- The orchestrator's states (R280, R281). A state carries what the steps after it read. `failed` carries its reason, as
R281 writes it, and no clock plan: what the plan holds after a failure is left unsaid (DESIGN CHOICE, assumption
log 21). -/
inductive Stage where
  | idle
  | panelDiscovered
  | timingRead (t : Timing)
  | clockPlanDerived (t : Timing) (plan : ClockPlan)
  | controllerConfigured (t : Timing) (plan : ClockPlan)
  | phyConfigured (t : Timing) (plan : ClockPlan)
  | backlightEnabled (plan : ClockPlan)
  | failed (reason : ErrorKind)
  deriving DecidableEq, Repr

/-- A part's end as the orchestrator's next stage: the first error is the reason, unchanged (R281). -/
def Result.toStage {α : Type} (r : Result α) (next : α → Stage) : Result Stage :=
  match r with
  | .done s a => .done s (next a)
  | .failed s e => .done s (.failed e)
  | .stopped s why => .stopped s why

/-- A pure step's end as the next stage. -/
def stageOf {α : Type} (r : Except ErrorKind α) (next : α → Stage) (s : State) : Result Stage :=
  match r with
  | .ok a => .done s (next a)
  | .error e => .done s (.failed e)

/-- One transition of the orchestrator (R280). The two terminal stages stay as they are: no retry, no second pass
(R281, R282). -/
def orchestrate (p : Params) (platform : Platform) (stage : Stage) (s : State) : Result Stage :=
  match stage with
  | .idle => .done s (if platform.panelFound then .panelDiscovered else .failed .eNotFound)
  | .panelDiscovered =>
    .done s (match platform.timing with | some t => .timingRead t | none => .failed .eNotFound)
  | .timingRead t => stageOf (derivePlan p t) (.clockPlanDerived t) s
  | .clockPlanDerived t plan =>
    (dsiConfigure p t platform.videoSourceId s).toStage fun _ => .controllerConfigured t plan
  | .controllerConfigured t plan => (phyConfigure p plan s).toStage (.phyConfigured t)
  | .phyConfigured _ plan => .done s (if platform.backlightOk then .backlightEnabled plan else .failed .eIo)
  | .backlightEnabled plan => .done s (.backlightEnabled plan)
  | .failed reason => .done s (.failed reason)

/-- The bring-up (R280, R282): one forward pass of the six transitions. -/
def bringUp (p : Params) (platform : Platform) (s : State) : Result Stage :=
  (orchestrate p platform .idle s).bind fun s st =>
  (orchestrate p platform st s).bind fun s st =>
  (orchestrate p platform st s).bind fun s st =>
  (orchestrate p platform st s).bind fun s st =>
  (orchestrate p platform st s).bind fun s st =>
  orchestrate p platform st s

end Sys2Proof.Client
end

