-- ==== Sys2Proof/Machine/Asm.lean ====
section
/-! DEFINITION. The assembler of 30_encoding.md R115 and R116: text in, commands out. It is the host's tool, no part of
the machine. Text is a list of characters, so that the kernel can evaluate it. -/

namespace Sys2Proof.Asm

open Sys2Proof.Machine

/-- Why a line is rejected. -/
inductive AsmError where
  /-- The first word is none of R115 and R116. -/
  | unknownMnemonic
  /-- The operands are not of the mnemonic's form (R115, R116). -/
  | badOperands
  /-- Not a decimal or `0x` hexadecimal number, or `MHz` where it is not accepted. -/
  | badNumber
  /-- `hi < lo` or `hi > 31`. -/
  | badRange
  /-- A value above its bound: `2^32 - 1`, 0xFF for a code or data byte, 3 for a base selector. -/
  | tooLarge
  /-- More than 255 data operands. -/
  | tooManyBytes
  /-- A field name the symbol table does not hold. -/
  | unknownField
  deriving DecidableEq, Repr

/-- The names of fields and what they stand for. -/
abbrev Symbols := List (List Char × Desc)

/-- The test lines' names (R116), for a configuration. -/
def lineSymbols (cfg : Config) : Symbols :=
  [(['T', 'E', 'S', 'T', 'C', 'L', 'K'], cfg.testClk), (['T', 'E', 'S', 'T', 'D', 'I', 'N'], cfg.testDin),
    (['T', 'E', 'S', 'T', 'E', 'N'], cfg.testEn), (['T', 'E', 'S', 'T', 'C', 'L', 'R'], cfg.testClr)]

/-- The names of the client's catalog fields (R251). The timeout fields have no names of their own in the spec. -/
def catalogSymbols (c : Client.Catalog) : Symbols :=
  [("VOP_SEL", c.vopSel), ("TXMODE_L0", c.txmodeL0), ("STOPEXIT_L0", c.stopexitL0), ("HSA", c.hsa), ("HBP", c.hbp),
    ("HLINE", c.hline), ("VSA", c.vsa), ("VBP", c.vbp), ("VFP", c.vfp), ("VACTIVE", c.vactive),
    ("POL_HSYNC_LOW", c.polHsyncLow), ("POL_VSYNC_LOW", c.polVsyncLow), ("POL_DE_LOW", c.polDeLow),
    ("POL_PIXCLK_NEG", c.polPixclkNeg), ("VID_MODE_TYPE", c.vidModeType), ("VID_PKT_SIZE", c.vidPktSize),
    ("DPI_COLOR_CODING", c.dpiColorCoding), ("LP_CMD_EN", c.lpCmdEn), ("LP_HFP_EN", c.lpHfpEn),
    ("LP_VACT_EN", c.lpVactEn), ("LP_VFP_EN", c.lpVfpEn), ("LP_VBP_EN", c.lpVbpEn), ("LP_VSA_EN", c.lpVsaEn),
    ("TX_ESC_CLK_DIV", c.txEscClkDiv), ("POWER_ON", c.powerOn), ("PHY_SHUTDOWN", c.phyShutdown),
    ("PHY_RESET", c.phyReset), ("LANE_COUNT", c.laneCount), ("PHY_ENABLECLK", c.phyEnableclk),
    ("PHY_FORCEPLL", c.phyForcepll)].map fun p => (p.1.toList, p.2)

/-- A blank between words. -/
def isBlank (c : Char) : Bool := c == ' ' || c == '\t' || c == '\r'

/-- The text without the blanks at its two ends. -/
def trim (cs : List Char) : List Char := ((cs.dropWhile isBlank).reverse.dropWhile isBlank).reverse

/-- The text cut at every `sep`, each piece trimmed. -/
def splitOn (sep : Char) (cs : List Char) : List (List Char) :=
  (cs.foldr (fun c acc =>
    if c = sep then [] :: acc
    else match acc with
      | piece :: rest => (c :: piece) :: rest
      | [] => [[c]]) [[]]).map trim

/-- The value of a digit in a base of at most 16. -/
def digitValue (base : Nat) (c : Char) : Option Nat :=
  let v := if '0' ≤ c ∧ c ≤ '9' then some (c.toNat - '0'.toNat)
    else if 'a' ≤ c ∧ c ≤ 'f' then some (c.toNat - 'a'.toNat + 10)
    else if 'A' ≤ c ∧ c ≤ 'F' then some (c.toNat - 'A'.toNat + 10)
    else none
  v.filter (· < base)

/-- The number of a non-empty digit string. -/
def digits (base : Nat) (cs : List Char) : Except AsmError Nat :=
  if cs.isEmpty then .error .badNumber
  else cs.foldl (fun acc c =>
    match acc, digitValue base c with
    | .ok n, some v => .ok (n * base + v)
    | _, _ => .error .badNumber) (.ok 0)

/-- A decimal number, or a hexadecimal one with `0x` (R115). -/
def plainNumber : List Char → Except AsmError Nat
  | '0' :: 'x' :: cs => digits 16 cs
  | cs => digits 10 cs

/-- `n` where it is at most `bound`. -/
def atMost (bound n : Nat) : Except AsmError Nat := if n ≤ bound then .ok n else .error .tooLarge

/-- A number of at most `bound`. -/
def number (bound : Nat) (cs : List Char) : Except AsmError Nat := (plainNumber cs).bind (atMost bound)

/-- A u32 operand. -/
def word (cs : List Char) : Except AsmError Word := (number (2 ^ 32 - 1) cs).map (BitVec.ofNat 32)

/-- A test code or a data byte. -/
def byte (cs : List Char) : Except AsmError Byte := (number 0xFF cs).map (BitVec.ofNat 8)

/-- A clock operand of SOLVE or FR_LOOKUP, which accepts `MHz` after the number (R115). -/
def clock (cs : List Char) : Except AsmError Word :=
  match cs.reverse with
  | 'z' :: 'H' :: 'M' :: rest =>
    ((plainNumber (trim rest.reverse)).bind fun n => atMost (2 ^ 32 - 1) (n * Const.mhz)).map (BitVec.ofNat 32)
  | _ => word cs

/-- `b<s>:<off>`, a base selector and a byte offset (R115). -/
def address (cs : List Char) : Except AsmError (BitVec 2 × Word) :=
  match splitOn ':' cs with
  | ['b' :: sel, off] =>
    (number 3 sel).bind fun s => (word off).map fun o => (BitVec.ofNat 2 s, o)
  | _ => .error .badOperands

/-- `<hi>:<lo>`, the field of bits `hi` down to `lo`: `BOFF = lo`, `WM1 = hi - lo` (R115). -/
def bitRange (cs : List Char) : Except AsmError (BitVec 5 × BitVec 5) :=
  match splitOn ':' cs with
  | [hi, lo] =>
    (plainNumber hi).bind fun h => (plainNumber lo).bind fun l =>
      if h < l ∨ 31 < h then .error .badRange else .ok (BitVec.ofNat 5 (h - l), BitVec.ofNat 5 l)
  | _ => .error .badOperands

/-- A field operand: `b<s>:<off>[<hi>:<lo>]`, or a name of the symbol table (R115). -/
def field (sym : Symbols) (cs : List Char) : Except AsmError Desc :=
  match splitOn '[' cs with
  | [addr, range] =>
    match range.reverse with
    | ']' :: rest =>
      (address addr).bind fun a => (bitRange rest.reverse).map fun r => ⟨a.1, a.2, r.1, r.2⟩
    | _ => .error .badOperands
  | [name] =>
    match sym.lookup name with
    | some d => .ok d
    | none => .error .unknownField
  | _ => .error .badOperands

/-- The data operands of `tw`, 1 to 255 of them (R115, R104). -/
def dataBytes (ops : List (List Char)) : Except AsmError (List Byte) :=
  if ops.isEmpty then .error .badOperands
  else if Const.nMax < ops.length then .error .tooManyBytes
  else ops.mapM byte

/-- `fw <field>, <value>`. A value wider than the field is encoded unchanged (R115). -/
def fw (d : Desc) (value : List Char) : Except AsmError (List Instr) :=
  (word value).map fun v => [.fieldWrite d v]

/-- `fbpush <code>, <fb>` (R116). -/
def fbpush (fbMarker : Nat) (code fb : List Char) : Except AsmError (List Instr) :=
  (byte code).bind fun c => (number (2 ^ 32 - 1) fb).bind fun n =>
    (atMost 0xFF ((n >>> 5) ||| (1 <<< fbMarker))).map fun hi =>
      [.testWrite c [BitVec.ofNat 8 (n &&& 0x1F)], .testWrite c [BitVec.ofNat 8 hi]]

/-- The commands of one mnemonic and its operands (R115, R116). -/
def command (cfg : Config) (sym : Symbols) (fbMarker : Nat) (mnemonic : List Char) (ops : List (List Char)) :
    Except AsmError (List Instr) :=
  match mnemonic, ops with
  | ['f', 'w'], [f, v] => (field sym f).bind fun d => fw d v
  | ['r', 'r'], [a] => (address a).map fun a => [.regRead a.1 a.2]
  | ['t', 'w'], code :: bytes =>
    (byte code).bind fun c => (dataBytes bytes).map fun bs => [.testWrite c bs]
  | ['s', 'o', 'l', 'v', 'e'], [r, t] =>
    (clock r).bind fun r => (clock t).map fun t => [.solve r t]
  | ['f', 'r', 'l'], [c] => (clock c).map fun c => [.frLookup c]
  | ['f', 's', 'e', 't'], [f] => (field sym f).map fun d => [.fieldWrite d (mask d.width)]
  | ['f', 'c', 'l', 'r'], [f] => (field sym f).map fun d => [.fieldWrite d 0]
  | ['t', 'c', 'l', 'k'], [v] => fw cfg.testClk v
  | ['t', 'd', 'i', 'n'], [v] => fw cfg.testDin v
  | ['t', 'e', 'n'], [v] => fw cfg.testEn v
  | ['t', 'c', 'l', 'r'], [v] => fw cfg.testClr v
  | ['t', 'c', 'l', 'r', '.', 'p', 'u', 'l', 's', 'e'], [] => .ok (Client.clearPulse cfg)
  | ['f', 'b', 'p', 'u', 's', 'h'], [c, n] => fbpush fbMarker c n
  | m, _ =>
    if m ∈ [['f', 'w'], ['r', 'r'], ['t', 'w'], ['s', 'o', 'l', 'v', 'e'], ['f', 'r', 'l'], ['f', 's', 'e', 't'],
        ['f', 'c', 'l', 'r'], ['t', 'c', 'l', 'k'], ['t', 'd', 'i', 'n'], ['t', 'e', 'n'], ['t', 'c', 'l', 'r'],
        ['t', 'c', 'l', 'r', '.', 'p', 'u', 'l', 's', 'e'], ['f', 'b', 'p', 'u', 's', 'h']]
    then .error .badOperands else .error .unknownMnemonic

/-- One line: at most one command, and `;` starts a comment (R115). -/
def assembleLine (cfg : Config) (sym : Symbols) (fbMarker : Nat) (line : List Char) :
    Except AsmError (List Instr) :=
  let text := trim (line.takeWhile (· ≠ ';'))
  if text.isEmpty then .ok []
  else
    let mnemonic := text.takeWhile (!isBlank ·)
    let rest := trim (text.dropWhile (!isBlank ·))
    command cfg sym fbMarker mnemonic (if rest.isEmpty then [] else splitOn ',' rest)

/-- A program text as the requests it stands for, each line's in order (R116). -/
def assemble (cfg : Config) (sym : Symbols) (fbMarker : Nat) (text : List Char) :
    Except AsmError (List (List Word)) :=
  ((splitOn '\n' text).mapM (assembleLine cfg sym fbMarker)).map fun is => is.flatten.map encode

end Sys2Proof.Asm
end

