-- ==== Sys2Proof/Safety.lean ====
section
/-! DEFINITION. What the claims take as premises and what every step keeps: the marks of 10_state.md R45, the boot
premises of 70_reset_and_hazards.md R324, and the invariants of the state. -/

namespace Sys2Proof.Machine

/-- The premise of every claim (R45): neither mark is set. -/
abbrev State.unmarked (s : State) : Prop := s.trx.trxFault = false ∧ s.refused = false

/-- The sequencer can start a command: a well-formed configuration (R37, R324 item 1) and IDLE (R32). -/
abbrev State.ready (s : State) : Prop := s.cfg.wf ∧ s.isIdle

/-- The clean start of a TEST_WRITE (R186, R324 item 4): `clr = 0`, and `clk = 1` or `en = 1`. -/
abbrev State.cleanStart (s : State) : Prop :=
  s.lines.clr = 0 ∧ (s.lines.clk = 1 ∨ s.lines.en = 1)

/-- RS is in canonical form and lists no address at or above `2^AW` (R38). -/
abbrev State.rsInv (s : State) : Prop := s.rs.wf ∧ ∀ c ∈ s.rs, c.1 < s.cfg.aw.size

/-- The receiver's count is 0 while no code is latched (R43, R180). -/
abbrev State.latchInv (s : State) : Prop := s.trx.codeLatch = none → s.trx.k = 0

/-- The receiver holds no code and no count while the clear is asserted, and its test registers are the clear's
or the power-on's; or the mark is set (R185, R46, R184). -/
abbrev State.clearInv (s : State) : Prop :=
  s.lines.clr = 1 → s.trx.trxFault = true ∨
    (s.trx.codeLatch = none ∧ s.trx.k = 0 ∧
      (s.trx.treg = s.cfg.tregDefault ∨ s.trx.treg = Vector.replicate 256 none))

/-- A field command that the sequencer is executing has passed its address checks (R71, R291). -/
def Seq.checked (cfg : Config) : Seq → Bool
  | .busy (.fieldWrite d _) => (addrCheck cfg d.bsel d.offset).isNone
  | .busy (.regRead bsel offset) => (addrCheck cfg bsel offset).isNone
  | _ => true

/-- The invariant of the machine: what every step keeps, from every state that has it. -/
abbrev State.Inv (s : State) : Prop :=
  s.cfg.wf ∧ s.seq.checked s.cfg = true ∧ s.rsInv ∧ s.latchInv ∧ s.clearInv

/-- An event, or a configuration, that the model refuses (R297): a request of `L = 0`; a configuration that fails a check
of R37; a request while the sequencer is BUSY; a write of RS by an agent other than TIBB. -/
abbrev State.inadmissible (s : State) : Prop :=
  s.inbox.head? = some (.request []) ∨ ¬s.cfg.wf ∨ (s.seq ≠ .idle ∧ ∃ ws, s.inbox.head? = some (.request ws)) ∨
    ∃ a v, s.inbox.head? = some (.foreignWrite a v)

/-- The state a refusal carries, with its mark set (R297, R45). -/
def Refusal.marked (r : Refusal) : Option State :=
  match r with
  | .emptyRequest t => some t
  | .illFormedConfig t => some t
  | .requestWhileBusy t => some t
  | .foreignWrite t => some t
  | .resetWhileBusy t => some t
  | _ => none

/-- The state after one more response, nothing else changed: what a command that fails, and one that makes no RS
access, leaves (R112, R292). -/
def State.answers (s : State) (r : List Word) : State := { s with outbox := s.outbox ++ [r] }

/-- The decode checks of the command with the opcode `op`: a request with that opcode that is ILLEGAL in the way `bad`
says is answered with status 0x01 alone, before any access (R111, R291). -/
def State.rejects (s : State) (op : Nat) (bad : Word → List Word → Prop) : Prop :=
  ∀ (header : Word) (body : List Word) (rest : List HostEvent), opNumber header = op → bad header body →
    step { s with inbox := .request (header :: body) :: rest } =
      .next (State.answers { s with inbox := rest } [0x00000001])

/-- RS after a history of accesses, in its order, where every read gave the word of that moment; `none` where one did
not (20_memory.md R81, R82). -/
def replay : List Access → Memory → Option Memory
  | [], m => some m
  | .read a v :: rest, m => if m.readWord a = v then replay rest m else none
  | .write a v :: rest, m => replay rest (m.writeWord a v)

/-- Commands executed one after another, each in the state the one before left; a stop ends the sequence. -/
def execSeq : List Instr → State → Host.Outcome State Fault Refusal
  | [], s => .next s
  | i :: is, s =>
    match exec i s with
    | .next t => execSeq is t
    | .fault f => .fault f
    | .refused r => .refused r

end Sys2Proof.Machine
end

