-- ==== Sys2Proof/Certificates/Slice0/Obligations.lean ====
section
/-! DEFINITION. The statements about the model, from the numbered rules of spec/. Each says which rule it formalises. -/

open Sys2Proof Sys2Proof.Machine

/-! ## Encoding (30_encoding.md) -/

/-- Decoding the words of a well-formed command gives the command back (formats F, R, T, S and L). -/
def Obligations.DecodeInvertsEncode : Prop :=
  ∀ i : Instr, i.wellFormed = true → decode (encode i) = .ok i

/-- A request that decodes is the encoding of a well-formed command, word for word. -/
def Obligations.EncodeInvertsDecode : Prop :=
  ∀ (ws : List Word) (i : Instr), decode ws = .ok i → i.wellFormed = true ∧ encode i = ws

/-- R113: every request is a legal command or ILLEGAL under R111, never both. -/
def Obligations.EveryRequestIsLegalOrIllegal : Prop :=
  ∀ (header : Word) (body : List Word),
    ((∃ i, i.wellFormed = true ∧ encode i = header :: body) ∨ isIllegal header body) ∧
    ¬((∃ i, i.wellFormed = true ∧ encode i = header :: body) ∧ isIllegal header body)

/-- R111: an ILLEGAL request is answered with status 0x01 alone, makes no RS access and changes no state. -/
def Obligations.IllegalRequestAnswersStatusOnly : Prop :=
  ∀ (s : State) (header : Word) (body : List Word) (rest : List HostEvent),
    s.ready → s.inbox = .request (header :: body) :: rest → isIllegal header body →
    step s = .next (State.answers { s with inbox := rest } [0x00000001])

/-- R117: the worked encodings, from text to words and back from words to commands, and the header that is ILLEGAL. -/
def Obligations.WorkedEncodings : Prop :=
  (∀ cfg : Config, ∀ sym fbMarker,
    Asm.assemble cfg sym fbMarker "fw b0:0x40[11:4], 0xA5".toList = .ok [[0x0000E401, 0x00000040, 0x000000A5]] ∧
    Asm.assemble cfg sym fbMarker "fw b0:0x0[31:0], 0xDEADBEEF".toList = .ok [[0x0003E001, 0x00000000, 0xDEADBEEF]] ∧
    Asm.assemble cfg sym fbMarker "fw b0:0x0[31:31], 1".toList = .ok [[0x00001F01, 0x00000000, 0x00000001]] ∧
    Asm.assemble cfg sym fbMarker "rr b1:0x440".toList = .ok [[0x00040002, 0x00000440]] ∧
    Asm.assemble cfg sym fbMarker "tw 0x10, 0x83".toList = .ok [[0x00011003, 0x00000083]] ∧
    Asm.assemble cfg sym fbMarker "tw 0xAB, 1, 2, 3, 4, 5".toList = .ok [[0x0005AB03, 0x04030201, 0x00000005]] ∧
    Asm.assemble cfg sym fbMarker "solve 24MHz, 1500MHz".toList = .ok [[0x00000004, 0x016E3600, 0x59682F00]] ∧
    Asm.assemble cfg sym fbMarker "frl 1500MHz".toList = .ok [[0x00000005, 0x59682F00]]) ∧
  decode [0x0000E401, 0x00000040, 0x000000A5] = .ok (.fieldWrite ⟨0, 0x40, 7, 4⟩ 0xA5) ∧
  decode [0x0003E001, 0x00000000, 0xDEADBEEF] = .ok (.fieldWrite ⟨0, 0, 31, 0⟩ 0xDEADBEEF) ∧
  decode [0x00001F01, 0x00000000, 0x00000001] = .ok (.fieldWrite ⟨0, 0, 0, 31⟩ 1) ∧
  decode [0x00040002, 0x00000440] = .ok (.regRead 1 0x440) ∧
  decode [0x00011003, 0x00000083] = .ok (.testWrite 0x10 [0x83]) ∧
  decode [0x0005AB03, 0x04030201, 0x00000005] = .ok (.testWrite 0xAB [1, 2, 3, 4, 5]) ∧
  decode [0x00000004, 0x016E3600, 0x59682F00] = .ok (.solve 24000000 1500000000) ∧
  decode [0x00000005, 0x59682F00] = .ok (.frLookup 1500000000) ∧
  (∀ offset value : Word, decode [0x00007E01, offset, value] = .error .fieldTooWide) ∧
  il4 0x00007E01

/-- R105: a TEST_WRITE of `N` data bytes has `1 + ceil_div(N, 4)` words. -/
def Obligations.TestWriteRequestLength : Prop :=
  (∀ (code : Byte) (data : List Byte), 1 ≤ data.length → data.length ≤ 255 →
    (encode (.testWrite code data)).length = 1 + ceilDiv data.length 4) ∧
  (∀ (header : Word) (body : List Word) (code : Byte) (data : List Byte),
    decode (header :: body) = .ok (.testWrite code data) →
    data.length = countNumber header ∧ body.length + 1 = 1 + ceilDiv (countNumber header) 4) ∧
  1 + ceilDiv 1 4 = 2 ∧ 1 + ceilDiv 4 4 = 2 ∧ 1 + ceilDiv 5 4 = 3 ∧ 1 + ceilDiv 255 4 = 65

/-- R106: data byte `i` of a decoded TEST_WRITE stands at bits `8*(i mod 4)+7 : 8*(i mod 4)` of word
`1 + (i div 4)`, the pad bytes are zero, and `data[0]` is the first byte pushed. -/
def Obligations.DataBytesPackLittleEndian : Prop :=
  ∀ (ws : List Word) (code : Byte) (data : List Byte), decode ws = .ok (.testWrite code data) →
    (∀ (i : Nat) (h : i < data.length),
      data[i] = (ws.getD (1 + i / 4) 0).extractLsb' (8 * (i % 4)) 8) ∧
    (∀ i, data.length ≤ i → i < 4 * (ws.length - 1) →
      (ws.getD (1 + i / 4) 0).extractLsb' (8 * (i % 4)) 8 = 0#8) ∧
    ∃ first, data[0]? = some first ∧
      (transferWrites code data)[6]? = some (.din, first.setWidth 32)

/-- R110: the descriptor codec is a bijection, `dh` holds `bsel`, `width - 1` and `boff` from the highest bit down, `dh`
is bits 19:8 of a Format F header, and a decoded descriptor is legal only within the word. -/
def Obligations.DescriptorCodecRoundTrip : Prop :=
  (∀ d : Desc, descDecode (descEncode d).1 (descEncode d).2 = d ∧
    (descEncode d).1.toNat = d.bsel.toNat * 2 ^ 10 + (d.width - 1) * 2 ^ 5 + d.boff.toNat ∧
    (descEncode d).2 = d.offset) ∧
  (∀ (dh : BitVec 12) (offset : Word), descEncode (descDecode dh offset) = (dh, offset)) ∧
  (∀ (d : Desc) (value : Word),
    ((encode (.fieldWrite d value)).getD 0 0).extractLsb' 8 12 = (descEncode d).1) ∧
  (∀ (ws : List Word) (d : Desc) (value : Word), decode ws = .ok (.fieldWrite d value) →
    d.boff.toNat + d.width ≤ 32)

/-- A step runs the decoded command: with a request that decodes to `i` first in the inbox, a step is `exec i` on the
state with that request taken. -/
def Obligations.StepRunsDecodedCommand : Prop :=
  ∀ (s : State) (ws : List Word) (rest : List HostEvent) (i : Instr),
    s.inbox = .request ws :: rest → decode ws = .ok i →
    step s = exec i { s with inbox := rest }

/-! ## The Register Field Codec (41_field_codec.md) -/

/-- R141: the field mask has exactly the bits `[boff, boff + width)`, and is the whole word for a width of 32. -/
def Obligations.FieldMaskBits : Prop :=
  ∀ d : Desc, d.wellFormed →
    d.fmask = mask d.width <<< d.boff.toNat ∧
    (∀ i, d.fmask.getLsbD i = true ↔ d.boff.toNat ≤ i ∧ i < d.boff.toNat + d.width) ∧
    (d.width = 32 → d.boff = 0 ∧ d.fmask = 0xFFFFFFFF)

/-- R142: FIELD_WRITE, clause by clause: OP 0x01; ILLEGAL (at decode too), EADDR, MISALIGNED in that order, each with no access; else one
read and one write of the word at `BASE[bsel] + offset`, with the field's bits the masked value's and every other bit the
read word's, the receiver observing the write, and OK; and the rule's example. -/
def Obligations.FieldWriteFollowsPseudocode : Prop :=
  (∀ (s : State) (d : Desc) (value : Word), s.ready →
    let a := s.cfg.base[d.bsel.toNat]'d.bsel.isLt + d.offset.toNat
    let w := s.rs.readWord a
    let w' := (w &&& ~~~(mask d.width <<< d.boff.toNat)) ||| ((value &&& mask d.width) <<< d.boff.toNat)
    let rs' := s.rs.writeWord a w'
    ((encode (.fieldWrite d value)).getD 0 0).extractLsb' 0 8 = 0x01#8 ∧
    s.rejects 1 (fun h b => il2 h ∨ il3 h (b.length + 1) ∨ il4 h) ∧
    (32 < d.boff.toNat + d.width → exec (.fieldWrite d value) s = .next (s.answers [0x00000001])) ∧
    (d.boff.toNat + d.width ≤ 32 → s.cfg.aw.size ≤ a →
      exec (.fieldWrite d value) s = .next (s.answers [0x00000002])) ∧
    (d.boff.toNat + d.width ≤ 32 → a < s.cfg.aw.size → a % 4 ≠ 0 →
      exec (.fieldWrite d value) s = .next (s.answers [0x00000003])) ∧
    (d.boff.toNat + d.width ≤ 32 → a < s.cfg.aw.size → a % 4 = 0 →
      exec (.fieldWrite d value) s = .next { s with
        rs := rs'
        trx := observe s.cfg (linesOf s.cfg s.rs) (linesOf s.cfg rs') s.trx
        trace := s.trace ++ [.read a w, .write a w']
        outbox := s.outbox ++ [[0x00000000]] })) ∧
  Desc.merge ⟨0, 0x40, 7, 4⟩ 0xFFFFFFFF 0x1A5 = 0xFFFFFA5F

/-- R144: after a FIELD_WRITE the field reads as the masked value. -/
def Obligations.FieldWriteRoundTrip : Prop :=
  ∀ (s : State) (d : Desc) (value : Word), s.ready → s.rs.wf → d.wellFormed →
    s.cfg.addr d < s.cfg.aw.size → s.cfg.addr d % 4 = 0 →
    ∃ t, exec (.fieldWrite d value) s = .next t ∧ t.outbox = s.outbox ++ [[0x00000000]] ∧
      d.fieldval (t.rs.readWord (s.cfg.addr d)) = value &&& mask d.width

/-- R145: a FIELD_WRITE changes only its field's bits of its word; every other word and byte of RS, the configuration, the
mark `refused` and the inbox are unchanged, and the receiver too where no line level changes and the clear is low. -/
def Obligations.FieldWriteFrame : Prop :=
  ∀ (s : State) (d : Desc) (value : Word), s.ready → s.rs.wf → d.wellFormed →
    s.cfg.addr d < s.cfg.aw.size → s.cfg.addr d % 4 = 0 →
    ∃ t, exec (.fieldWrite d value) s = .next t ∧
      t.rs.readWord (s.cfg.addr d) &&& ~~~d.fmask = s.rs.readWord (s.cfg.addr d) &&& ~~~d.fmask ∧
      (∀ b, b % 4 = 0 → b ≠ s.cfg.addr d → t.rs.readWord b = s.rs.readWord b) ∧
      (∀ b, b < s.cfg.addr d ∨ s.cfg.addr d + 4 ≤ b → t.rs.readByte b = s.rs.readByte b) ∧
      t.cfg = s.cfg ∧ t.seq = s.seq ∧ t.refused = s.refused ∧ t.inbox = s.inbox ∧
      (t.lines = s.lines → s.lines.clr = 0 → t.trx = s.trx)

/-- R146: of two FIELD_WRITEs to one word the second reads what the first wrote; fields that share no bit both hold their
values, in either order; where they overlap the later write's bits win. -/
def Obligations.FieldWritesCompose : Prop :=
  ∀ (s : State) (d1 d2 : Desc) (v1 v2 : Word), s.ready → s.rs.wf → d1.wellFormed → d2.wellFormed →
    s.cfg.addr d1 < s.cfg.aw.size → s.cfg.addr d1 % 4 = 0 → s.cfg.addr d2 = s.cfg.addr d1 →
    ∃ t u t' u',
      exec (.fieldWrite d1 v1) s = .next t ∧ exec (.fieldWrite d2 v2) t = .next u ∧
      exec (.fieldWrite d2 v2) s = .next t' ∧ exec (.fieldWrite d1 v1) t' = .next u' ∧
      (let a := s.cfg.addr d1
       let written := d1.merge (s.rs.readWord a) v1
       let final := u.rs.readWord a
       t.rs.readWord a = written ∧
       u.trace = t.trace ++ [.read a written, .write a final] ∧
       d2.fieldval final = v2 &&& mask d2.width ∧
       (∀ i, d1.boff.toNat ≤ i → i < d1.boff.toNat + d1.width →
         (i < d2.boff.toNat ∨ d2.boff.toNat + d2.width ≤ i) →
         final.getLsbD i = v1.getLsbD (i - d1.boff.toNat)) ∧
       (d1.fmask &&& d2.fmask = 0 →
         d1.fieldval final = v1 &&& mask d1.width ∧ u'.rs.readWord a = final))

/-- A FIELD_WRITE repeated straight away changes neither RS nor a line level nor the receiver, under the premise every claim
takes, that no receiver fault is marked (assumption log 12). -/
def Obligations.RepeatedFieldWriteChangesNothing : Prop :=
  ∀ (s t : State) (d : Desc) (value : Word), s.ready → s.rs.wf → d.wellFormed →
    s.cfg.addr d < s.cfg.aw.size → s.cfg.addr d % 4 = 0 →
    exec (.fieldWrite d value) s = .next t → t.trx.trxFault = false →
    ∃ u, exec (.fieldWrite d value) t = .next u ∧ u.rs = t.rs ∧ u.lines = t.lines ∧ u.trx = t.trx

/-- R148: a FIELD_WRITE that passes its checks makes exactly two accesses, the read and then the write of its word; one that
fails a check makes none. -/
def Obligations.FieldWriteAccessTrace : Prop :=
  ∀ (s : State) (d : Desc) (value : Word), s.ready →
    let a := s.cfg.addr d
    (d.wellFormed → a < s.cfg.aw.size → a % 4 = 0 →
      ∃ t, exec (.fieldWrite d value) s = .next t ∧
        t.trace = s.trace ++ [.read a (s.rs.readWord a), .write a (d.merge (s.rs.readWord a) value)]) ∧
    (¬(d.wellFormed ∧ a < s.cfg.aw.size ∧ a % 4 = 0) →
      ∃ t, exec (.fieldWrite d value) s = .next t ∧ t.trace = s.trace)

/-- R150: REG_READ, clause by clause: OP 0x02; ILLEGAL at decode; EADDR, then MISALIGNED, each before the read; else the word read and nothing
changed but the record of accesses; and, through the exact word, the rule's example. -/
def Obligations.RegReadFollowsPseudocode : Prop :=
  ∀ (s : State) (bsel : BitVec 2) (offset : Word), s.ready →
    let a := s.cfg.base[bsel.toNat]'bsel.isLt + offset.toNat
    ((encode (.regRead bsel offset)).getD 0 0).extractLsb' 0 8 = 0x02#8 ∧
    s.rejects 2 (fun h b => il2 h ∨ il3 h (b.length + 1)) ∧
    (s.cfg.aw.size ≤ a → exec (.regRead bsel offset) s = .next (s.answers [0x00000002])) ∧
    (a < s.cfg.aw.size → a % 4 ≠ 0 → exec (.regRead bsel offset) s = .next (s.answers [0x00000003])) ∧
    (a < s.cfg.aw.size → a % 4 = 0 →
      exec (.regRead bsel offset) s = .next { s with
        trace := s.trace ++ [.read a (s.rs.readWord a)]
        outbox := s.outbox ++ [[0x00000000, s.rs.readWord a]] }) ∧
    (bsel = 0 → offset = 0x40 → a < s.cfg.aw.size → a % 4 = 0 → s.rs.readWord a = 0xFFFFFFFF → s.rs.wf →
      ∃ t u, exec (.fieldWrite ⟨0, 0x40, 7, 4⟩ 0x1A5) s = .next t ∧ exec (.regRead bsel offset) t = .next u ∧
        u.outbox = t.outbox ++ [[0x00000000, 0xFFFFFA5F]])

/-- R71: the effective address is the exact sum, for any u32 offset; at or above `2^AW` the status is EADDR, else not a
multiple of 4 it is MISALIGNED, for REG_READ and for every legal FIELD_WRITE. -/
def Obligations.EffectiveAddressChecks : Prop :=
  ∀ (s : State) (d : Desc) (value : Word), s.ready → d.wellFormed →
    let ea := s.cfg.base[d.bsel.toNat]'d.bsel.isLt + d.offset.toNat
    (s.cfg.aw.size ≤ ea →
      exec (.regRead d.bsel d.offset) s = .next (s.answers [0x00000002]) ∧
      exec (.fieldWrite d value) s = .next (s.answers [0x00000002])) ∧
    (ea < s.cfg.aw.size → ea % 4 ≠ 0 →
      exec (.regRead d.bsel d.offset) s = .next (s.answers [0x00000003]) ∧
      exec (.fieldWrite d value) s = .next (s.answers [0x00000003])) ∧
    (ea < s.cfg.aw.size → ea % 4 = 0 →
      (∃ t, exec (.regRead d.bsel d.offset) s = .next t ∧
        t.outbox = s.outbox ++ [[0x00000000, s.rs.readWord ea]]) ∧
      ∃ t, exec (.fieldWrite d value) s = .next t ∧ t.outbox = s.outbox ++ [[0x00000000]])

/-! ## The Test-Interface Bit-banger and the receiver (42_test_interface.md) -/

/-- TEST_WRITE as `exec` takes it: its phase machine (R172) is the straight list of FieldWrites and then OK; it fails only as
ILLEGAL, before any access; and the example. That an `Instr` term of more than 255 data bytes, which no request encodes, or of
none, answers ILLEGAL in `exec` is the model's choice (assumption log 15). `TestWriteRequestFollowsPseudocode` says what R170
says of requests. -/
def Obligations.TestWriteFollowsPseudocode : Prop :=
  (∀ (s : State) (code : Byte) (data : List Byte), s.ready →
    ((encode (.testWrite code data)).getD 0 0).extractLsb' 0 8 = 0x03#8 ∧
    s.rejects 3 (fun h b => il2 h ∨ il3 h (b.length + 1) ∨ il5 h ∨ il6 h b) ∧
    (data.length < 1 ∨ 255 < data.length → exec (.testWrite code data) s = .next (s.answers [0x00000001])) ∧
    (1 ≤ data.length → data.length ≤ 255 →
      exec (.testWrite code data) s =
        .next ((writeLines (transferWrites code data) s).answers [0x00000000]))) ∧
  transferWrites 0x10 [0x83] =
    [(.clk, 1), (.din, 0x10), (.en, 1), (.clk, 0), (.en, 0), (.clk, 0), (.din, 0x83), (.clk, 1)]

/-- R173: a TEST_WRITE makes exactly `2 * (5 + 3N)` RS accesses: for each FieldWrite of the phase order a read of the line's
word, then a write of the same word. -/
def Obligations.TestWriteAccessTrace : Prop :=
  (∀ (s : State) (code : Byte) (data : List Byte), s.ready → 1 ≤ data.length → data.length ≤ 255 →
    ∃ t acc, exec (.testWrite code data) s = .next t ∧ t.trace = s.trace ++ acc ∧
      acc.length = 2 * (5 + 3 * data.length) ∧
      (transferWrites code data).length = 5 + 3 * data.length ∧
      ∀ j l v, (transferWrites code data)[j]? = some (l, v) →
        ∃ w, acc[2 * j]? = some (.read (s.cfg.addr (lineDesc s.cfg l)) w) ∧
          acc[2 * j + 1]? = some (.write (s.cfg.addr (lineDesc s.cfg l)) ((lineDesc s.cfg l).merge w v))) ∧
  2 * (5 + 3 * 1) = 16 ∧ 2 * (5 + 3 * 255) = 1540

/-- R175: the line levels after each FieldWrite of a TEST_WRITE, by the rule's table. -/
def Obligations.LevelsDuringTestWrite : Prop :=
  ∀ (s : State) (code : Byte) (data : List Byte), s.cfg.wf → s.rs.wf →
    let after := fun j => (writeLines ((transferWrites code data).take j) s).lines
    let s0 := s.lines
    after 0 = s0 ∧
    after 1 = { s0 with clk := 1 } ∧
    after 2 = { s0 with clk := 1, din := code } ∧
    after 3 = { s0 with clk := 1, din := code, en := 1 } ∧
    after 4 = { s0 with clk := 0, din := code, en := 1 } ∧
    after 5 = { s0 with clk := 0, din := code, en := 0 } ∧
    ∀ (i : Nat) (h : i < data.length),
      after (5 + 3 * i + 1) = { s0 with clk := 0, din := (code :: data)[i]'(by simp; omega), en := 0 } ∧
      after (5 + 3 * i + 2) = { s0 with clk := 0, din := data[i], en := 0 } ∧
      after (5 + 3 * i + 3) = { s0 with clk := 1, din := data[i], en := 0 }

/-- R174: after a TEST_WRITE `clk = 1`, `en = 0`, `din` is the last data byte, `clr` is unchanged, and so is every bit of every
word that lies in none of the three fields it drives. -/
def Obligations.LevelsAfterTestWrite : Prop :=
  ∀ (s : State) (code : Byte) (data : List Byte) (last : Byte), s.ready → s.rs.wf → data.length ≤ 255 →
    data.getLast? = some last →
    ∃ t, exec (.testWrite code data) s = .next t ∧
      t.lines = { clk := 1, din := last, en := 0, clr := s.lines.clr } ∧
      ∀ a i, a % 4 = 0 → i < 32 →
        (∀ l, l ≠ .clr → a = s.cfg.addr (lineDesc s.cfg l) →
          i < (lineDesc s.cfg l).boff.toNat ∨ (lineDesc s.cfg l).boff.toNat + (lineDesc s.cfg l).width ≤ i) →
        (t.rs.readWord a).getLsbD i = (s.rs.readWord a).getLsbD i

/-- A TEST_WRITE's frame: no byte of RS outside the words of `test_clk`, `test_data_in` and `test_enable` changes, nor does
the configuration, the mark `refused` or the inbox; the outbox gains one response, OK alone. -/
def Obligations.TestWriteFrame : Prop :=
  ∀ (s : State) (code : Byte) (data : List Byte), s.ready → 1 ≤ data.length → data.length ≤ 255 →
    ∃ t, exec (.testWrite code data) s = .next t ∧
      (∀ b, (∀ l, l ≠ .clr →
          b < s.cfg.addr (lineDesc s.cfg l) ∨ s.cfg.addr (lineDesc s.cfg l) + 4 ≤ b) →
        t.rs.readByte b = s.rs.readByte b) ∧
      t.cfg = s.cfg ∧ t.seq = s.seq ∧ t.refused = s.refused ∧ t.inbox = s.inbox ∧
      t.outbox = s.outbox ++ [[0x00000000]]

/-- R186: the outcome of one TEST_WRITE from a clean start, under SAME and under INCR, whatever code was latched before. -/
def Obligations.TestWriteOutcome : Prop :=
  ∀ (s : State) (code : Byte) (data : List Byte) (last : Byte), s.ready → s.rs.wf → data.length ≤ 255 →
    data.getLast? = some last → s.cleanStart → s.trx.trxFault = false →
    ∃ t, exec (.testWrite code data) s = .next t ∧ t.outbox = s.outbox ++ [[0x00000000]] ∧
      t.trx.codeLatch = some code ∧ t.trx.k.toNat = data.length % 256 ∧ t.trx.trxFault = false ∧
      (s.cfg.multiByte = .same → ∀ a : Byte,
        t.trx.treg[a.toNat]'a.isLt = if a = code then some last else s.trx.treg[a.toNat]'a.isLt) ∧
      (s.cfg.multiByte = .incr →
        (∀ (i : Nat) (h : i < data.length),
          t.trx.treg[(code.toNat + i) % 256]'(Nat.mod_lt _ (by decide)) = some data[i]) ∧
        ∀ a : Byte, (∀ i, i < data.length → a.toNat ≠ (code.toNat + i) % 256) →
          t.trx.treg[a.toNat]'a.isLt = s.trx.treg[a.toNat]'a.isLt)

/-- R187: a TEST_WRITE leaves `clk = 1`, so the next one's C1 makes no edge and starts clean; a sequence of TEST_WRITEs after a
clean start writes its bytes in order, each as R186 gives. -/
def Obligations.BackToBackTransfers : Prop :=
  ∀ (s : State) (transfers : List (Byte × List Byte)), s.ready → s.rs.wf → s.cleanStart → s.trx.trxFault = false →
    (∀ p ∈ transfers, 1 ≤ p.2.length ∧ p.2.length ≤ 255) →
    ∃ t, execSeq (transfers.map fun p => .testWrite p.1 p.2) s = .next t ∧
      t.ready ∧ t.cleanStart ∧ t.trx.trxFault = false ∧
      (transfers ≠ [] → t.lines.clk = 1 ∧ (fieldWrite (lineDesc t.cfg .clk) 1 t).lines = t.lines) ∧
      t.trx.treg = transfers.foldl (fun treg p => captureAll s.cfg.multiByte p.1 0 p.2 treg) s.trx.treg

/-- R331: a TEST_WRITE entered with `clk = 0`, `en = 0` and `clr = 0` first captures the stale `din`: with no code latched that
sets the mark, else it writes the test register of the latched code and count; then the transfer goes on normally. -/
def Obligations.StaleCaptureOnEntry : Prop :=
  ∀ (s : State) (code : Byte) (data : List Byte), s.ready → s.rs.wf → 1 ≤ data.length → data.length ≤ 255 →
    s.lines.clk = 0 → s.lines.en = 0 → s.lines.clr = 0 →
    ∃ t, exec (.testWrite code data) s = .next t ∧
      t.trx.codeLatch = some code ∧ t.trx.k.toNat = data.length ∧
      (s.trx.codeLatch = none →
        t.trx.trxFault = true ∧ t.trx.treg = captureAll s.cfg.multiByte code 0 data s.trx.treg) ∧
      ∀ latched, s.trx.codeLatch = some latched →
        t.trx.trxFault = s.trx.trxFault ∧
        t.trx.treg = captureAll s.cfg.multiByte code 0 data
          (s.trx.treg.set (captureAddr s.cfg.multiByte latched s.trx.k).toNat (some s.lines.din)
            (captureAddr s.cfg.multiByte latched s.trx.k).isLt)

/-- A TEST_WRITE under an asserted clear reports OK and leaves the receiver cleared, so that test registers the clear holds
are unchanged (42_test_interface.md section 2, the clear; 70_reset_and_hazards.md section 3). -/
def Obligations.ClearHeldVoidsTransfer : Prop :=
  ∀ (s : State) (code : Byte) (data : List Byte), s.ready → s.rs.wf → 1 ≤ data.length → data.length ≤ 255 →
    s.lines.clr = 1 →
    ∃ t, exec (.testWrite code data) s = .next t ∧ t.outbox = s.outbox ++ [[0x00000000]] ∧
      t.trx = s.trx.cleared s.cfg ∧ (s.trx.treg = s.cfg.tregDefault → t.trx.treg = s.trx.treg)

/-- A TEST_WRITE sets the receiver's fault mark only through the stale capture on entry: no write of its own changes two
lines. -/
def Obligations.TestWriteFaultsOnlyOnStaleEntry : Prop :=
  ∀ (s t : State) (code : Byte) (data : List Byte), s.rs.wf → exec (.testWrite code data) s = .next t →
    t.trx.trxFault = true →
    s.trx.trxFault = true ∨
      (s.lines.clk = 0 ∧ s.lines.en = 0 ∧ s.lines.clr = 0 ∧ s.trx.codeLatch = none)

/-- R332: a host FIELD_WRITE to a line is a protocol step, and none is refused: with the clear low, `test_clk` 1 to 0 with
`en = 1` latches `din` as a code and 0 to 1 with `en = 0` writes `din` as data, and any write that changes `test_clk` with
another line sets the mark. A FIELD_WRITE to `test_clk` itself moves no other line. -/
def Obligations.HostLineWritesAreProtocolSteps : Prop :=
  ∀ (s : State) (d : Desc) (value : Word), s.ready → s.rs.wf → d.wellFormed →
    s.cfg.addr d < s.cfg.aw.size → s.cfg.addr d % 4 = 0 →
    ∃ t, exec (.fieldWrite d value) s = .next t ∧ t.outbox = s.outbox ++ [[0x00000000]] ∧
      (d = s.cfg.testClk → t.lines = { s.lines with clk := value.setWidth 1 }) ∧
      (s.lines.clk = 1 → t.lines = { s.lines with clk := 0 } → s.lines.en = 1 → s.lines.clr = 0 →
        t.trx = { s.trx with codeLatch := some s.lines.din, k := 0 }) ∧
      (∀ code, s.lines.clk = 0 → t.lines = { s.lines with clk := 1 } → s.lines.en = 0 → s.lines.clr = 0 →
        s.trx.codeLatch = some code →
        t.trx = { s.trx with
          treg := s.trx.treg.set (captureAddr s.cfg.multiByte code s.trx.k).toNat (some s.lines.din)
            (captureAddr s.cfg.multiByte code s.trx.k).isLt
          k := s.trx.k + 1 }) ∧
      (t.lines.clk ≠ s.lines.clk →
        (t.lines.en ≠ s.lines.en ∨ t.lines.clr ≠ s.lines.clr ∨ t.lines.din ≠ s.lines.din) →
        t.trx.trxFault = true)

/-- R180: the receiver's reaction to any RS write, branch by branch on the levels before and after it; a write that changes
no line level clears the receiver where the clear is asserted and does nothing otherwise. -/
def Obligations.ReceiverFollowsTrxObserve : Prop :=
  ∀ (s : State) (a : Nat) (v : Word),
    let old := s.lines
    let new := (rsWrite a v s).lines
    let r := s.trx
    let r' := (rsWrite a v s).trx
    let two := old.clk ≠ new.clk ∧ (old.en ≠ new.en ∨ old.clr ≠ new.clr ∨ old.din ≠ new.din)
    let fall := old.clk = 1 ∧ new.clk = 0 ∧ new.en = 1
    let rise := old.clk = 0 ∧ new.clk = 1 ∧ new.en = 0
    (two → r' = { r with trxFault := true }) ∧
    (¬two → new.clr = 1 → r' = { r with codeLatch := none, k := 0, treg := s.cfg.tregDefault }) ∧
    (¬two → new.clr ≠ 1 → fall → r' = { r with codeLatch := some new.din, k := 0 }) ∧
    (¬two → new.clr ≠ 1 → rise → r.codeLatch = none → r' = { r with trxFault := true }) ∧
    (∀ code, ¬two → new.clr ≠ 1 → rise → r.codeLatch = some code →
      r'.k = BitVec.ofNat 8 ((r.k.toNat + 1) % 256) ∧ r'.codeLatch = r.codeLatch ∧ r'.trxFault = r.trxFault ∧
      (s.cfg.multiByte = .same → r'.treg = r.treg.set code.toNat (some new.din) code.isLt) ∧
      (s.cfg.multiByte = .incr →
        r'.treg = r.treg.set ((code.toNat + r.k.toNat) % 256) (some new.din) (Nat.mod_lt _ (by decide)))) ∧
    (¬two → new.clr ≠ 1 → ¬fall → ¬rise → r' = r) ∧
    (new = old → (new.clr = 1 → r' = r.cleared s.cfg) ∧ (new.clr ≠ 1 → r' = r))

/-- The receiver's fault mark is set by an RS write in exactly two cases: a data capture with no code latched, and a write
that changes `test_clk` and another line (42_test_interface.md, the receiver faults). -/
def Obligations.ReceiverFaultCases : Prop :=
  ∀ (s : State) (a : Nat) (v : Word), s.trx.trxFault = false →
    let old := s.lines
    let new := (rsWrite a v s).lines
    ((rsWrite a v s).trx.trxFault = true ↔
      (s.trx.codeLatch = none ∧ new = { old with clk := 1 } ∧ old.clk = 0 ∧ new.en = 0 ∧ new.clr = 0) ∨
      (old.clk ≠ new.clk ∧ (old.en ≠ new.en ∨ old.clr ≠ new.clr ∨ old.din ≠ new.din)))

/-- R183: the non-events. With the clear low after it, a write that raises `test_clk` alone with `test_enable = 1`, lowers it
alone with `test_enable = 0`, changes `test_data_in` or `test_enable` alone, or only releases the clear, changes no receiver
state. -/
def Obligations.NonEventsLeaveTheReceiver : Prop :=
  ∀ (s : State) (a : Nat) (v : Word),
    let old := s.lines
    let new := (rsWrite a v s).lines
    new.clr = 0 →
    ((old.clk = 0 ∧ new = { old with clk := 1 } ∧ new.en = 1) ∨
     (old.clk = 1 ∧ new = { old with clk := 0 } ∧ new.en = 0) ∨
     new = { old with din := new.din } ∨
     new = { old with en := new.en } ∨
     (old.clr = 1 ∧ new = { old with clr := 0 })) →
    (rsWrite a v s).trx = s.trx

/-! ## The Divider Solver (43_divider_solver.md) -/

/-- R210: SOLVE, clause by clause: OP 0x04; ILLEGAL at decode; EINVAL_REFCLK where no pre-divider range exists; EINVAL_NOCAND where the scan
accepts no candidate; else the divider pair with the smallest remainder, the earliest among equals, and the achieved clock;
nothing changes but the response; and the rule's example. -/
def Obligations.SolveFollowsPseudocode : Prop :=
  ∀ (s : State) (ref target : Word), s.ready →
    let r := ref.toNat
    let t := target.toNat
    let minP := max 1 (ceilDiv r 40000000)
    let maxP := r / 5000000
    let ok := fun p => minP ≤ p ∧ p < maxP ∧ 1 ≤ t * p / r ∧ t * p / r < 512
    ((encode (.solve ref target)).getD 0 0).extractLsb' 0 8 = 0x04#8 ∧
    s.rejects 4 (fun h b => il2 h ∨ il3 h (b.length + 1)) ∧
    (maxP < minP → exec (.solve ref target) s = .next (s.answers [0x00000010])) ∧
    (minP ≤ maxP → (∀ p, ¬ok p) → exec (.solve ref target) s = .next (s.answers [0x00000011])) ∧
    (minP ≤ maxP → (∃ p, ok p) →
      ∃ p, ok p ∧ (∀ q, ok q → t * p % r ≤ t * q % r) ∧ (∀ q, ok q → q < p → t * p % r < t * q % r) ∧
        exec (.solve ref target) s = .next (s.answers
          [0x00000000, BitVec.ofNat 32 p, BitVec.ofNat 32 (t * p / r), BitVec.ofNat 32 (r * (t * p / r) / p)])) ∧
    (r = 24000000 → t = 1500000000 →
      exec (.solve ref target) s = .next (s.answers [0x00000000, 2, 125, 1500000000]))

/-- R211: `min_p = max(1, ceil(ref / 40 MHz))` and `max_p = floor(ref / 5 MHz)` bound exactly the pre-dividers for which
`ref / pre_div` lies in `[5 MHz, 40 MHz]`; SOLVE fails with EINVAL_REFCLK where `max_p < min_p`, and so for every reference
clock below 5 MHz. -/
def Obligations.PreDividerRange : Prop :=
  ∀ (s : State) (ref target : Word), s.ready →
    (∀ p, 1 ≤ p → (minPreDiv ref.toNat ≤ p ∧ p ≤ maxPreDiv ref.toNat ↔
      5000000 * p ≤ ref.toNat ∧ ref.toNat ≤ 40000000 * p)) ∧
    minPreDiv ref.toNat = max 1 (ceilDiv ref.toNat 40000000) ∧ maxPreDiv ref.toNat = ref.toNat / 5000000 ∧
    (maxPreDiv ref.toNat < minPreDiv ref.toNat →
      exec (.solve ref target) s = .next (s.answers [0x00000010])) ∧
    (ref.toNat < 5000000 →
      maxPreDiv ref.toNat = 0 ∧ exec (.solve ref target) s = .next (s.answers [0x00000010]))

/-- R214: SOLVE fails with EINVAL_NOCAND where the half-open range is empty (`max_p = min_p`), and where every candidate has
`fb >= 512` or `fb = 0`; with u32 operands a non-empty range is rejected whole only by `fb = 0`. -/
def Obligations.SolveNoCandidate : Prop :=
  ∀ (s : State) (ref target : Word), s.ready →
    (maxPreDiv ref.toNat = minPreDiv ref.toNat →
      exec (.solve ref target) s = .next (s.answers [0x00000011])) ∧
    (minPreDiv ref.toNat ≤ maxPreDiv ref.toNat →
      (∀ p, candidateRange ref.toNat p →
        512 ≤ feedbackDiv ref.toNat target.toNat p ∨ feedbackDiv ref.toNat target.toNat p = 0) →
      exec (.solve ref target) s = .next (s.answers [0x00000011]) ∧
      ∀ p, candidateRange ref.toNat p → feedbackDiv ref.toNat target.toNat p = 0)

/-- What a solution satisfies (43_divider_solver.md, the properties after the corner cases): the bounds on both dividers, the
quotient's bounds, the division identity with the least remainder, and an achieved clock at most the target. -/
def Obligations.SolveSolutionProperties : Prop :=
  ∀ (s t : State) (ref target pre fb ach : Word), exec (.solve ref target) s = .next t →
    t.outbox = s.outbox ++ [[0x00000000, pre, fb, ach]] →
    1 ≤ fb.toNat ∧ fb.toNat < 512 ∧
    minPreDiv ref.toNat ≤ pre.toNat ∧ pre.toNat ≤ maxPreDiv ref.toNat - 1 ∧
    5000000 * pre.toNat < ref.toNat ∧ ref.toNat ≤ 40000000 * pre.toNat ∧
    target.toNat * pre.toNat = fb.toNat * ref.toNat + remainder ref.toNat target.toNat pre.toNat ∧
    isBestPreDiv ref.toNat target.toNat pre.toNat ∧
    ach.toNat = ref.toNat * fb.toNat / pre.toNat ∧ ach.toNat ≤ target.toNat

/-- The datapath widths of 43_divider_solver.md are enough: every value of a SOLVE on u32 operands fits them. -/
def Obligations.SolveDatapathWidths : Prop :=
  ∀ ref target : Word,
    minPreDiv ref.toNat ≤ 108 ∧ maxPreDiv ref.toNat ≤ 858 ∧
    ∀ p, candidateRange ref.toNat p →
      p ≤ 857 ∧ target.toNat * p < 2 ^ 42 ∧ remainder ref.toNat target.toNat p < ref.toNat ∧
      (acceptable ref.toNat target.toNat p →
        ref.toNat * feedbackDiv ref.toNat target.toNat p < 2 ^ 41 ∧
        achievedClk ref.toNat (feedbackDiv ref.toNat target.toNat p) p ≤ target.toNat)

/-- The upper bound never empties a non-empty scan: the first candidate's feedback divider is at most 429, so that a scan
of u32 operands accepts nothing exactly when `target * (max_p - 1) < ref`. -/
def Obligations.UpperBoundNeverEmptiesScan : Prop :=
  ∀ ref target : Word, minPreDiv ref.toNat < maxPreDiv ref.toNat →
    10000000 ≤ ref.toNat ∧ feedbackDiv ref.toNat target.toNat (minPreDiv ref.toNat) ≤ 429 ∧
    ((∀ p, candidateRange ref.toNat p → ¬acceptable ref.toNat target.toNat p) ↔
      target.toNat * (maxPreDiv ref.toNat - 1) < ref.toNat)

/-- SOLVE reads no state: in any two ready states the same operands get the same response, and nothing else changes. -/
def Obligations.SolveReadsNoState : Prop :=
  ∀ (ref target : Word), ∃ r : List Word, ∀ s : State, s.ready →
    exec (.solve ref target) s = .next (s.answers r)

/-- R220: FR_LOOKUP: OP 0x05; ILLEGAL at decode; OK with the code and the index of the last entry whose threshold is at most `clk div 1 000 000`,
ENORANGE where none is, nothing changed but the response; and the rule's example on its illustrative table. -/
def Obligations.FrLookupFollowsPseudocode : Prop :=
  ∀ (s : State) (clk : Word), s.ready →
    ((encode (.frLookup clk)).getD 0 0).extractLsb' 0 8 = 0x05#8 ∧
    s.rejects 5 (fun h b => il2 h ∨ il3 h (b.length + 1)) ∧
    (∀ (m : Nat) (e : FrEntry), s.cfg.frTable[m]? = some e → e.thrMhz.toNat ≤ clk.toNat / 1000000 →
      (∀ j e', m < j → s.cfg.frTable[j]? = some e' → ¬e'.thrMhz.toNat ≤ clk.toNat / 1000000) →
      exec (.frLookup clk) s =
        .next (s.answers [0x00000000, e.code.setWidth 32, BitVec.ofNat 32 m])) ∧
    ((∀ e ∈ s.cfg.frTable, ¬e.thrMhz.toNat ≤ clk.toNat / 1000000) →
      exec (.frLookup clk) s = .next (s.answers [0x00000012])) ∧
    (s.cfg.frTable = Config.illustrative.frTable → clk = 1500000000 →
      exec (.frLookup clk) s = .next (s.answers [0x00000000, 0x2F, 6]))

/-- FR_LOOKUP on a table in ascending order of thresholds: the chosen entry has the largest threshold at most the clock, and
the later index of equal ones; the floor of the clock in MHz loses nothing. -/
def Obligations.FrLookupOnSortedTable : Prop :=
  ∀ (s : State) (clk : Word) (m : Nat) (e : FrEntry), s.ready →
    (s.cfg.frTable.Pairwise fun x y => x.thrMhz.toNat ≤ y.thrMhz.toNat) →
    s.cfg.frTable[m]? = some e →
    exec (.frLookup clk) s = .next (s.answers [0x00000000, e.code.setWidth 32, BitVec.ofNat 32 m]) →
    e.thrMhz.toNat * 1000000 ≤ clk.toNat ∧
    ∀ j e', s.cfg.frTable[j]? = some e' → e'.thrMhz.toNat * 1000000 ≤ clk.toNat →
      e'.thrMhz.toNat ≤ e.thrMhz.toNat ∧ (e'.thrMhz = e.thrMhz → j ≤ m)

/-! ## Statuses, refusals and the whole machine (10_state.md, 60_exceptions.md, 70_reset_and_hazards.md) -/

/-- R292: a request that ends with a non-OK status is answered with the status alone, leaves the sequencer IDLE, makes no RS
access, and changes no RS word, no line level, no receiver state and no configuration. -/
def Obligations.FailedCommandsArePrecise : Prop :=
  ∀ (s t : State) (ws : List Word) (rest : List HostEvent) (status : Word) (results : List Word),
    s.inbox = .request ws :: rest → step s = .next t → t.outbox = s.outbox ++ [status :: results] →
    status ≠ 0x00000000 →
    results = [] ∧ t.seq = .idle ∧ t = State.answers { s with inbox := rest } [status]

/-- R81: the RS accesses of a step that is no reset stand in one order at the end of the history, and in that order every
read gives the word the writes before it left, so that replaying them takes RS before the step to RS after it. -/
def Obligations.AccessesAreSequentiallyConsistent : Prop :=
  ∀ s t : State, (∀ r rest, s.inbox ≠ .reset r :: rest) → step s = .next t →
    ∃ accesses, t.trace = s.trace ++ accesses ∧ replay accesses s.rs = some t.rs

/-- R293: once a command has made an RS access it ends with OK. -/
def Obligations.AccessImpliesOk : Prop :=
  ∀ (s t : State) (i : Instr), exec i s = .next t → t.trace ≠ s.trace →
    ∃ results, t.outbox = s.outbox ++ [0x00000000 :: results]

/-- Every command that `exec` takes to a next state gets exactly one response; its status is one of the seven, and result
words follow only an OK: none for FIELD_WRITE and TEST_WRITE, one for REG_READ, three for SOLVE, two for FR_LOOKUP
(30_encoding.md section 4, the response). A request that does not decode is the subject of
`IllegalRequestAnswersStatusOnly`. -/
def Obligations.OneResponsePerCommand : Prop :=
  ∀ (s t : State) (i : Instr), exec i s = .next t →
    ∃ status results, t.outbox = s.outbox ++ [status :: results] ∧
      status ∈ [0x00000000#32, 0x00000001#32, 0x00000002#32, 0x00000003#32, 0x00000010#32, 0x00000011#32,
        0x00000012#32] ∧
      (status ≠ 0x00000000 → results = []) ∧
      (status = 0x00000000 → results.length =
        match i with
        | .fieldWrite _ _ => 0
        | .regRead _ _ => 1
        | .testWrite _ _ => 0
        | .solve _ _ => 3
        | .frLookup _ => 2)

/-- What the model refuses and by which name, setting the mark and giving no step: an empty request; a configuration that fails
a check; a request while BUSY; an RS write by another agent. Which refusal is named where several of these grounds hold is the
model's choice: an empty request and a foreign write before the configuration, the configuration before BUSY (assumption logs 6
and 19). `RefusalGroundsSetTheMark` says what R297 says, without the names. -/
def Obligations.InadmissibleEventsAreRefused : Prop :=
  ∀ (s : State) (rest : List HostEvent),
    let taken := { s with inbox := rest, refused := true }
    (s.inbox = .request [] :: rest → step s = .refused (.emptyRequest taken)) ∧
    (¬s.cfg.wf → ∀ t, step s ≠ .next t) ∧
    (∀ ws, ¬s.cfg.wf → s.inbox = .request ws :: rest → ws ≠ [] → step s = .refused (.illFormedConfig taken)) ∧
    (∀ ws, s.cfg.wf → s.seq ≠ .idle → s.inbox = .request ws :: rest → ws ≠ [] →
      step s = .refused (.requestWhileBusy taken)) ∧
    (∀ a v, s.inbox = .foreignWrite a v :: rest → step s = .refused (.foreignWrite taken))

/-- Every step ends with the sequencer IDLE: a command runs from its request to its response (10_state.md section 1). -/
def Obligations.CommandsEndIdle : Prop :=
  ∀ s t : State, step s = .next t → t.seq = .idle

/-- The invariant every step keeps: the configuration well-formed; a field command under way past its address checks; RS in
canonical form below `2^AW`; no count without a latched code; and, while the clear is asserted, the receiver with no code and no
count and its test registers the clear's, unless the fault mark is set, or those registers are still unknown from power-on,
which is the model's reading of R46 beside R185 (assumption log 14). -/
def Obligations.StepKeepsTheInvariant : Prop :=
  ∀ s t : State, s.Inv → step s = .next t → t.Inv

/-- Every launch of a well-formed configuration with RS in canonical form has the invariant, and so has the machine right
after reset (whose configuration is the model's choice, assumption log 1). -/
def Obligations.LaunchHasTheInvariant : Prop :=
  (∀ (cfg : Config) (rsInit : Memory), cfg.wf → rsInit.wf → (∀ c ∈ rsInit, c.1 < cfg.aw.size) →
    (State.launch cfg rsInit).Inv) ∧ State.reset.Inv

/-- No step changes the configuration or clears a mark, whatever the state (10_state.md sections 2 and 5). -/
def Obligations.ConfigAndMarksPersist : Prop :=
  ∀ s t : State, step s = .next t →
    t.cfg = s.cfg ∧ (s.trx.trxFault = true → t.trx.trxFault = true) ∧ t.refused = s.refused

/-- R46: after reset every piece of state has its value: the sequencer IDLE, the configuration as supplied, RS the draw of
`rs_init` and the levels derived from it, every test register unknown, no code latched, `k = 0`, both marks false; and `State.reset` is such a launch. -/
def Obligations.ResetState : Prop :=
  (∀ (cfg : Config) (rsInit : Memory),
    let s := State.launch cfg rsInit
    s.seq = .idle ∧ s.cfg = cfg ∧ (∀ a, s.rs.readWord a = rsInit.readWord a) ∧
    s.lines = linesOf cfg rsInit ∧ (∀ a : Byte, s.trx.treg[a.toNat]'a.isLt = none) ∧
    s.trx.codeLatch = none ∧ s.trx.k = 0 ∧ s.trx.trxFault = false ∧ s.refused = false) ∧
  State.reset = State.launch State.reset.cfg State.reset.rs

/-- The power-on reset between commands sets the sequencer, RS and the receiver to their reset values and clears no mark;
during a command it is refused. That a reset may come after a launch's first command is the model's reading (assumption
log 7). -/
def Obligations.ResetEventSetsResetValues : Prop :=
  ∀ (s : State) (rsInit : Memory) (rest : List HostEvent), s.cfg.wf → s.inbox = .reset rsInit :: rest →
    (s.seq = .idle → rsInit.wf → (∀ c ∈ rsInit, c.1 < s.cfg.aw.size) →
      ∃ t, step s = .next t ∧ t.cfg = s.cfg ∧ t.seq = .idle ∧
        (∀ a, t.rs.readByte a = rsInit.readByte a) ∧
        t.trx = { treg := Vector.replicate 256 none, codeLatch := none, k := 0, trxFault := s.trx.trxFault } ∧
        t.refused = s.refused ∧ t.outbox = s.outbox ∧ t.trace = s.trace ∧ t.inbox = rest) ∧
    (s.seq ≠ .idle → ∃ u, step s = .refused (.resetWhileBusy u) ∧ u.refused = true)

/-- With no event an IDLE machine waits: the step changes nothing (70_reset_and_hazards.md section 1). -/
def Obligations.IdleMachineWaits : Prop :=
  ∀ s : State, s.ready → s.inbox = [] → step s = .next s

/-! ## The reference client's own functions (44_client_sequences.md) -/

/-- The clock plan after solving (44_client_sequences.md section 2): the byte clock is the achieved clock over 8, the escape
clock is clamped to it, and `ESC_REQ = 0` fails. -/
def Obligations.ClockPlanAfterSolving : Prop :=
  ∀ (p : Client.Params) (plan : Client.ClockPlan) (achieved : Nat),
    (p.escReq = 0 → Client.updatePlan p plan achieved = .error .eInvalid) ∧
    (p.escReq ≠ 0 → ∃ plan', Client.updatePlan p plan achieved = .ok plan' ∧
      plan'.phyClk = achieved ∧ plan'.txByteClk = some (achieved / 8) ∧
      ∃ esc, plan'.txEscClk = some esc ∧ esc = min p.escReq.toNat (achieved / 8) ∧ esc ≤ achieved / 8 ∧
        plan'.referenceClk = plan.referenceClk ∧ plan'.systemClk = plan.systemClk ∧
        plan'.pixelClk = plan.pixelClk)

/-- The two bytes of the feedback divider: the low five bits, then the high bits, which are at most 15 and so never meet the
marker bit. -/
def Obligations.FeedbackDividerBytes : Prop :=
  ∀ fbMarker fb : Nat, 4 ≤ fbMarker → fbMarker ≤ 7 → fb < 512 →
    (Client.fbBytes fbMarker fb).1.toNat = fb % 32 ∧ fb / 32 ≤ 15 ∧
    (Client.fbBytes fbMarker fb).2.toNat = fb / 32 + 2 ^ fbMarker

/-- R273: the DPI colour coding: 16 and 30 bits per pixel have their codes, and every other value, negative ones and absence
among them, has the 24-bit code. -/
def Obligations.DpiCodingDefaultsTo24 : Prop :=
  ∀ p : Client.Params, Client.dpi p (some 16) = p.dpi16 ∧ Client.dpi p (some 30) = p.dpi30 ∧
    Client.dpi p none = p.dpi24 ∧ ∀ bpp : Int, bpp ≠ 16 → bpp ≠ 30 → Client.dpi p (some bpp) = p.dpi24

/-- R271: a DSI configure with a video source that is neither of the two supported fails with `EInvalid` before any
request, so that the machine's state is untouched; with a supported one it goes on to the requests of R270. -/
def Obligations.UnsupportedVideoSourceSendsNothing : Prop :=
  ∀ (p : Client.Params) (t : Client.Timing) (videoSourceId : Nat) (s : State),
    (videoSourceId ≠ p.vopB → videoSourceId ≠ p.vopL →
      Client.dsiConfigure p t videoSourceId s = .failed s .eInvalid) ∧
    (videoSourceId = p.vopB ∨ videoSourceId = p.vopL →
      Client.dsiConfigure p t videoSourceId s = Client.sendAll (Client.dsiWrites p t videoSourceId) s)

/-! ## Requests to TEST_WRITE, and refusals, without the model's own choices -/

/-- R170: TEST_WRITE as requests reach it: OP 0x03; a request that fails IL2, IL3, IL5 or IL6 is ILLEGAL before any access; one
that decodes has 1 to 255 data bytes and makes the rule's straight list of FieldWrites, then OK, so that it cannot fail; and
the rule's example. -/
def Obligations.TestWriteRequestFollowsPseudocode : Prop :=
  (∀ s : State, s.ready →
    s.rejects 3 (fun h b => il2 h ∨ il3 h (b.length + 1) ∨ il5 h ∨ il6 h b) ∧
    ∀ (ws : List Word) (rest : List HostEvent) (code : Byte) (data : List Byte),
      decode ws = .ok (.testWrite code data) →
      (ws.getD 0 0).extractLsb' 0 8 = 0x03#8 ∧ 1 ≤ data.length ∧ data.length ≤ 255 ∧
      step { s with inbox := .request ws :: rest } =
        .next ((writeLines (transferWrites code data) { s with inbox := rest }).answers [0x00000000])) ∧
  transferWrites 0x10 [0x83] =
    [(.clk, 1), (.din, 0x10), (.en, 1), (.clk, 0), (.en, 0), (.clk, 0), (.din, 0x83), (.clk, 1)]

/-- R297: each of the four grounds of refusal ends the run in a refusal, whose state has the mark `refused` set and the
configuration, the sequencer, RS and the receiver as they were. Which name the refusal has is not said here. -/
def Obligations.RefusalGroundsSetTheMark : Prop :=
  ∀ s : State, s.inadmissible →
    ∃ r t, step s = .refused r ∧ r.marked = some t ∧ t.refused = true ∧
      t.cfg = s.cfg ∧ t.seq = s.seq ∧ t.rs = s.rs ∧ t.trx = s.trx
end

