-- ==== Sys2Proof/Laws/Bits.lean ====
section
/-! SUPPORT. The bit-field arithmetic of the field codec, bit by bit (00_scope.md R11, R13, 41_field_codec.md R141,
R142). -/

namespace Sys2Proof

open Machine

theorem Desc.width_pos (d : Desc) : 1 ≤ d.width := by unfold width; omega

theorem Desc.width_le (d : Desc) : d.width ≤ 32 := by
  have := d.wm1.isLt
  unfold width
  omega

/-- `mask(w)` has exactly the bits below `w` (R11). -/
theorem getLsbD_mask (w i : Nat) : (mask w).getLsbD i = (decide (i < w) && decide (i < 32)) := by
  unfold mask
  rw [BitVec.getLsbD_ofNat, Nat.testBit_two_pow_sub_one]
  exact Bool.and_comm _ _

/-- `fmask(d)` has exactly the bits `[boff, boff + width)` of the word (R141). -/
theorem Desc.getLsbD_fmask (d : Desc) (i : Nat) :
    d.fmask.getLsbD i = (decide (i < 32) && decide (d.boff.toNat ≤ i) && decide (i < d.boff.toNat + d.width)) := by
  unfold fmask
  rw [BitVec.getLsbD_shiftLeft, getLsbD_mask]
  by_cases h1 : i < 32 <;> by_cases h2 : d.boff.toNat ≤ i <;> by_cases h3 : i < d.boff.toNat + d.width <;>
    simp [h1, h2, h3] <;> omega

/-- A bit of the merged word (R142): the value's within the field, the old word's elsewhere. -/
theorem Desc.getLsbD_merge (d : Desc) (w v : Word) (i : Nat) :
    (d.merge w v).getLsbD i =
      if d.boff.toNat ≤ i ∧ i < d.boff.toNat + d.width ∧ i < 32 then v.getLsbD (i - d.boff.toNat) else w.getLsbD i := by
  unfold merge
  simp only [BitVec.getLsbD_or, BitVec.getLsbD_and, BitVec.getLsbD_not, BitVec.getLsbD_shiftLeft,
    getLsbD_mask, getLsbD_fmask]
  by_cases h1 : i < 32
  · by_cases h2 : d.boff.toNat ≤ i
    · by_cases h3 : i < d.boff.toNat + d.width
      · simp [h1, h2, h3, show ¬ i < d.boff.toNat by omega, show i - d.boff.toNat < d.width by omega,
          show i - d.boff.toNat < 32 by omega]
      · simp [h1, h2, h3, show ¬ i - d.boff.toNat < d.width by omega]
    · simp [h1, h2, show i < d.boff.toNat by omega]
  · simp [h1, BitVec.getLsbD_of_ge _ i (by omega : 32 ≤ i)]

/-- A bit of a field value (R13). -/
theorem Desc.getLsbD_fieldval (d : Desc) (w : Word) (i : Nat) :
    (d.fieldval w).getLsbD i = (w.getLsbD (d.boff.toNat + i) && decide (i < d.width)) := by
  unfold fieldval
  rw [BitVec.getLsbD_and, BitVec.getLsbD_ushiftRight, getLsbD_mask]
  have := d.width_le
  by_cases h : i < d.width
  · simp [h, show i < 32 by omega]
  · simp [h]

/-- The field of the merged word is the masked value (R144). -/
theorem Desc.fieldval_merge {d : Desc} (hd : d.wellFormed) (w v : Word) :
    d.fieldval (d.merge w v) = v &&& mask d.width := by
  apply BitVec.eq_of_getLsbD_eq
  intro i hi
  rw [getLsbD_fieldval, getLsbD_merge, BitVec.getLsbD_and, getLsbD_mask]
  have hw : d.boff.toNat + d.width ≤ 32 := by unfold width; omega
  by_cases h : i < d.width
  · simp [h, hi, show d.boff.toNat + i < 32 by omega]
  · simp [h]

/-- The bits outside the field are the old word's (R145). -/
theorem Desc.merge_outside (d : Desc) (w v : Word) : d.merge w v &&& ~~~d.fmask = w &&& ~~~d.fmask := by
  apply BitVec.eq_of_getLsbD_eq
  intro i hi
  rw [BitVec.getLsbD_and, BitVec.getLsbD_and, getLsbD_merge, BitVec.getLsbD_not, getLsbD_fmask]
  by_cases h : d.boff.toNat ≤ i ∧ i < d.boff.toNat + d.width
  · simp [h, hi]
  · rw [if_neg (by tauto)]

/-- A field that shares no bit with the one written keeps its value (R145). -/
theorem Desc.fieldval_merge_other {d e : Desc} (h : rangesDisjoint d e) (w v : Word) :
    e.fieldval (d.merge w v) = e.fieldval w := by
  apply BitVec.eq_of_getLsbD_eq
  intro i hi
  rw [getLsbD_fieldval, getLsbD_fieldval, getLsbD_merge]
  by_cases hi : i < e.width
  · rw [if_neg (by rcases h with h | h <;> omega)]
  · simp [hi]

/-- Writing the value a word's field has, merged into the same word, leaves the word (R147). -/
theorem Desc.merge_idem (d : Desc) (w v : Word) : d.merge (d.merge w v) v = d.merge w v := by
  apply BitVec.eq_of_getLsbD_eq
  intro i hi
  rw [getLsbD_merge]
  split
  · next h => rw [getLsbD_merge, if_pos h]
  · rfl

/-- Bit ranges that share no bit, as masks (R146). -/
theorem rangesDisjoint_of_fmask {d e : Desc} (hd : d.wellFormed) (he : e.wellFormed)
    (h : d.fmask &&& e.fmask = 0) : rangesDisjoint d e := by
  by_contra hc
  unfold rangesDisjoint at hc
  rw [not_or, Nat.not_le, Nat.not_le] at hc
  have hdw := d.width_pos
  have hew := e.width_pos
  have hd' : d.boff.toNat + d.width ≤ 32 := by unfold Desc.width; omega
  have he' : e.boff.toNat + e.width ≤ 32 := by unfold Desc.width; omega
  have hbit := congrArg (BitVec.getLsbD · (max d.boff.toNat e.boff.toNat)) h
  simp only [BitVec.getLsbD_and, Desc.getLsbD_fmask] at hbit
  have : max d.boff.toNat e.boff.toNat < 32 := by omega
  simp [this] at hbit
  omega

end Sys2Proof
end

