-- ==== Sys2Proof/Laws/Memory.lean ====
section
/-! SUPPORT. RS as byte cells: a read after a write, the canonical form, and equal memories as equal data. -/

namespace Sys2Proof.Machine

@[simp] theorem Memory.readByte_nil (a : Nat) : Memory.readByte [] a = unlistedByte := rfl

theorem Memory.readByte_cons (c : Host.Cell) (m : Memory) (a : Nat) :
    Memory.readByte (c :: m) a = if c.1 = a then c.2 else Memory.readByte m a := rfl

theorem Memory.wf_tail {c : Host.Cell} {m : Memory} (h : Memory.wf (c :: m)) : Memory.wf m :=
  ⟨(List.pairwise_cons.1 h.1).2, fun d hd => h.2 d (List.mem_cons_of_mem _ hd)⟩

/-- An address that no cell lists reads as the unlisted byte. -/
theorem Memory.readByte_of_not_mem {m : Memory} {a : Nat} (h : ∀ c ∈ m, c.1 ≠ a) :
    m.readByte a = unlistedByte := by
  induction m with
  | nil => rfl
  | cons c m ih =>
    rw [readByte_cons, if_neg (h c (by simp)), ih fun d hd => h d (by simp [hd])]

/-- A write leaves every other address as it was, in any list of cells. -/
theorem Memory.readByte_writeByte_ne (m : Memory) {a b : Nat} (v : Byte) (h : b ≠ a) :
    (m.writeByte a v).readByte b = m.readByte b := by
  induction m with
  | nil =>
    unfold writeByte
    split
    · rfl
    · rw [readByte_cons, if_neg (Ne.symm h)]
  | cons c m ih =>
    unfold writeByte
    split
    · split
      · rfl
      · rw [readByte_cons, if_neg (Ne.symm h)]
    · split
      · next hc =>
        split
        · rw [readByte_cons, if_neg (hc ▸ Ne.symm h)]
        · rw [readByte_cons, readByte_cons, if_neg (Ne.symm h), if_neg (hc ▸ Ne.symm h)]
      · rw [readByte_cons, readByte_cons, ih]

/-- A read after a write to the same address gives the value written. -/
theorem Memory.readByte_writeByte_same {m : Memory} (hm : m.wf) (a : Nat) (v : Byte) :
    (m.writeByte a v).readByte a = v := by
  induction m with
  | nil =>
    unfold writeByte
    split
    · next h => rw [h]; rfl
    · rw [readByte_cons, if_pos rfl]
  | cons c m ih =>
    have hall := (List.pairwise_cons.1 hm.1).1
    unfold writeByte
    split
    · next hlt =>
      split
      · next h =>
        rw [h]
        refine readByte_of_not_mem fun d hd => ?_
        rcases List.mem_cons.1 hd with rfl | hd
        · omega
        · have := hall d hd; omega
      · rw [readByte_cons, if_pos rfl]
    · split
      · next hc =>
        split
        · next h =>
          rw [h]
          refine readByte_of_not_mem fun d hd => ?_
          have := hall d hd; omega
        · rw [readByte_cons, if_pos rfl]
      · next hc => rw [readByte_cons, if_neg hc, ih (wf_tail hm)]

/-- Every cell after a write is a cell of before, or the cell written. -/
theorem Memory.mem_writeByte {m : Memory} {a : Nat} {v : Byte} {c : Host.Cell} (h : c ∈ m.writeByte a v) :
    c ∈ m ∨ (c = (a, v) ∧ v ≠ unlistedByte) := by
  induction m with
  | nil =>
    unfold writeByte at h
    split at h
    · exact .inl h
    · next hv => exact .inr ⟨by simpa using h, hv⟩
  | cons d m ih =>
    unfold writeByte at h
    split at h
    · split at h
      · exact .inl h
      · next hv =>
        rcases List.mem_cons.1 h with rfl | h
        · exact .inr ⟨rfl, hv⟩
        · exact .inl h
    · split at h
      · split at h
        · exact .inl (List.mem_cons_of_mem _ h)
        · next hv =>
          rcases List.mem_cons.1 h with rfl | h
          · exact .inr ⟨rfl, hv⟩
          · exact .inl (List.mem_cons_of_mem _ h)
      · rcases List.mem_cons.1 h with rfl | h
        · exact .inl (by simp)
        · rcases ih h with h | h
          · exact .inl (List.mem_cons_of_mem _ h)
          · exact .inr h

/-- A write keeps the canonical form. -/
theorem Memory.writeByte_wf {m : Memory} (hm : m.wf) (a : Nat) (v : Byte) : (m.writeByte a v).wf := by
  refine ⟨?_, fun c hc => ?_⟩
  · induction m with
    | nil => unfold writeByte; split <;> simp
    | cons c m ih =>
      have hp := List.pairwise_cons.1 hm.1
      unfold writeByte
      split
      · next hlt =>
        split
        · exact hm.1
        · refine List.pairwise_cons.2 ⟨fun d hd => ?_, hm.1⟩
          rcases List.mem_cons.1 hd with rfl | hd
          · exact hlt
          · exact Nat.lt_trans hlt (hp.1 d hd)
      · split
        · next hc =>
          split
          · exact hp.2
          · exact List.pairwise_cons.2 ⟨fun d hd => hc ▸ hp.1 d hd, hp.2⟩
        · refine List.pairwise_cons.2 ⟨fun d hd => ?_, ih (wf_tail hm)⟩
          rcases mem_writeByte hd with hd | ⟨rfl, -⟩
          · exact hp.1 d hd
          · show c.1 < a
            omega
  · rcases mem_writeByte hc with hc | ⟨rfl, hv⟩
    · exact hm.2 c hc
    · exact hv

/-- Memories in canonical form that read alike at every address are equal. -/
theorem Memory.ext_of_readByte {m n : Memory} (hm : m.wf) (hn : n.wf)
    (h : ∀ a, m.readByte a = n.readByte a) : m = n := by
  have listed : ∀ {m : Memory}, m.wf → ∀ a v, (a, v) ∈ m → m.readByte a = v := by
    intro m hm a v hmem
    induction m with
    | nil => cases hmem
    | cons c m ih =>
      rcases List.mem_cons.1 hmem with rfl | hmem
      · rw [readByte_cons, if_pos rfl]
      · have := (List.pairwise_cons.1 hm.1).1 _ hmem
        rw [readByte_cons, if_neg (Nat.ne_of_lt this), ih (wf_tail hm) hmem]
  induction m generalizing n with
  | nil =>
    cases n with
    | nil => rfl
    | cons d n =>
      exact absurd ((h d.1).symm.trans rfl) (by
        rw [listed hn d.1 d.2 (by simp)]; exact hn.2 d (by simp))
  | cons c m ih =>
    cases n with
    | nil =>
      exact absurd (h c.1) (by
        rw [listed hm c.1 c.2 (by simp)]; exact hm.2 c (by simp))
    | cons d n =>
      have hpm := List.pairwise_cons.1 hm.1
      have hpn := List.pairwise_cons.1 hn.1
      have heq : c.1 = d.1 := by
        rcases Nat.lt_trichotomy c.1 d.1 with hlt | heq | hlt
        · refine absurd (h c.1) ?_
          rw [listed hm c.1 c.2 (by simp), readByte_of_not_mem (m := d :: n) fun e he => ?_]
          · exact hm.2 c (by simp)
          · rcases List.mem_cons.1 he with rfl | he
            · omega
            · have := hpn.1 e he; omega
        · exact heq
        · refine absurd (h d.1).symm ?_
          rw [listed hn d.1 d.2 (by simp), readByte_of_not_mem (m := c :: m) fun e he => ?_]
          · exact hn.2 d (by simp)
          · rcases List.mem_cons.1 he with rfl | he
            · omega
            · have := hpm.1 e he; omega
      have hval : c.2 = d.2 := by
        have := h c.1
        rwa [listed hm c.1 c.2 (by simp), heq, listed hn d.1 d.2 (by simp)] at this
      have hcd : c = d := Prod.ext heq hval
      subst hcd
      congr 1
      refine ih (wf_tail hm) (wf_tail hn) fun a => ?_
      have ha := h a
      rw [readByte_cons, readByte_cons] at ha
      split at ha
      · next hc =>
        rw [readByte_of_not_mem fun e he => ?_, readByte_of_not_mem fun e he => ?_]
        · have := hpn.1 e he; omega
        · have := hpm.1 e he; omega
      · exact ha

/-- Writing the byte an address holds changes nothing. -/
theorem Memory.writeByte_self {m : Memory} (hm : m.wf) (a : Nat) : m.writeByte a (m.readByte a) = m := by
  refine ext_of_readByte (writeByte_wf hm _ _) hm fun b => ?_
  by_cases h : b = a
  · rw [h, readByte_writeByte_same hm]
  · exact readByte_writeByte_ne m _ h

/-- A word write keeps the canonical form. -/
theorem Memory.writeWord_wf {m : Memory} (hm : m.wf) (a : Nat) (v : Word) : (m.writeWord a v).wf :=
  writeByte_wf (writeByte_wf (writeByte_wf (writeByte_wf hm _ _) _ _) _ _) _ _

/-- A word write leaves every byte outside its four as it was. -/
theorem Memory.readByte_writeWord_other (m : Memory) {a b : Nat} (v : Word) (h : b < a ∨ a + 4 ≤ b) :
    (m.writeWord a v).readByte b = m.readByte b := by
  unfold writeWord
  rw [readByte_writeByte_ne _ _ (by omega), readByte_writeByte_ne _ _ (by omega),
    readByte_writeByte_ne _ _ (by omega), readByte_writeByte_ne _ _ (by omega)]

theorem Memory.readByte_writeWord_0 {m : Memory} (hm : m.wf) (a : Nat) (v : Word) :
    (m.writeWord a v).readByte a = v.extractLsb' 0 8 := by
  unfold writeWord
  rw [readByte_writeByte_ne _ _ (by omega), readByte_writeByte_ne _ _ (by omega),
    readByte_writeByte_ne _ _ (by omega), readByte_writeByte_same hm]

theorem Memory.readByte_writeWord_1 {m : Memory} (hm : m.wf) (a : Nat) (v : Word) :
    (m.writeWord a v).readByte (a + 1) = v.extractLsb' 8 8 := by
  unfold writeWord
  rw [readByte_writeByte_ne _ _ (by omega), readByte_writeByte_ne _ _ (by omega),
    readByte_writeByte_same (writeByte_wf hm _ _)]

theorem Memory.readByte_writeWord_2 {m : Memory} (hm : m.wf) (a : Nat) (v : Word) :
    (m.writeWord a v).readByte (a + 2) = v.extractLsb' 16 8 := by
  unfold writeWord
  rw [readByte_writeByte_ne _ _ (by omega),
    readByte_writeByte_same (writeByte_wf (writeByte_wf hm _ _) _ _)]

theorem Memory.readByte_writeWord_3 {m : Memory} (hm : m.wf) (a : Nat) (v : Word) :
    (m.writeWord a v).readByte (a + 3) = v.extractLsb' 24 8 := by
  unfold writeWord
  rw [readByte_writeByte_same (writeByte_wf (writeByte_wf (writeByte_wf hm _ _) _ _) _ _)]

/-- The four bytes of a word make the word. -/
theorem word_of_bytes (v : Word) :
    v.extractLsb' 24 8 ++ v.extractLsb' 16 8 ++ v.extractLsb' 8 8 ++ v.extractLsb' 0 8 = v := by
  apply BitVec.eq_of_getLsbD_eq
  intro i hi
  simp only [BitVec.getLsbD_append, BitVec.getLsbD_extractLsb']
  by_cases h0 : i < 8
  · simp [h0]
  · by_cases h1 : i < 16
    · simp [h0, show i - 8 < 8 by omega, show 8 + (i - 8) = i by omega]
    · by_cases h2 : i < 24
      · simp [h0, show ¬ i - 8 < 8 by omega, show i - 8 - 8 < 8 by omega, show 16 + (i - 8 - 8) = i by omega]
      · simp [h0, show ¬ i - 8 < 8 by omega, show ¬ i - 8 - 8 < 8 by omega, show i - 8 - 8 - 8 < 8 by omega,
          show 24 + (i - 8 - 8 - 8) = i by omega]

/-- A word read after a word write to the same address gives the word written (R39). -/
theorem Memory.readWord_writeWord_same {m : Memory} (hm : m.wf) (a : Nat) (v : Word) :
    (m.writeWord a v).readWord a = v := by
  unfold readWord
  rw [readByte_writeWord_0 hm, readByte_writeWord_1 hm, readByte_writeWord_2 hm, readByte_writeWord_3 hm,
    word_of_bytes]

/-- A word write leaves every word that shares no byte with it as it was (R39). -/
theorem Memory.readWord_writeWord_apart (m : Memory) {a b : Nat} (v : Word) (h : b + 4 ≤ a ∨ a + 4 ≤ b) :
    (m.writeWord a v).readWord b = m.readWord b := by
  unfold readWord
  rw [readByte_writeWord_other _ _ (by omega), readByte_writeWord_other _ _ (by omega),
    readByte_writeWord_other _ _ (by omega), readByte_writeWord_other _ _ (by omega)]

/-- Two different word addresses share no byte (R77). -/
theorem Memory.readWord_writeWord_ne (m : Memory) {a b : Nat} (v : Word) (ha : a % 4 = 0) (hb : b % 4 = 0)
    (h : b ≠ a) : (m.writeWord a v).readWord b = m.readWord b :=
  readWord_writeWord_apart m v (by omega)

/-- Writing the word an address holds changes nothing (R74). -/
theorem Memory.writeWord_self {m : Memory} (hm : m.wf) (a : Nat) : m.writeWord a (m.readWord a) = m := by
  refine ext_of_readByte (writeWord_wf hm _ _) hm fun b => ?_
  by_cases h : b < a ∨ a + 4 ≤ b
  · exact readByte_writeWord_other m _ h
  · have hb : b = a ∨ b = a + 1 ∨ b = a + 2 ∨ b = a + 3 := by omega
    have ext8 : ∀ x y z w : Byte, (x ++ y ++ z ++ w : Word).extractLsb' 0 8 = w ∧
        (x ++ y ++ z ++ w : Word).extractLsb' 8 8 = z ∧ (x ++ y ++ z ++ w : Word).extractLsb' 16 8 = y ∧
        (x ++ y ++ z ++ w : Word).extractLsb' 24 8 = x := by
      intro x y z w
      refine ⟨?_, ?_, ?_, ?_⟩ <;> apply BitVec.eq_of_getLsbD_eq <;> intro i hi <;>
        simp only [BitVec.getLsbD_append, BitVec.getLsbD_extractLsb']
      · simp [hi]
      · simp [hi, show ¬ 8 + i < 8 by omega]
      · simp [hi, show ¬ 16 + i < 8 by omega, show ¬ 16 + i - 8 < 8 by omega, show 16 + i - 8 - 8 = i by omega]
      · simp [hi, show ¬ 24 + i < 8 by omega, show ¬ 24 + i - 8 < 8 by omega, show ¬ 24 + i - 8 - 8 < 8 by omega,
          show 24 + i - 8 - 8 - 8 = i by omega]
    have hr := ext8 (m.readByte (a + 3)) (m.readByte (a + 2)) (m.readByte (a + 1)) (m.readByte a)
    rcases hb with rfl | rfl | rfl | rfl
    · rw [readByte_writeWord_0 hm]; exact hr.1
    · rw [readByte_writeWord_1 hm]; exact hr.2.1
    · rw [readByte_writeWord_2 hm]; exact hr.2.2.1
    · rw [readByte_writeWord_3 hm]; exact hr.2.2.2

/-- Every cell after a word write lists an address of before, or one of the word's four. -/
theorem Memory.mem_writeWord {m : Memory} {a : Nat} {v : Word} {c : Host.Cell} (h : c ∈ m.writeWord a v) :
    c ∈ m ∨ (a ≤ c.1 ∧ c.1 < a + 4) := by
  unfold writeWord at h
  rcases mem_writeByte h with h | ⟨rfl, -⟩
  · rcases mem_writeByte h with h | ⟨rfl, -⟩
    · rcases mem_writeByte h with h | ⟨rfl, -⟩
      · rcases mem_writeByte h with h | ⟨rfl, -⟩
        · exact .inl h
        · exact .inr ⟨Nat.le_refl _, by simp⟩
      · exact .inr ⟨by simp, by simp⟩
    · exact .inr ⟨by simp, by simp⟩
  · exact .inr ⟨by simp, by simp⟩

theorem Memory.foldl_writeByte_wf (cells : List Host.Cell) {m : Memory} (hm : m.wf) :
    Memory.wf (cells.foldl (fun m c => m.writeByte c.1 c.2) m) := by
  induction cells generalizing m with
  | nil => exact hm
  | cons c cells ih => exact ih (writeByte_wf hm _ _)

/-- A draw of `rs_init` is put into canonical form. -/
theorem Memory.ofCells_wf (cells : List Host.Cell) : (Memory.ofCells cells).wf :=
  foldl_writeByte_wf cells ⟨List.Pairwise.nil, by simp⟩

theorem Memory.mem_foldl_writeByte (cells : List Host.Cell) {m : Memory} {c : Host.Cell}
    (h : c ∈ cells.foldl (fun m c => m.writeByte c.1 c.2) m) : c ∈ m ∨ c ∈ cells := by
  induction cells generalizing m with
  | nil => exact .inl h
  | cons d cells ih =>
    rcases ih h with h | h
    · rcases mem_writeByte h with h | ⟨rfl, -⟩
      · exact .inl h
      · exact .inr (by simp)
    · exact .inr (List.mem_cons_of_mem _ h)

/-- The cells of a draw put into canonical form are cells of the draw. -/
theorem Memory.mem_ofCells {cells : List Host.Cell} {c : Host.Cell} (h : c ∈ Memory.ofCells cells) : c ∈ cells := by
  rcases mem_foldl_writeByte cells h with h | h
  · cases h
  · exact h

/-- The canonical form of the memory of the machine right after reset. -/
theorem reset_rs_wf : State.reset.rs.wf := ⟨List.Pairwise.nil, by simp [State.reset, State.launch]⟩

end Sys2Proof.Machine
end

