-- ==== Sys2Proof/Laws/State.lean ====
section
/-! SUPPORT. One lemma for each field of the state and each named update of it. -/

namespace Sys2Proof.Machine

@[simp] theorem respond_cfg (st : Status) (r : List Word) (s : State) : (respond st r s).cfg = s.cfg := rfl
@[simp] theorem respond_seq (st : Status) (r : List Word) (s : State) : (respond st r s).seq = .idle := rfl
@[simp] theorem respond_rs (st : Status) (r : List Word) (s : State) : (respond st r s).rs = s.rs := rfl
@[simp] theorem respond_trx (st : Status) (r : List Word) (s : State) : (respond st r s).trx = s.trx := rfl
@[simp] theorem respond_refused (st : Status) (r : List Word) (s : State) : (respond st r s).refused = s.refused := rfl
@[simp] theorem respond_inbox (st : Status) (r : List Word) (s : State) : (respond st r s).inbox = s.inbox := rfl
@[simp] theorem respond_outbox (st : Status) (r : List Word) (s : State) :
    (respond st r s).outbox = s.outbox ++ [responseWords st r] := rfl
@[simp] theorem respond_trace (st : Status) (r : List Word) (s : State) : (respond st r s).trace = s.trace := rfl

@[simp] theorem setSeq_cfg (q : Seq) (s : State) : (s.setSeq q).cfg = s.cfg := rfl
@[simp] theorem setSeq_seq (q : Seq) (s : State) : (s.setSeq q).seq = q := rfl
@[simp] theorem setSeq_rs (q : Seq) (s : State) : (s.setSeq q).rs = s.rs := rfl
@[simp] theorem setSeq_trx (q : Seq) (s : State) : (s.setSeq q).trx = s.trx := rfl
@[simp] theorem setSeq_refused (q : Seq) (s : State) : (s.setSeq q).refused = s.refused := rfl
@[simp] theorem setSeq_inbox (q : Seq) (s : State) : (s.setSeq q).inbox = s.inbox := rfl
@[simp] theorem setSeq_outbox (q : Seq) (s : State) : (s.setSeq q).outbox = s.outbox := rfl
@[simp] theorem setSeq_trace (q : Seq) (s : State) : (s.setSeq q).trace = s.trace := rfl
@[simp] theorem setSeq_lines (q : Seq) (s : State) : (s.setSeq q).lines = s.lines := rfl
@[simp] theorem setSeq_setSeq (q r : Seq) (s : State) : (s.setSeq q).setSeq r = s.setSeq r := rfl
@[simp] theorem fieldWrite_setSeq (d : Desc) (v : Word) (q : Seq) (s : State) :
    fieldWrite d v (s.setSeq q) = (fieldWrite d v s).setSeq q := rfl
@[simp] theorem respond_setSeq (st : Status) (r : List Word) (q : Seq) (s : State) :
    respond st r (s.setSeq q) = respond st r s := rfl
@[simp] theorem setSeq_self (s : State) : s.setSeq s.seq = s := rfl

@[simp] theorem raiseStatus_eq (st : Status) (s : State) :
    raiseStatus st s = { s with seq := .idle, outbox := s.outbox ++ [[st.code.setWidth 32]] } := by
  cases st <;> rfl

@[simp] theorem rsRead_fst (a : Nat) (s : State) : (rsRead a s).1 = s.rs.readWord a := rfl
@[simp] theorem rsRead_snd (a : Nat) (s : State) :
    (rsRead a s).2 = { s with trace := s.trace ++ [.read a (s.rs.readWord a)] } := rfl

@[simp] theorem rsWrite_cfg (a : Nat) (v : Word) (s : State) : (rsWrite a v s).cfg = s.cfg := rfl
@[simp] theorem rsWrite_seq (a : Nat) (v : Word) (s : State) : (rsWrite a v s).seq = s.seq := rfl
@[simp] theorem rsWrite_rs (a : Nat) (v : Word) (s : State) : (rsWrite a v s).rs = s.rs.writeWord a v := rfl
@[simp] theorem rsWrite_trx (a : Nat) (v : Word) (s : State) :
    (rsWrite a v s).trx = observe s.cfg s.lines (linesOf s.cfg (s.rs.writeWord a v)) s.trx := rfl
@[simp] theorem rsWrite_refused (a : Nat) (v : Word) (s : State) : (rsWrite a v s).refused = s.refused := rfl
@[simp] theorem rsWrite_inbox (a : Nat) (v : Word) (s : State) : (rsWrite a v s).inbox = s.inbox := rfl
@[simp] theorem rsWrite_outbox (a : Nat) (v : Word) (s : State) : (rsWrite a v s).outbox = s.outbox := rfl
@[simp] theorem rsWrite_trace (a : Nat) (v : Word) (s : State) : (rsWrite a v s).trace = s.trace ++ [.write a v] := rfl

@[simp] theorem fieldWrite_cfg (d : Desc) (v : Word) (s : State) : (fieldWrite d v s).cfg = s.cfg := rfl
@[simp] theorem fieldWrite_seq (d : Desc) (v : Word) (s : State) : (fieldWrite d v s).seq = s.seq := rfl
@[simp] theorem fieldWrite_rs (d : Desc) (v : Word) (s : State) :
    (fieldWrite d v s).rs =
      s.rs.writeWord (s.cfg.addr d) (d.merge (s.rs.readWord (s.cfg.addr d)) v) := rfl
@[simp] theorem fieldWrite_trx (d : Desc) (v : Word) (s : State) :
    (fieldWrite d v s).trx = observe s.cfg s.lines (fieldWrite d v s).lines s.trx := rfl
@[simp] theorem fieldWrite_refused (d : Desc) (v : Word) (s : State) : (fieldWrite d v s).refused = s.refused := rfl
@[simp] theorem fieldWrite_inbox (d : Desc) (v : Word) (s : State) : (fieldWrite d v s).inbox = s.inbox := rfl
@[simp] theorem fieldWrite_outbox (d : Desc) (v : Word) (s : State) : (fieldWrite d v s).outbox = s.outbox := rfl
@[simp] theorem fieldWrite_trace (d : Desc) (v : Word) (s : State) :
    (fieldWrite d v s).trace = s.trace ++ [.read (s.cfg.addr d) (s.rs.readWord (s.cfg.addr d)),
      .write (s.cfg.addr d) (d.merge (s.rs.readWord (s.cfg.addr d)) v)] :=
  List.append_assoc _ _ _

@[simp] theorem markRefused_eq (s : State) : s.markRefused = { s with refused := true } := rfl

@[simp] theorem applyReset_cfg (r : Memory) (s : State) : (applyReset r s).cfg = s.cfg := rfl
@[simp] theorem applyReset_seq (r : Memory) (s : State) : (applyReset r s).seq = .idle := rfl
@[simp] theorem applyReset_rs (r : Memory) (s : State) :
    (applyReset r s).rs = Memory.ofCells (r.filter fun c => c.1 < s.cfg.aw.size) := rfl
@[simp] theorem applyReset_trx (r : Memory) (s : State) :
    (applyReset r s).trx = Receiver.powerOn s.trx.trxFault := rfl
@[simp] theorem applyReset_refused (r : Memory) (s : State) : (applyReset r s).refused = s.refused := rfl
@[simp] theorem applyReset_inbox (r : Memory) (s : State) : (applyReset r s).inbox = s.inbox := rfl
@[simp] theorem applyReset_outbox (r : Memory) (s : State) : (applyReset r s).outbox = s.outbox := rfl
@[simp] theorem applyReset_trace (r : Memory) (s : State) : (applyReset r s).trace = s.trace := rfl

@[simp] theorem cleared_treg (cfg : Config) (r : Receiver) : (r.cleared cfg).treg = cfg.tregDefault := rfl
@[simp] theorem cleared_codeLatch (cfg : Config) (r : Receiver) : (r.cleared cfg).codeLatch = none := rfl
@[simp] theorem cleared_k (cfg : Config) (r : Receiver) : (r.cleared cfg).k = 0 := rfl
@[simp] theorem cleared_trxFault (cfg : Config) (r : Receiver) : (r.cleared cfg).trxFault = r.trxFault := rfl

@[simp] theorem latch_treg (c : Byte) (r : Receiver) : (r.latch c).treg = r.treg := rfl
@[simp] theorem latch_codeLatch (c : Byte) (r : Receiver) : (r.latch c).codeLatch = some c := rfl
@[simp] theorem latch_k (c : Byte) (r : Receiver) : (r.latch c).k = 0 := rfl
@[simp] theorem latch_trxFault (c : Byte) (r : Receiver) : (r.latch c).trxFault = r.trxFault := rfl

@[simp] theorem withFetchWord_inbox (s : State) (n w : Nat) :
    (s.withFetchWord n w).inbox = .request (tableRequest n w) :: s.inbox := rfl
@[simp] theorem withFetchWord_cfg (s : State) (n w : Nat) : (s.withFetchWord n w).cfg = s.cfg := rfl
@[simp] theorem withFetchWord_seq (s : State) (n w : Nat) : (s.withFetchWord n w).seq = s.seq := rfl
@[simp] theorem withFetchWord_rs (s : State) (n w : Nat) : (s.withFetchWord n w).rs = s.rs := rfl
@[simp] theorem withFetchWord_trx (s : State) (n w : Nat) : (s.withFetchWord n w).trx = s.trx := rfl

end Sys2Proof.Machine
end

