-- ==== Sys2Proof/Laws/Ops.lean ====
section
/-! SUPPORT. What each shared operation can do, said once: `accept`, the receiver's reaction to a write, a field write
on a line and on RS, the run of a command's phases, and the inversions of `exec` and `step`. -/

namespace Sys2Proof.Machine

/-- `accept` runs the command exactly where the sequencer is ready. -/
theorem accept_of_ready {s : State} (h : s.ready) (c : State → State) : accept s c = .next (c s) := by
  unfold accept
  rw [if_neg (not_not.2 h.1), if_neg (not_not.2 h.2)]

/-- `accept` answers a next state only for a ready sequencer, and then the command's. -/
theorem accept_next {s t : State} {c : State → State} (h : accept s c = .next t) : s.ready ∧ t = c s := by
  unfold accept at h
  split at h
  · cases h
  · split at h
    · cases h
    · next h1 h2 => exact ⟨⟨not_not.1 h1, not_not.1 h2⟩, by injection h with h; exact h.symm⟩

/-- `accept` refuses an ill-formed configuration before it looks at the sequencer (assumption log 6). -/
theorem accept_of_illFormed {s : State} (h : ¬s.cfg.wf) (c : State → State) :
    accept s c = .refused (.illFormedConfig s.markRefused) := if_pos h

/-- `accept` refuses a BUSY sequencer under a well-formed configuration. -/
theorem accept_of_busy {s : State} (h : s.cfg.wf) (h' : s.seq ≠ .idle) (c : State → State) :
    accept s c = .refused (.requestWhileBusy s.markRefused) :=
  (if_neg (not_not.2 h)).trans (if_pos h')

/-- `accept` never faults. -/
theorem accept_fault {s : State} {c : State → State} {f : Fault} : accept s c ≠ .fault f := nomatch f

@[simp] theorem answers_cfg (r : List Word) (s : State) : (s.answers r).cfg = s.cfg := rfl
@[simp] theorem answers_seq (r : List Word) (s : State) : (s.answers r).seq = s.seq := rfl
@[simp] theorem answers_rs (r : List Word) (s : State) : (s.answers r).rs = s.rs := rfl
@[simp] theorem answers_trx (r : List Word) (s : State) : (s.answers r).trx = s.trx := rfl
@[simp] theorem answers_refused (r : List Word) (s : State) : (s.answers r).refused = s.refused := rfl
@[simp] theorem answers_inbox (r : List Word) (s : State) : (s.answers r).inbox = s.inbox := rfl
@[simp] theorem answers_outbox (r : List Word) (s : State) : (s.answers r).outbox = s.outbox ++ [r] := rfl
@[simp] theorem answers_trace (r : List Word) (s : State) : (s.answers r).trace = s.trace := rfl
@[simp] theorem answers_lines (r : List Word) (s : State) : (s.answers r).lines = s.lines := rfl

/-- What a command that fails leaves, where the sequencer was IDLE (R292). -/
theorem raiseStatus_of_idle {s : State} (h : s.isIdle) (st : Status) :
    raiseStatus st s = s.answers [st.code.setWidth 32] := by
  rw [raiseStatus_eq, State.answers, ← h]

/-- What an OK response leaves, where the sequencer was IDLE (R112). -/
theorem respond_ok_of_idle {s : State} (h : s.isIdle) (r : List Word) :
    respond .ok r s = s.answers (0x00000000 :: r) := by
  unfold respond State.answers
  rw [← h]
  rfl

/-- What the receiver can do at one RS write (R180). -/
theorem observe_cases (cfg : Config) (old new : Lines) (r : Receiver) :
    observe cfg old new r = { r with trxFault := true } ∨
    (new.clr = 1 ∧ observe cfg old new r = r.cleared cfg) ∨
    (new.clr ≠ 1 ∧ old.clk = 1 ∧ new.clk = 0 ∧ new.en = 1 ∧ observe cfg old new r = r.latch new.din) ∨
    (new.clr ≠ 1 ∧ old.clk = 0 ∧ new.clk = 1 ∧ new.en = 0 ∧ observe cfg old new r = r.capture cfg new.din) ∨
    (new.clr ≠ 1 ∧ observe cfg old new r = r) := by
  unfold observe
  split
  · exact .inl rfl
  · split
    · next h => exact .inr (.inl ⟨h, rfl⟩)
    · next hc =>
      split
      · next h => exact .inr (.inr (.inl ⟨hc, h.1, h.2.1, h.2.2, rfl⟩))
      · split
        · next h => exact .inr (.inr (.inr (.inl ⟨hc, h.1, h.2.1, h.2.2, rfl⟩)))
        · exact .inr (.inr (.inr (.inr ⟨hc, rfl⟩)))

/-- With the clear low, a write that leaves the clock alone leaves the receiver alone (R183). -/
theorem observe_same_clk {cfg : Config} {old new : Lines} {r : Receiver} (hclk : old.clk = new.clk)
    (hclr : new.clr ≠ 1) : observe cfg old new r = r := by
  unfold observe
  rw [if_neg (fun h => h.1 hclk), if_neg hclr, if_neg, if_neg]
  · rintro ⟨h0, h1, -⟩; rw [hclk, h1] at h0; cases h0
  · rintro ⟨h1, h0, -⟩; rw [hclk, h0] at h1; cases h1

/-- With the clear high, a write that changes at most one line clears the receiver (R185). -/
theorem observe_clr {cfg : Config} {old new : Lines} {r : Receiver}
    (hone : old.clk = new.clk ∨ (old.en = new.en ∧ old.clr = new.clr ∧ old.din = new.din))
    (hclr : new.clr = 1) : observe cfg old new r = r.cleared cfg := by
  unfold observe
  rw [if_neg, if_pos hclr]
  rintro ⟨h, h'⟩
  rcases hone with hone | ⟨h1, h2, h3⟩
  · exact h hone
  · simp [h1, h2, h3] at h'

/-- The word address of a descriptor that passes the checks of R71. -/
theorem addrCheck_none {cfg : Config} {b : BitVec 2} {o : Word} :
    addrCheck cfg b o = none ↔ cfg.ea b o < cfg.aw.size ∧ cfg.ea b o % 4 = 0 := by
  unfold addrCheck
  split
  · next h => simp; omega
  · next h =>
    split
    · next h' => simp [h']
    · next h' => simp only [true_iff]; omega

/-- A field write's word, read back (R39, R142). -/
theorem readWord_fieldWrite_same {s : State} (hrs : s.rs.wf) (d : Desc) (v : Word) :
    (fieldWrite d v s).rs.readWord (s.cfg.addr d) = d.merge (s.rs.readWord (s.cfg.addr d)) v := by
  rw [fieldWrite_rs, Memory.readWord_writeWord_same hrs]

/-- Every other word is as before (R145). -/
theorem readWord_fieldWrite_ne {s : State} (d : Desc) (v : Word) {b : Nat} (hd : s.cfg.addr d % 4 = 0)
    (hb : b % 4 = 0) (h : b ≠ s.cfg.addr d) : (fieldWrite d v s).rs.readWord b = s.rs.readWord b := by
  rw [fieldWrite_rs, Memory.readWord_writeWord_ne _ _ hd hb h]

theorem mem_allLines (l : Line) : l ∈ allLines := by cases l <;> simp [allLines]

/-- The four lines' descriptors are legal fields of aligned words below `2^AW` (R37 WF2, WF3). -/
theorem Config_wf_line {cfg : Config} (h : cfg.wf) (l : Line) :
    (lineDesc cfg l).wellFormed ∧ (lineDesc cfg l).width = lineWidth l ∧
    cfg.addr (lineDesc cfg l) < cfg.aw.size ∧ cfg.addr (lineDesc cfg l) % 4 = 0 :=
  ⟨(h.2.1 l (mem_allLines l)).1, (h.2.1 l (mem_allLines l)).2, (h.2.2.1 l (mem_allLines l)).1,
    (h.2.2.1 l (mem_allLines l)).2⟩

/-- A field write on one line sets that line's value and no other (R145, R37 WF4). -/
theorem lineValue_fieldWrite {s : State} (hcfg : s.cfg.wf) (hrs : s.rs.wf) (l m : Line) (v : Word) :
    lineValue s.cfg (fieldWrite (lineDesc s.cfg l) v s).rs m =
      if m = l then v &&& mask (lineWidth l) else lineValue s.cfg s.rs m := by
  have hl := Config_wf_line hcfg l
  have hm := Config_wf_line hcfg m
  split
  · next h =>
    subst h
    rw [← hl.2.1, lineValue, readWord_fieldWrite_same hrs, Desc.fieldval_merge hl.1]
  · next h =>
    unfold lineValue
    by_cases ha : s.cfg.addr (lineDesc s.cfg m) = s.cfg.addr (lineDesc s.cfg l)
    · have hdis := hcfg.2.2.2.1 l (mem_allLines l) m (mem_allLines m) (Ne.symm h) ha.symm
      rw [ha, readWord_fieldWrite_same hrs, Desc.fieldval_merge_other hdis]
    · rw [readWord_fieldWrite_ne _ _ hl.2.2.2 hm.2.2.2 ha]

theorem setWidth_and_mask (v : Word) (w : Nat) (hw : w ≤ 32) : (v &&& mask w).setWidth w = v.setWidth w := by
  apply BitVec.eq_of_getLsbD_eq
  intro i hi
  simp [getLsbD_mask, hi, show i < 32 by omega]

/-- The line levels after a field write on one line (R175). -/
theorem lines_fieldWrite {s : State} (hcfg : s.cfg.wf) (hrs : s.rs.wf) (l : Line) (v : Word) :
    (fieldWrite (lineDesc s.cfg l) v s).lines = s.lines.set l v := by
  have h := lineValue_fieldWrite hcfg hrs l
  unfold State.lines linesOf
  rw [fieldWrite_cfg, h .clk, h .din, h .en, h .clr]
  cases l <;>
    simp only [reduceCtorEq, ite_true, ite_false, Lines.set, lineWidth, setWidth_and_mask _ 1 (by omega),
      setWidth_and_mask _ 8 (by omega)]

/-- A field write keeps RS in canonical form. -/
theorem fieldWrite_rs_wf {s : State} (hrs : s.rs.wf) (d : Desc) (v : Word) : (fieldWrite d v s).rs.wf := by
  rw [fieldWrite_rs]
  exact Memory.writeWord_wf hrs _ _

/-- Where the sequencer is IDLE no phase runs. -/
theorem runPhases_idle (n : Nat) {s : State} (h : s.isIdle) : runPhases n s = s := by
  cases n with
  | zero => rfl
  | succ n => unfold runPhases; rw [if_pos h]

/-- Where it is BUSY one phase runs, then the rest. -/
theorem runPhases_busy (n : Nat) {s : State} {cmd : Activity} (h : s.seq = .busy cmd) :
    runPhases (n + 1) s = runPhases n (advance s) := by
  conv_lhs => unfold runPhases
  rw [if_neg (by rw [h]; exact nofun)]

/-- What every phase keeps, the run keeps. -/
theorem runPhases_keeps {P : State → Prop} (hP : ∀ s, P s → P (advance s)) (n : Nat) {s : State} (h : P s) :
    P (runPhases n s) := by
  induction n generalizing s with
  | zero => exact h
  | succ n ih =>
    unfold runPhases
    split
    · exact h
    · exact ih (hP s h)

/-- What every phase keeps, `finish` keeps. -/
theorem finish_keeps {P : State → Prop} (hP : ∀ s, P s → P (advance s)) {s : State} (h : P s) : P (finish s) := by
  unfold finish
  split
  · exact h
  · exact runPhases_keeps hP _ h

/-- What one phase can do: a response, a move of the DIV state, or a line write of a TEST_WRITE (R172). -/
theorem advance_cases (s : State) :
    (s.isIdle ∧ advance s = s) ∨
    (∃ d v, s.seq = .busy (.fieldWrite d v) ∧ advance s = respond .ok [] (fieldWrite d v s)) ∨
    (∃ b o, s.seq = .busy (.regRead b o) ∧
      advance s = respond .ok [s.rs.readWord (s.cfg.ea b o)] (rsRead (s.cfg.ea b o) s).2) ∨
    (∃ t l v, s.seq = .busy (.testWrite t) ∧ tibWrite t = some (l, v) ∧
      advance s = (fieldWrite (lineDesc s.cfg l) v s).setSeq (.busy (.testWrite (tibNext t)))) ∨
    (∃ st r, advance s = respond st r s) ∨
    (∃ c, advance s = s.setSeq (.busy (.solve c))) ∨
    (∃ c, advance s = s.setSeq (.busy (.frLookup c))) := by
  unfold advance
  split
  · next h => exact .inl ⟨h, rfl⟩
  · next d v h => exact .inr (.inl ⟨d, v, h, rfl⟩)
  · next b o h => exact .inr (.inr (.inl ⟨b, o, h, rfl⟩))
  · next t h =>
    unfold advanceTib
    split
    · exact .inr (.inr (.inr (.inr (.inl ⟨_, _, rfl⟩))))
    · next l v hw => exact .inr (.inr (.inr (.inl ⟨t, l, v, h, hw, rfl⟩)))
  · unfold advanceSolve solveEnd raiseStatus
    split
    · exact .inr (.inr (.inr (.inr (.inr (.inl ⟨_, rfl⟩)))))
    · split
      · exact .inr (.inr (.inr (.inr (.inl ⟨_, _, rfl⟩))))
      · exact .inr (.inr (.inr (.inr (.inl ⟨_, _, rfl⟩))))
  · unfold advanceLookup lookupEnd raiseStatus
    split
    · exact .inr (.inr (.inr (.inr (.inr (.inr ⟨_, rfl⟩)))))
    · split
      · exact .inr (.inr (.inr (.inr (.inl ⟨_, _, rfl⟩))))
      · split
        · exact .inr (.inr (.inr (.inr (.inl ⟨_, _, rfl⟩))))
        · exact .inr (.inr (.inr (.inr (.inl ⟨_, _, rfl⟩))))

/-- FIELD_WRITE's one phase (R142, R148). -/
theorem runCommand_fieldWrite (d : Desc) (v : Word) (s : State) :
    runCommand (.fieldWrite d v) s = respond .ok [] (fieldWrite d v s) := rfl

/-- REG_READ's one phase (R150). -/
theorem runCommand_regRead (b : BitVec 2) (o : Word) (s : State) :
    runCommand (.regRead b o) s =
      respond .ok [s.rs.readWord (s.cfg.ea b o)] (rsRead (s.cfg.ea b o) s).2 := rfl

/-- A command that passed its checks ran from its start to its response (R32). -/
def ranCommand (s t : State) : Instr → Prop
  | .fieldWrite d v => d.wellFormed ∧ addrCheck s.cfg d.bsel d.offset = none ∧ t = runCommand (.fieldWrite d v) s
  | .regRead b o => addrCheck s.cfg b o = none ∧ t = runCommand (.regRead b o) s
  | .testWrite code data =>
    (1 ≤ data.length ∧ data.length ≤ Const.nMax) ∧ t = runCommand (.testWrite (tibStart code data)) s
  | .solve ref tgt =>
    minPreDiv ref.toNat ≤ maxPreDiv ref.toNat ∧ t = runCommand (.solve (solveStart ref.toNat tgt.toNat)) s
  | .frLookup clk => t = runCommand (.frLookup ⟨clk.toNat, 0, none⟩) s

theorem addrCheck_ne_ok {cfg : Config} {b : BitVec 2} {o : Word} {st : Status} (h : addrCheck cfg b o = some st) :
    st ≠ .ok := by
  rintro rfl
  unfold addrCheck at h
  split at h
  · cases h
  · split at h <;> cases h

/-- Where `exec` answers a next state, the sequencer was ready, and the command either ended with a status before
its first access (R292) or ran from its start to its response (R32). -/
theorem exec_next {i : Instr} {s t : State} (h : exec i s = .next t) :
    s.ready ∧ ((∃ st, st ≠ .ok ∧ t = raiseStatus st s) ∨ ranCommand s t i) := by
  cases i with
  | fieldWrite d v =>
    change execFieldWrite d v s = _ at h
    unfold execFieldWrite at h
    obtain ⟨hr, ht⟩ := accept_next h
    refine ⟨hr, ?_⟩
    split at ht
    · exact .inl ⟨.illegal, nofun, ht⟩
    · next hd =>
      split at ht
      · next st hst => exact .inl ⟨st, addrCheck_ne_ok hst, ht⟩
      · next hst => exact .inr ⟨not_not.1 hd, hst, ht⟩
  | regRead b o =>
    change execRegRead b o s = _ at h
    unfold execRegRead at h
    obtain ⟨hr, ht⟩ := accept_next h
    refine ⟨hr, ?_⟩
    split at ht
    · next st hst => exact .inl ⟨st, addrCheck_ne_ok hst, ht⟩
    · next hst => exact .inr ⟨hst, ht⟩
  | testWrite code data =>
    change execTestWrite code data s = _ at h
    unfold execTestWrite at h
    obtain ⟨hr, ht⟩ := accept_next h
    refine ⟨hr, ?_⟩
    split at ht
    · exact .inl ⟨.illegal, nofun, ht⟩
    · next hd => exact .inr ⟨by omega, ht⟩
  | solve ref tgt =>
    change execSolve ref tgt s = _ at h
    unfold execSolve at h
    obtain ⟨hr, ht⟩ := accept_next h
    refine ⟨hr, ?_⟩
    split at ht
    · exact .inl ⟨.einvalRefclk, nofun, ht⟩
    · next hd => exact .inr ⟨by omega, ht⟩
  | frLookup clk =>
    change execFrLookup clk s = _ at h
    exact ⟨(accept_next h).1, .inr (accept_next h).2⟩

/-- What a step can do, where it answers a next state: it waits or performs the command under way, answers a
request that is no command with ILLEGAL, runs the command a request stands for, or resets. -/
theorem step_next {s t : State} (h : step s = .next t) :
    (s.inbox = [] ∧ s.cfg.wf ∧ t = finish s) ∨
    ∃ e rest, s.inbox = e :: rest ∧
      ((∃ ws err, e = .request ws ∧ decode ws = .error err ∧ err ≠ .empty ∧
          State.ready { s with inbox := rest } ∧ t = raiseStatus .illegal { s with inbox := rest }) ∨
       (∃ ws i, e = .request ws ∧ decode ws = .ok i ∧ exec i { s with inbox := rest } = .next t) ∨
       (∃ r, e = .reset r ∧ s.ready ∧ t = applyReset r { s with inbox := rest })) := by
  unfold step at h
  split at h
  · next hi =>
    unfold noEvent at h
    split at h
    · cases h
    · next hw => exact .inl ⟨hi, not_not.1 hw, by injection h with h; exact h.symm⟩
  · next e rest hi =>
    refine .inr ⟨e, rest, hi, ?_⟩
    cases e with
    | request ws =>
      change deliver ws _ = _ at h
      unfold deliver at h
      split at h
      · next i hd => exact .inr (.inl ⟨ws, i, rfl, hd, h⟩)
      · cases h
      · next err hne hd =>
        obtain ⟨hr, ht⟩ := accept_next h
        exact .inl ⟨ws, err, rfl, hd, hne, hr, ht⟩
    | foreignWrite a v => cases h
    | reset r =>
      change resetEvent r _ = _ at h
      unfold resetEvent at h
      split at h
      · cases h
      · split at h
        · cases h
        · next h1 h2 =>
          exact .inr (.inr ⟨r, rfl, ⟨not_not.1 h1, not_not.1 h2⟩, by injection h with h; exact h.symm⟩)

end Sys2Proof.Machine
end

