-- ==== Sys2Proof/Laws/PerInstr.lean ====
section
/-! SUPPORT. What the encoding of each command is like, one lemma per constructor (30_encoding.md R101 to R108). -/

namespace Sys2Proof

/-- The format of a command (R101). -/
def Instr.format : Instr → Format
  | .fieldWrite _ _ => .f
  | .regRead _ _ => .r
  | .testWrite _ _ => .t
  | .solve _ _ => .s
  | .frLookup _ => .l

/-- Data bytes packed four to a word take `ceil_div(N, 4)` words (R106). -/
theorem packBytes_length (data : List Byte) : (packBytes data).length = ceilDiv data.length 4 := by
  induction data using packBytes.induct with
  | case1 => rfl
  | case2 => simp [packBytes, ceilDiv]
  | case3 => simp [packBytes, ceilDiv]
  | case4 => simp [packBytes, ceilDiv]
  | case5 a b c d rest ih => simp only [packBytes, List.length_cons, ih, ceilDiv]; omega

/-- The count field of a Format T header (R104). -/
theorem dataCount_header (n code : Byte) : dataCount (0#8 ++ n ++ code ++ 0x03#8) = n.toNat := by
  unfold dataCount
  congr 1
  apply BitVec.eq_of_getLsbD_eq
  intro i hi
  rw [BitVec.getLsbD_extractLsb', BitVec.getLsbD_append, BitVec.getLsbD_append, BitVec.getLsbD_append]
  simp [hi, show ¬16 + i < 8 by omega, show ¬16 + i - 8 < 8 by omega, show 16 + i - 8 - 8 = i by omega]

/-- The low byte of a header is its opcode (R101). -/
theorem opcodeOf_append {n : Nat} (hi : BitVec n) (op : Byte) (h : n + 8 = 32) :
    opcodeOf ((hi ++ op).cast h) = op := by
  unfold opcodeOf
  apply BitVec.eq_of_getLsbD_eq
  intro i hi'
  rw [BitVec.getLsbD_extractLsb', BitVec.getLsbD_cast, BitVec.getLsbD_append]
  simp [hi']

namespace Laws.EncodeHeader

/-- The first word of the encoding names the command's format and has every reserved bit zero, and a well-formed
command's encoding has the length the format gives it. -/
def Statement (i : Instr) : Prop :=
  ∃ header body, encode i = header :: body ∧ formatOf (opcodeOf header) = some i.format ∧
    header &&& reservedMask i.format = 0 ∧
    (i.wellFormed = true → body.length + 1 = requestLength i.format header)

theorem fieldWrite (d : Desc) (value : Word) : Statement (.fieldWrite d value) := by
  refine ⟨_, _, rfl, ?_, ?_, fun _ => rfl⟩
  · rw [show opcodeOf (0#12 ++ (descEncode d).1 ++ 0x01#8) = 0x01#8 from opcodeOf_append _ _ rfl]
    rfl
  · apply BitVec.eq_of_getLsbD_eq
    intro i hi
    rw [BitVec.getLsbD_and, BitVec.getLsbD_append, BitVec.getLsbD_append]
    interval_cases i <;> simp [reservedMask, Instr.format]

theorem regRead (bsel : BitVec 2) (offset : Word) : Statement (.regRead bsel offset) := by
  refine ⟨_, _, rfl, ?_, ?_, fun _ => rfl⟩
  · rw [show opcodeOf (0#12 ++ bsel ++ 0#10 ++ 0x02#8) = 0x02#8 from opcodeOf_append _ _ rfl]
    rfl
  · apply BitVec.eq_of_getLsbD_eq
    intro i hi
    rw [BitVec.getLsbD_and, BitVec.getLsbD_append, BitVec.getLsbD_append, BitVec.getLsbD_append]
    interval_cases i <;> simp [reservedMask, Instr.format]

theorem testWrite (code : Byte) (data : List Byte) : Statement (.testWrite code data) := by
  refine ⟨_, _, rfl, ?_, ?_, fun h => ?_⟩
  · rw [show opcodeOf (0#8 ++ BitVec.ofNat 8 data.length ++ code ++ 0x03#8) = 0x03#8 from
      opcodeOf_append _ _ rfl]
    rfl
  · apply BitVec.eq_of_getLsbD_eq
    intro i hi
    rw [BitVec.getLsbD_and, BitVec.getLsbD_append, BitVec.getLsbD_append, BitVec.getLsbD_append]
    interval_cases i <;> simp [reservedMask, Instr.format]
  · have hn : 1 ≤ data.length ∧ data.length ≤ 255 := of_decide_eq_true h
    change _ = 1 + ceilDiv (dataCount _) 4
    rw [packBytes_length, dataCount_header, BitVec.toNat_ofNat, Nat.mod_eq_of_lt (by omega), Nat.add_comm]

theorem solve (ref target : Word) : Statement (.solve ref target) :=
  ⟨_, _, rfl, rfl, by simp [reservedMask, Instr.format], fun _ => rfl⟩

theorem frLookup (clk : Word) : Statement (.frLookup clk) :=
  ⟨_, _, rfl, rfl, by simp [reservedMask, Instr.format], fun _ => rfl⟩

end Laws.EncodeHeader

end Sys2Proof
end

