-- ==== Sys2Proof/Laws/TestInterface.lean ====
section
/-! SUPPORT. What a list of line writes does: the state's fields, the line levels, the receiver; and what one phase of a
TEST_WRITE does (42_test_interface.md R172, R175, R180). -/

namespace Sys2Proof.Machine

@[simp] theorem writeLines_nil (s : State) : writeLines [] s = s := rfl

theorem writeLines_cons (w : Line × Word) (ws : List (Line × Word)) (s : State) :
    writeLines (w :: ws) s = writeLines ws (fieldWrite (lineDesc s.cfg w.1) w.2 s) := rfl

theorem writeLines_append (ws ws' : List (Line × Word)) (s : State) :
    writeLines (ws ++ ws') s = writeLines ws' (writeLines ws s) := by
  unfold writeLines
  exact List.foldl_append

/-- What every line write keeps, a list of them keeps. -/
theorem writeLines_keeps {P : State → Prop} (hP : ∀ s l v, P s → P (fieldWrite (lineDesc s.cfg l) v s))
    (ws : List (Line × Word)) {s : State} (h : P s) : P (writeLines ws s) := by
  induction ws generalizing s with
  | nil => exact h
  | cons w ws ih => exact ih (hP _ _ _ h)

@[simp] theorem writeLines_cfg (ws : List (Line × Word)) (s : State) : (writeLines ws s).cfg = s.cfg :=
  writeLines_keeps (P := fun t => t.cfg = s.cfg) (fun _ _ _ h => h) ws rfl

@[simp] theorem writeLines_seq (ws : List (Line × Word)) (s : State) : (writeLines ws s).seq = s.seq :=
  writeLines_keeps (P := fun t => t.seq = s.seq) (fun _ _ _ h => h) ws rfl

@[simp] theorem writeLines_refused (ws : List (Line × Word)) (s : State) : (writeLines ws s).refused = s.refused :=
  writeLines_keeps (P := fun t => t.refused = s.refused) (fun _ _ _ h => h) ws rfl

@[simp] theorem writeLines_inbox (ws : List (Line × Word)) (s : State) : (writeLines ws s).inbox = s.inbox :=
  writeLines_keeps (P := fun t => t.inbox = s.inbox) (fun _ _ _ h => h) ws rfl

@[simp] theorem writeLines_outbox (ws : List (Line × Word)) (s : State) : (writeLines ws s).outbox = s.outbox :=
  writeLines_keeps (P := fun t => t.outbox = s.outbox) (fun _ _ _ h => h) ws rfl

/-- Line writes keep RS in canonical form. -/
theorem writeLines_rs_wf (ws : List (Line × Word)) {s : State} (h : s.rs.wf) : (writeLines ws s).rs.wf :=
  writeLines_keeps (P := fun t => t.rs.wf) (fun _ _ _ h => fieldWrite_rs_wf h _ _) ws h

/-- Line writes move the levels as `levelsAfter` says (R175). -/
theorem writeLines_lines (ws : List (Line × Word)) {s : State} (hcfg : s.cfg.wf) (hrs : s.rs.wf) :
    (writeLines ws s).lines = levelsAfter ws s.lines := by
  induction ws generalizing s with
  | nil => rfl
  | cons w ws ih =>
    rw [writeLines_cons, ih (s := fieldWrite (lineDesc s.cfg w.1) w.2 s) hcfg (fieldWrite_rs_wf hrs _ _),
      lines_fieldWrite hcfg hrs]
    rfl

/-- The receiver over a list of line writes, from the levels before it (R180). -/
def receiverAfter (cfg : Config) : List (Line × Word) → Lines → Receiver → Receiver
  | [], _, r => r
  | w :: ws, ls, r => receiverAfter cfg ws (ls.set w.1 w.2) (observe cfg ls (ls.set w.1 w.2) r)

/-- Line writes move the receiver as `receiverAfter` says (R180). -/
theorem writeLines_trx (ws : List (Line × Word)) {s : State} (hcfg : s.cfg.wf) (hrs : s.rs.wf) :
    (writeLines ws s).trx = receiverAfter s.cfg ws s.lines s.trx := by
  induction ws generalizing s with
  | nil => rfl
  | cons w ws ih =>
    rw [writeLines_cons, ih (s := fieldWrite (lineDesc s.cfg w.1) w.2 s) hcfg (fieldWrite_rs_wf hrs _ _),
      fieldWrite_trx, lines_fieldWrite hcfg hrs]
    rfl

/-- A phase with a line write performs it and moves on (R172). -/
theorem runPhases_tib {t : TibState} {l : Line} {v : Word} (h : tibWrite t = some (l, v)) (n : Nat) (s : State) :
    runPhases (n + 1) (s.setSeq (.busy (.testWrite t))) =
      runPhases n ((fieldWrite (lineDesc s.cfg l) v s).setSeq (.busy (.testWrite (tibNext t)))) := by
  rw [runPhases_busy n (setSeq_seq _ _)]
  congr 1
  change advanceTib t _ = _
  unfold advanceTib
  rw [h]
  rfl

/-- DONE responds with OK (R172). -/
theorem runPhases_done {t : TibState} (h : t.phase = .done) (n : Nat) (s : State) :
    runPhases (n + 1) (s.setSeq (.busy (.testWrite t))) = respond .ok [] s := by
  have hw : tibWrite t = none := by unfold tibWrite; rw [h]
  rw [runPhases_busy n (setSeq_seq _ _)]
  have ha : advance (s.setSeq (.busy (.testWrite t))) = respond .ok [] s := by
    change advanceTib t _ = _
    unfold advanceTib
    rw [hw]
    rfl
  rw [ha, runPhases_idle n (respond_seq _ _ _)]

end Sys2Proof.Machine
end

