-- ==== Sys2Proof/Tests/Slice0.lean ====
section
/-! SUPPORT. The model's own tests. Expected words and results are those of spec/30_encoding.md R117 and
spec/95_test_vectors.md, or are computed by hand from the rule a test names. The theorems `test_witness_<Name>` show values that
meet the hypotheses of the statement `<Name>`, clause by clause, at the edges of their ranges. -/

namespace Sys2Proof.Tests

open Sys2Proof.Machine

/-- The machine after reset with the given bytes in RS. -/
def withRs (cells : List Host.Cell) : State := { State.reset with rs := Memory.ofCells cells }

/-- `test_clk = 1` in CFG-X, whose `DESC_TESTCLK` is bit 1 of the word at 0x100000B4. -/
def clkHigh : State := withRs [(0x100000B4, 0x02)]

/-- `test_clear = 1` in CFG-X, whose `DESC_TESTCLR` is bit 0 of the word at 0x100000B4. -/
def clrHigh : State := withRs [(0x100000B4, 0x01)]

/-- The machine after reset with a code latched. -/
def latched : State := { State.reset with trx := { State.reset.trx with codeLatch := some 0x44 } }

/-- The machine after reset, the address policy INCR. -/
def incr : State := { clkHigh with cfg := { Config.illustrative with multiByte := .incr } }

/-- The machine after reset in the middle of a SOLVE. -/
def busy : State := { State.reset with seq := .busy (.solve (solveStart 24000000 1500000000)) }

/-- A configuration with a misaligned base. -/
def badConfig : Config := { Config.illustrative with base := #v[2, 0, 0, 0] }

/-- The machine with a misaligned base. -/
def illFormed : State := State.launch badConfig []

/-- The machine with a misaligned base, in the middle of a SOLVE. -/
def illFormedBusy : State := { illFormed with seq := busy.seq }

/-- The machine with events waiting. -/
def withInbox (es : List HostEvent) (s : State) : State := { s with inbox := es }

/-- The responses after an outcome that is a next state. -/
def outboxOf (o : Host.Outcome State Fault Refusal) : Option (List (List Word)) :=
  match o with
  | .next s => some s.outbox
  | _ => none

/-- What `f` reads in the next state. -/
def after {α : Type} (f : State → α) (o : Host.Outcome State Fault Refusal) : Option α :=
  match o with
  | .next s => some (f s)
  | _ => none

/-! ## Well-formedness -/

theorem test_wf_field_past_bit_31 : (Instr.fieldWrite ⟨0, 0, 1, 31⟩ 0).wellFormed = false := by decide
theorem test_wf_field_to_bit_31 : (Instr.fieldWrite ⟨0, 0, 0, 31⟩ 0).wellFormed = true := by decide
theorem test_wf_no_data : (Instr.testWrite 0x10 []).wellFormed = false := by decide
theorem test_wf_256_bytes (data : List Byte) (h : data.length = 256) :
    (Instr.testWrite 0x10 data).wellFormed = false := decide_eq_false (by rw [h]; decide)
theorem test_wf_255_bytes (data : List Byte) (h : data.length = 255) :
    (Instr.testWrite 0x10 data).wellFormed = true := decide_eq_true (by rw [h]; decide)
theorem test_wf1_misaligned_base : ¬badConfig.wf1 := by decide
theorem test_wf1_base_too_high : ¬({ Config.illustrative with base := #v[2 ^ 32, 0, 0, 0] } : Config).wf1 := by decide
theorem test_wf2_wrong_width : ¬({ Config.illustrative with testDin := ⟨0, 0xB8, 6, 0⟩ } : Config).wf2 := by decide
theorem test_wf3_misaligned_line : ¬({ Config.illustrative with testEn := ⟨0, 0xBA, 0, 16⟩ } : Config).wf3 := by decide
theorem test_wf4_shared_bit : ¬({ Config.illustrative with testEn := ⟨0, 0xB8, 0, 7⟩ } : Config).wf4 := by decide
theorem test_wf5_empty_table : ¬({ Config.illustrative with frTable := [] } : Config).wf5 := by decide
theorem test_reset_ready : State.reset.ready := by decide

/-! ## Encodings, written out from R102 to R108: reserved bits, fields and opcode from bit 31 down -/

/-- Format F: `BSEL` 19:18, `WM1` 17:13, `BOFF` 12:8. -/
theorem test_decode_field_write :
    decode [0#12 ++ 0b10#2 ++ 0b00111#5 ++ 0b00100#5 ++ 0b00000001#8, 0x40, 0xA5] =
      .ok (.fieldWrite ⟨2, 0x40, 7, 4⟩ 0xA5) := by rfl

/-- Format R: `BSEL` 19:18, bits 17:8 reserved. -/
theorem test_decode_reg_read :
    decode [0#12 ++ 0b11#2 ++ 0#10 ++ 0b00000010#8, 0x440] = .ok (.regRead 3 0x440) := by rfl

/-- Format T: `N` 23:16, `CODE` 15:8; byte 0 lowest. -/
theorem test_decode_test_write :
    decode [0#8 ++ 0b00000101#8 ++ 0xAB#8 ++ 0b00000011#8, 0x04030201, 0x00000005] =
      .ok (.testWrite 0xAB [1, 2, 3, 4, 5]) := by rfl

/-- Format S: the reference clock, then the target. -/
theorem test_decode_solve :
    decode [0#24 ++ 0b00000100#8, 0x016E3600, 0x59682F00] = .ok (.solve 24000000 1500000000) := by rfl

/-- Format L. -/
theorem test_decode_fr_lookup : decode [0#24 ++ 0b00000101#8, 0x59682F00] = .ok (.frLookup 1500000000) := by rfl

theorem test_encode_field_write : encode (.fieldWrite ⟨0, 0x40, 7, 4⟩ 0xA5) = [0x0000E401, 0x40, 0xA5] := by decide
theorem test_encode_test_write :
    encode (.testWrite 0xAB [1, 2, 3, 4, 5]) = [0x0005AB03, 0x04030201, 0x00000005] := by decide

theorem test_illegal_opcode_0 : decode [0x00000000] = .error .badOpcode := by rfl
theorem test_illegal_opcode_6 : decode [0x00000006] = .error .badOpcode := by rfl
theorem test_illegal_reserved_bit : decode [0x00000102, 0x440] = .error .reservedBits := by rfl
theorem test_illegal_length : decode [0x00000005] = .error .badLength := by rfl
theorem test_illegal_wide_field : decode [0x00007E01, 0, 0] = .error .fieldTooWide := by rfl
theorem test_illegal_no_data : decode [0x00001003] = .error .noData := by rfl
theorem test_illegal_pad : decode [0x00011003, 0x00000183] = .error .padNotZero := by rfl
/-- R291: the reserved bits are checked before the length. -/
theorem test_illegal_order : decode [0x00100001] = .error .reservedBits := by rfl

/-- The table's bits above the first word continue it: word 1 is bits 63:32. -/
theorem test_table_word_reg_read : decodeTableWord 64 0x0000044000040002 = some (.regRead 1 0x440) := by rfl
theorem test_table_word_short : decodeTableWord 32 0x00000001 = some (.fieldWrite ⟨0, 0, 0, 0⟩ 0) := by rfl
/-- The TEST_WRITE row with every free bit zero has `N = 0`, which is ILLEGAL (R111 IL5). -/
theorem test_table_word_no_data : decodeTableWord 32 0x00000003 = none := by rfl
theorem test_table_word_test_write : decodeTableWord 32 0x00011003 = some (.testWrite 0x10 [0]) := by rfl

/-- R116: `tclr.pulse` is a write of 1, then of 0, to TESTCLR. -/
theorem test_assemble_pulse :
    Asm.assemble Config.illustrative [] 4 "tclr.pulse ; clear".toList =
      .ok [[0x00000001, 0xB4, 1], [0x00000001, 0xB4, 0]] := by rfl

/-! ## One step of each command -/

/-- R142's example: field [11:4] of 0xFFFFFFFF, value 0x1A5. -/
theorem test_field_write_merges :
    after (fun s => s.rs.readWord 0x10000040) (exec (.fieldWrite ⟨0, 0x40, 7, 4⟩ 0x1A5)
      (withRs [(0x10000040, 0xFF), (0x10000041, 0xFF), (0x10000042, 0xFF), (0x10000043, 0xFF)])) =
      some 0xFFFFFA5F := by decide

/-- R71: an effective address of exactly `2^32` is EADDR. -/
theorem test_field_write_eaddr :
    outboxOf (exec (.fieldWrite ⟨1, 0xE0000000, 31, 0⟩ 0) State.reset) = some [[0x02]] := by decide

/-- R150: the word, least significant byte lowest (assumption log 3). -/
theorem test_reg_read :
    outboxOf (exec (.regRead 0 0x40) (withRs [(0x10000040, 0x5F), (0x10000041, 0xFA)])) =
      some [[0x00, 0xFA5F]] := by decide

theorem test_reg_read_misaligned : outboxOf (exec (.regRead 0 0x41) State.reset) = some [[0x03]] := by decide

/-- R186: after the transfer the code's register holds the byte. -/
theorem test_test_write :
    after (fun s => (s.trx.treg[0x10], s.trx.codeLatch, s.trx.k, s.trx.trxFault))
      (exec (.testWrite 0x10 [0x83]) clkHigh) = some (some 0x83, some 0x10, 1, false) := by decide

/-- R331: from reset `clk`, `en` and `clr` are 0 and no code is latched, so the first transfer's C1 sets the mark. -/
theorem test_test_write_stale :
    after (fun s => (s.outbox, s.trx.trxFault)) (exec (.testWrite 0x10 [0x83]) State.reset) =
      some ([[0x00]], true) := by decide

/-- R210's example. -/
theorem test_solve :
    outboxOf (exec (.solve 24000000 1500000000) State.reset) = some [[0x00, 2, 125, 1500000000]] := by decide

/-- R214: at 5 MHz `max_p = min_p = 1`, an empty range. -/
theorem test_solve_empty_range : outboxOf (exec (.solve 5000000 100000000) State.reset) = some [[0x11]] := by decide

/-- R220's example: the later of the two entries of 1500 MHz. -/
theorem test_fr_lookup : outboxOf (exec (.frLookup 1500000000) State.reset) = some [[0x00, 0x2F, 6]] := by decide

/-- R222: 79 999 999 Hz is 79 MHz, below every threshold. -/
theorem test_fr_lookup_none : outboxOf (exec (.frLookup 79999999) State.reset) = some [[0x12]] := by decide

/-- The host's table word is the first request after reset. -/
theorem test_step_runs_fetch_word :
    outboxOf (step (State.reset.withFetchWord 64 0x59682F0000000005)) = some [[0x00, 0x2F, 6]] := by decide

/-! ## Witnesses: values that meet the hypotheses of each statement -/

theorem test_witness_DecodeInvertsEncode :
    (Instr.fieldWrite ⟨3, 0xFFFFFFFF, 31, 0⟩ 0xFFFFFFFF).wellFormed = true ∧
    (Instr.testWrite 0xFF [1]).wellFormed = true := by decide

theorem test_witness_EncodeInvertsDecode : decode [0x00011003, 0x00000083] = .ok (.testWrite 0x10 [0x83]) := by rfl

theorem test_witness_IllegalRequestAnswersStatusOnly :
    (withInbox [.request [0x00000006]] State.reset).ready ∧
    (withInbox [.request [0x00000006]] State.reset).inbox = .request (0x00000006 :: []) :: [] ∧
    isIllegal 0x00000006 [] := ⟨by decide, rfl, .inl (by unfold il1; decide)⟩

theorem test_witness_TestWriteRequestLength :
    1 ≤ (List.replicate 255 (0 : Byte)).length ∧ (List.replicate 255 (0 : Byte)).length ≤ 255 ∧
    1 ≤ [(0 : Byte)].length ∧
    decode [0x00011003, 0x00000083] = .ok (.testWrite 0x10 [0x83]) :=
  ⟨by rw [List.length_replicate]; decide, List.length_replicate.le, by decide, rfl⟩

/-- Bytes 0 to 4 are data, bytes 5 to 7 are pad. -/
theorem test_witness_DataBytesPackLittleEndian :
    decode [0x0005AB03, 0x04030201, 0x00000005] = .ok (.testWrite 0xAB [1, 2, 3, 4, 5]) ∧
    4 < [(1 : Byte), 2, 3, 4, 5].length ∧ [(1 : Byte), 2, 3, 4, 5].length ≤ 5 ∧
    7 < 4 * ([(0x0005AB03 : Word), 0x04030201, 0x00000005].length - 1) := ⟨rfl, by decide, by decide, by decide⟩

theorem test_witness_DescriptorCodecRoundTrip :
    decode [0x00001F01, 0x00000000, 0x00000001] = .ok (.fieldWrite ⟨0, 0, 0, 31⟩ 1) := by rfl

theorem test_witness_StepRunsDecodedCommand :
    (State.reset.withFetchWord 64 0x0000044000040002).inbox = .request [0x00040002, 0x00000440] :: [] ∧
    decode [0x00040002, 0x00000440] = .ok (.regRead 1 0x440) := ⟨rfl, rfl⟩

/-- A field of width 1 at bit 31, and one of the whole word. -/
theorem test_witness_FieldMaskBits :
    (⟨0, 0, 0, 31⟩ : Desc).wellFormed ∧ (⟨0, 0, 31, 0⟩ : Desc).wellFormed ∧ (⟨0, 0, 31, 0⟩ : Desc).width = 32 := by
  decide

/-- Requests that each decode check rejects: a reserved bit, a length, a field too wide, no data, a pad byte. -/
theorem test_witness_decode_checks :
    (opNumber 0x00100001 = 1 ∧ il2 0x00100001) ∧ (opNumber 0x00000001 = 1 ∧ il3 0x00000001 ([(0 : Word)].length + 1)) ∧
    (opNumber 0x00007E01 = 1 ∧ il4 0x00007E01) ∧ (opNumber 0x00000102 = 2 ∧ il2 0x00000102) ∧
    (opNumber 0x00001003 = 3 ∧ il5 0x00001003) ∧ (opNumber 0x00011003 = 3 ∧ il6 0x00011003 [0x00000183]) ∧
    (opNumber 0x80000004 = 4 ∧ il2 0x80000004) ∧ (opNumber 0x00000005 = 5 ∧ il3 0x00000005 (([] : List Word).length + 1)) := by
  refine ⟨⟨rfl, .inl (by decide)⟩, ⟨rfl, .inl (by decide)⟩, ⟨rfl, by unfold il4; decide⟩,
    ⟨rfl, .inr (.inl (by decide))⟩, ⟨rfl, by unfold il5; decide⟩, ⟨rfl, rfl, 1, by decide, by decide, by decide⟩,
    ⟨rfl, .inr (.inr (.inr (.inl (by decide))))⟩, ⟨rfl, .inr (.inr (.inr (.inr (by decide))))⟩⟩

/-- A field one bit too wide; an address of `2^32`; a misaligned address; the highest word of RS. -/
theorem test_witness_FieldWriteFollowsPseudocode :
    State.reset.ready ∧ 32 < (1 : Nat) + Desc.width ⟨0, 0, 31, 1⟩ ∧
    (31 + Desc.width ⟨1, 0xE0000000, 0, 31⟩ ≤ 32 ∧
      State.reset.cfg.aw.size ≤ State.reset.cfg.addr ⟨1, 0xE0000000, 0, 31⟩) ∧
    (State.reset.cfg.addr ⟨1, 0xDFFFFFFF, 0, 31⟩ < State.reset.cfg.aw.size ∧
      State.reset.cfg.addr ⟨1, 0xDFFFFFFF, 0, 31⟩ % 4 ≠ 0) ∧
    (State.reset.cfg.addr ⟨1, 0xDFFFFFFC, 0, 31⟩ < State.reset.cfg.aw.size ∧
      State.reset.cfg.addr ⟨1, 0xDFFFFFFC, 0, 31⟩ % 4 = 0) := by decide

theorem test_witness_FieldWriteRoundTrip :
    clkHigh.ready ∧ clkHigh.rs.wf ∧ (⟨1, 0xDFFFFFFC, 0, 31⟩ : Desc).wellFormed ∧
    clkHigh.cfg.addr ⟨1, 0xDFFFFFFC, 0, 31⟩ < clkHigh.cfg.aw.size ∧
    clkHigh.cfg.addr ⟨1, 0xDFFFFFFC, 0, 31⟩ % 4 = 0 := by decide

/-- The hypotheses are those of `FieldWriteRoundTrip`; other words, other bytes, and a write that moves no line. -/
theorem test_witness_FieldWriteFrame :
    clkHigh.ready ∧ clkHigh.rs.wf ∧ (⟨0, 0x40, 7, 4⟩ : Desc).wellFormed ∧
    clkHigh.cfg.addr ⟨0, 0x40, 7, 4⟩ < clkHigh.cfg.aw.size ∧ clkHigh.cfg.addr ⟨0, 0x40, 7, 4⟩ % 4 = 0 ∧
    (0x10000044 % 4 = 0 ∧ 0x10000044 ≠ clkHigh.cfg.addr ⟨0, 0x40, 7, 4⟩) ∧
    (0x1000003F < clkHigh.cfg.addr ⟨0, 0x40, 7, 4⟩ ∧ clkHigh.cfg.addr ⟨0, 0x40, 7, 4⟩ + 4 ≤ 0x10000044) ∧
    after State.lines (exec (.fieldWrite ⟨0, 0x40, 7, 4⟩ 0xA5) clkHigh) = some clkHigh.lines ∧
    clkHigh.lines.clr = 0 := by decide

/-- Two neighbouring fields of one word; bit 4 lies in the first and not in the second. -/
theorem test_witness_FieldWritesCompose :
    State.reset.ready ∧ State.reset.rs.wf ∧ (⟨0, 0x40, 7, 4⟩ : Desc).wellFormed ∧ (⟨0, 0x40, 3, 0⟩ : Desc).wellFormed ∧
    State.reset.cfg.addr ⟨0, 0x40, 7, 4⟩ < State.reset.cfg.aw.size ∧
    State.reset.cfg.addr ⟨0, 0x40, 7, 4⟩ % 4 = 0 ∧
    State.reset.cfg.addr ⟨0, 0x40, 3, 0⟩ = State.reset.cfg.addr ⟨0, 0x40, 7, 4⟩ ∧
    (4 ≤ 4 ∧ 4 < 4 + Desc.width ⟨0, 0x40, 7, 4⟩ ∧ 0 + Desc.width ⟨0, 0x40, 3, 0⟩ ≤ 4) ∧
    Desc.fmask ⟨0, 0x40, 7, 4⟩ &&& Desc.fmask ⟨0, 0x40, 3, 0⟩ = 0 := by decide

theorem test_witness_RepeatedFieldWriteChangesNothing :
    clkHigh.ready ∧ clkHigh.rs.wf ∧ Config.illustrative.testClk.wellFormed ∧
    clkHigh.cfg.addr Config.illustrative.testClk < clkHigh.cfg.aw.size ∧
    clkHigh.cfg.addr Config.illustrative.testClk % 4 = 0 ∧
    ∃ t, exec (.fieldWrite Config.illustrative.testClk 0) clkHigh = .next t ∧ t.trx.trxFault = false :=
  ⟨by decide, by decide, by decide, by decide, by decide, _, rfl, by decide⟩

theorem test_witness_FieldWriteAccessTrace :
    State.reset.ready ∧
    ((⟨0, 0x40, 7, 4⟩ : Desc).wellFormed ∧ State.reset.cfg.addr ⟨0, 0x40, 7, 4⟩ < State.reset.cfg.aw.size ∧
      State.reset.cfg.addr ⟨0, 0x40, 7, 4⟩ % 4 = 0) ∧
    ¬(⟨0, 0x40, 31, 1⟩ : Desc).wellFormed := by decide

theorem test_witness_RegReadFollowsPseudocode :
    State.reset.ready ∧ State.reset.cfg.aw.size ≤ State.reset.cfg.ea 1 0xE0000000 ∧
    (State.reset.cfg.ea 1 0xDFFFFFFF < State.reset.cfg.aw.size ∧ State.reset.cfg.ea 1 0xDFFFFFFF % 4 ≠ 0) ∧
    (State.reset.cfg.ea 1 0xDFFFFFFC < State.reset.cfg.aw.size ∧ State.reset.cfg.ea 1 0xDFFFFFFC % 4 = 0) ∧
    (State.reset.cfg.ea 0 0x40 < State.reset.cfg.aw.size ∧ State.reset.cfg.ea 0 0x40 % 4 = 0) ∧
    (withRs [(0x10000040, 0xFF), (0x10000041, 0xFF), (0x10000042, 0xFF), (0x10000043, 0xFF)]).rs.readWord
      0x10000040 = 0xFFFFFFFF ∧
    (withRs [(0x10000040, 0xFF), (0x10000041, 0xFF), (0x10000042, 0xFF), (0x10000043, 0xFF)]).rs.wf := by decide

theorem test_witness_EffectiveAddressChecks :
    State.reset.ready ∧ (⟨1, 0xE0000000, 0, 31⟩ : Desc).wellFormed ∧
    State.reset.cfg.aw.size ≤ State.reset.cfg.addr ⟨1, 0xE0000000, 0, 31⟩ ∧
    (State.reset.cfg.addr ⟨1, 0xDFFFFFFF, 0, 31⟩ < State.reset.cfg.aw.size ∧
      State.reset.cfg.addr ⟨1, 0xDFFFFFFF, 0, 31⟩ % 4 ≠ 0) ∧
    (State.reset.cfg.addr ⟨1, 0xDFFFFFFC, 0, 31⟩ < State.reset.cfg.aw.size ∧
      State.reset.cfg.addr ⟨1, 0xDFFFFFFC, 0, 31⟩ % 4 = 0) := by decide

theorem test_witness_TestWriteFollowsPseudocode :
    clkHigh.ready ∧ ([] : List Byte).length < 1 ∧ 255 < (List.replicate 256 (0 : Byte)).length ∧
    1 ≤ [(0 : Byte)].length ∧ (List.replicate 255 (0 : Byte)).length ≤ 255 :=
  ⟨by decide, by decide, by rw [List.length_replicate]; decide, by decide, List.length_replicate.le⟩

/-- One data byte and five, the first request of a ready machine. `test_witness_decode_checks` has the rejected ones. -/
theorem test_witness_TestWriteRequestFollowsPseudocode :
    clkHigh.ready ∧ decode [0x00011003, 0x00000083] = .ok (.testWrite 0x10 [0x83]) ∧
    decode [0x0005AB03, 0x04030201, 0x00000005] = .ok (.testWrite 0xAB [1, 2, 3, 4, 5]) := ⟨by decide, rfl, rfl⟩

/-- The FieldWrite of place 7 is the first data byte's D3. -/
theorem test_witness_TestWriteAccessTrace :
    clkHigh.ready ∧ 1 ≤ [(0x83 : Byte)].length ∧ [(0x83 : Byte)].length ≤ 255 ∧
    (transferWrites 0x10 [0x83])[7]? = some (.clk, 1) := by decide

theorem test_witness_LevelsDuringTestWrite : clkHigh.cfg.wf ∧ clkHigh.rs.wf ∧ 0 < [(0x83 : Byte)].length := by decide

/-- Bit 0 of the word of `test_clk` and `test_clear` is `test_clear`'s, outside the three fields driven. -/
theorem test_witness_LevelsAfterTestWrite :
    clkHigh.ready ∧ clkHigh.rs.wf ∧ [(1 : Byte), 0x83].length ≤ 255 ∧ [(1 : Byte), 0x83].getLast? = some 0x83 ∧
    0x100000B4 % 4 = 0 ∧
    (∀ l ∈ allLines, l ≠ .clr → 0x100000B4 = clkHigh.cfg.addr (lineDesc clkHigh.cfg l) →
      0 < (lineDesc clkHigh.cfg l).boff.toNat ∨
        (lineDesc clkHigh.cfg l).boff.toNat + (lineDesc clkHigh.cfg l).width ≤ 0) := by decide

/-- The first byte above the word of `test_data_in` and `test_enable`. -/
theorem test_witness_TestWriteFrame :
    clkHigh.ready ∧ 1 ≤ [(0x83 : Byte)].length ∧ [(0x83 : Byte)].length ≤ 255 ∧
    (∀ l ∈ allLines, l ≠ .clr → 0x100000BC < clkHigh.cfg.addr (lineDesc clkHigh.cfg l) ∨
      clkHigh.cfg.addr (lineDesc clkHigh.cfg l) + 4 ≤ 0x100000BC) := by decide

theorem test_witness_TestWriteOutcome :
    clkHigh.ready ∧ clkHigh.rs.wf ∧ clkHigh.cleanStart ∧ clkHigh.trx.trxFault = false ∧ clkHigh.cfg.multiByte = .same ∧
    [(0x83 : Byte)].getLast? = some 0x83 := by decide

theorem test_witness_TestWriteOutcome_incr :
    incr.ready ∧ incr.rs.wf ∧ incr.cleanStart ∧ incr.trx.trxFault = false ∧ incr.cfg.multiByte = .incr ∧
    [(1 : Byte), 2].getLast? = some 2 ∧ 1 < [(1 : Byte), 2].length ∧
    (∀ i, i < 2 → (0x12#8).toNat ≠ ((0x10#8).toNat + i) % 256) := by decide

theorem test_witness_BackToBackTransfers :
    clkHigh.ready ∧ clkHigh.rs.wf ∧ clkHigh.cleanStart ∧ clkHigh.trx.trxFault = false ∧
    (∀ p ∈ [((0x10 : Byte), [(1 : Byte), 2]), (0x20, [3])], 1 ≤ p.2.length ∧ p.2.length ≤ 255) := by decide

theorem test_witness_StaleCaptureOnEntry :
    (State.reset.ready ∧ State.reset.rs.wf ∧ State.reset.lines.clk = 0 ∧ State.reset.lines.en = 0 ∧
      State.reset.lines.clr = 0 ∧ State.reset.trx.codeLatch = none) ∧
    (latched.ready ∧ latched.rs.wf ∧ latched.lines.clk = 0 ∧ latched.lines.en = 0 ∧ latched.lines.clr = 0 ∧
      latched.trx.codeLatch = some 0x44) := by decide

theorem test_witness_ClearHeldVoidsTransfer :
    clrHigh.ready ∧ clrHigh.rs.wf ∧ clrHigh.lines.clr = 1 ∧ clrHigh.trx.treg = clrHigh.cfg.tregDefault :=
  ⟨by decide, by decide, by decide, rfl⟩

theorem test_witness_TestWriteFaultsOnlyOnStaleEntry :
    State.reset.rs.wf ∧ ∃ t, exec (.testWrite 0x10 [0x83]) State.reset = .next t ∧ t.trx.trxFault = true :=
  ⟨by decide, _, rfl, by decide⟩

/-- A write to `test_clk` that latches a code, one that captures data, and one that moves `test_clk` with `test_clear`. -/
theorem test_witness_HostLineWritesAreProtocolSteps :
    (let s := withRs [(0x100000B4, 0x02), (0x100000BA, 0x01)]
     let d := Config.illustrative.testClk
     s.ready ∧ s.rs.wf ∧ d.wellFormed ∧ s.cfg.addr d < s.cfg.aw.size ∧ s.cfg.addr d % 4 = 0 ∧ d = s.cfg.testClk ∧
     s.lines.clk = 1 ∧ after State.lines (exec (.fieldWrite d 0) s) = some { s.lines with clk := 0 } ∧
     s.lines.en = 1 ∧ s.lines.clr = 0) ∧
    (let d := Config.illustrative.testClk
     latched.ready ∧ latched.rs.wf ∧ latched.lines.clk = 0 ∧
     after State.lines (exec (.fieldWrite d 1) latched) = some { latched.lines with clk := 1 } ∧
     latched.lines.en = 0 ∧ latched.lines.clr = 0 ∧ latched.trx.codeLatch = some 0x44) ∧
    ((⟨0, 0xB4, 31, 0⟩ : Desc).wellFormed ∧ latched.cfg.addr ⟨0, 0xB4, 31, 0⟩ < latched.cfg.aw.size ∧
      latched.cfg.addr ⟨0, 0xB4, 31, 0⟩ % 4 = 0 ∧
      after (fun t => (t.lines.clk, t.lines.clr)) (exec (.fieldWrite ⟨0, 0xB4, 31, 0⟩ 3) latched) =
        some (1, 1)) := by
  decide

/-- Two lines, the clear, a falling edge, a rising edge without and with a code, no edge, and no change. -/
theorem test_witness_ReceiverFollowsTrxObserve :
    (State.reset.lines.clk = 0 ∧ (rsWrite 0x100000B4 3 State.reset).lines.clk = 1 ∧ State.reset.lines.clr = 0 ∧
      (rsWrite 0x100000B4 3 State.reset).lines.clr = 1) ∧
    (rsWrite 0x100000B4 1 State.reset).lines = { State.reset.lines with clr := 1 } ∧
    (let s := withRs [(0x100000B4, 0x02), (0x100000BA, 0x01)]
     s.lines.clk = 1 ∧ s.lines.clr = 0 ∧ s.lines.en = 1 ∧
     (rsWrite 0x100000B4 0 s).lines = { s.lines with clk := 0 }) ∧
    (State.reset.lines.en = 0 ∧ (rsWrite 0x100000B4 2 State.reset).lines = { State.reset.lines with clk := 1 } ∧
      State.reset.trx.codeLatch = none) ∧
    (latched.lines.clk = 0 ∧ latched.lines.en = 0 ∧ latched.lines.clr = 0 ∧
      (rsWrite 0x100000B4 2 latched).lines = { latched.lines with clk := 1 } ∧ latched.trx.codeLatch = some 0x44) ∧
    (rsWrite 0x100000B8 1 latched).lines = { latched.lines with din := 1 } ∧
    (latched.cfg.multiByte = .same ∧ ({ latched with cfg := incr.cfg } : State).cfg.multiByte = .incr ∧
      (rsWrite 0x100000B4 2 { latched with cfg := incr.cfg }).lines = { latched.lines with clk := 1 }) ∧
    (rsWrite 0x100000B4 1 clrHigh).lines = clrHigh.lines ∧ clrHigh.lines.clr = 1 := by decide

theorem test_witness_ReceiverFaultCases : State.reset.trx.trxFault = false := by decide

/-- The five non-events, in order. -/
theorem test_witness_NonEventsLeaveTheReceiver :
    (let s := withRs [(0x100000BA, 0x01)]
     (rsWrite 0x100000B4 0x02 s).lines.clr = 0 ∧ s.lines.clk = 0 ∧
     (rsWrite 0x100000B4 0x02 s).lines = { s.lines with clk := 1 } ∧ (rsWrite 0x100000B4 0x02 s).lines.en = 1) ∧
    (clkHigh.lines.clk = 1 ∧ (rsWrite 0x100000B4 0 clkHigh).lines = { clkHigh.lines with clk := 0 } ∧
     (rsWrite 0x100000B4 0 clkHigh).lines.en = 0) ∧
    (rsWrite 0x100000B8 0xFF clkHigh).lines = { clkHigh.lines with din := 0xFF } ∧
    (rsWrite 0x100000B8 0x10000 clkHigh).lines = { clkHigh.lines with en := 1 } ∧
    (clrHigh.lines.clr = 1 ∧ (rsWrite 0x100000B4 0 clrHigh).lines = { clrHigh.lines with clr := 0 }) := by decide

/-- A range that is empty below 5 MHz; one with no candidate, at 5 MHz; one with a solution; the example. -/
theorem test_witness_SolveFollowsPseudocode :
    State.reset.ready ∧ maxPreDiv (4999999#32).toNat < minPreDiv (4999999#32).toNat ∧
    (minPreDiv (5000000#32).toNat ≤ maxPreDiv (5000000#32).toNat ∧
      ¬∃ p, minPreDiv 5000000 ≤ p ∧ p < maxPreDiv 5000000) ∧
    (minPreDiv 24000000 ≤ 2 ∧ 2 < maxPreDiv 24000000 ∧ 1 ≤ 1500000000 * 2 / 24000000 ∧
      1500000000 * 2 / 24000000 < 512) ∧
    (24000000#32).toNat = 24000000 ∧ (1500000000#32).toNat = 1500000000 := by
  refine ⟨by decide, by decide, ⟨by decide, ?_⟩, by decide, by decide, by decide⟩
  rintro ⟨p, h1, h2⟩
  have e : minPreDiv 5000000 = maxPreDiv 5000000 := by decide
  omega

theorem test_witness_PreDividerRange :
    State.reset.ready ∧ maxPreDiv (4999999#32).toNat < minPreDiv (4999999#32).toNat ∧
    (4999999#32).toNat < 5000000 := by decide

/-- An empty range, and one whose only candidate has a feedback divider of 0. -/
theorem test_witness_SolveNoCandidate :
    State.reset.ready ∧ maxPreDiv (5000000#32).toNat = minPreDiv (5000000#32).toNat ∧
    minPreDiv (10000000#32).toNat ≤ maxPreDiv (10000000#32).toNat ∧
    (∀ p, candidateRange (10000000#32).toNat p → feedbackDiv (10000000#32).toNat (1#32).toNat p = 0) := by
  refine ⟨by decide, by decide, by decide, fun p hp => ?_⟩
  have h2 : maxPreDiv (10000000#32).toNat = 2 := by decide
  have h1 : minPreDiv (10000000#32).toNat = 1 := by decide
  have hp1 : p = 1 := by
    unfold candidateRange at hp
    omega
  subst hp1
  decide

theorem test_witness_SolveSolutionProperties :
    ∃ t, exec (.solve 24000000 1500000000) State.reset = .next t ∧
      t.outbox = State.reset.outbox ++ [[0x00000000, 2, 125, 1500000000]] := ⟨_, rfl, by decide⟩

theorem test_witness_SolveDatapathWidths :
    candidateRange (0xFFFFFFFF#32).toNat 857 ∧ acceptable (0xFFFFFFFF#32).toNat (0xFFFFFFFF#32).toNat 108 := by decide

theorem test_witness_UpperBoundNeverEmptiesScan :
    minPreDiv (10000000#32).toNat < maxPreDiv (10000000#32).toNat := by decide

theorem test_witness_SolveReadsNoState : State.reset.ready ∧ clkHigh.ready := by decide

/-- A clock of 2^32 - 1 Hz, a clock below every threshold, and the example. -/
theorem test_witness_FrLookupFollowsPseudocode :
    State.reset.ready ∧
    (State.reset.cfg.frTable[7]? = some ⟨2000, 0x1F⟩ ∧ (2000#16).toNat ≤ (0xFFFFFFFF#32).toNat / 1000000 ∧
      State.reset.cfg.frTable.length ≤ 8) ∧
    (∀ e ∈ State.reset.cfg.frTable, ¬e.thrMhz.toNat ≤ (79999999#32).toNat / 1000000) ∧
    State.reset.cfg.frTable = Config.illustrative.frTable := by decide

/-- Entries 5 and 6 have equal thresholds. -/
theorem test_witness_FrLookupOnSortedTable :
    State.reset.ready ∧ (State.reset.cfg.frTable.Pairwise fun x y => x.thrMhz.toNat ≤ y.thrMhz.toNat) ∧
    State.reset.cfg.frTable[6]? = some ⟨1500, 0x2F⟩ ∧
    exec (.frLookup 1500000000) State.reset =
      .next (State.reset.answers [0x00000000, (0x2F#8).setWidth 32, BitVec.ofNat 32 6]) ∧
    (State.reset.cfg.frTable[5]? = some ⟨1500, 0x0F⟩ ∧ (1500#16).toNat * 1000000 ≤ (1500000000#32).toNat) :=
  ⟨by decide, by decide, by decide, rfl, by decide⟩

theorem test_witness_FailedCommandsArePrecise :
    ∃ t, (withInbox [.request [0x00000005, 79999999]] State.reset).inbox = .request [0x00000005, 79999999] :: [] ∧
      step (withInbox [.request [0x00000005, 79999999]] State.reset) = .next t ∧
      t.outbox = State.reset.outbox ++ [0x00000012 :: []] ∧ (0x00000012 : Word) ≠ 0x00000000 :=
  ⟨_, rfl, rfl, by decide, by decide⟩

/-- A step that makes the sixteen accesses of a one-byte TEST_WRITE. -/
theorem test_witness_AccessesAreSequentiallyConsistent :
    (∀ r rest, (clkHigh.withFetchWord 64 0x0000008300011003).inbox ≠ .reset r :: rest) ∧
    ∃ t, step (clkHigh.withFetchWord 64 0x0000008300011003) = .next t ∧ t.trace.length = 16 := by
  refine ⟨fun r rest h => ?_, _, rfl, by decide⟩
  injection h with h
  cases h

theorem test_witness_AccessImpliesOk :
    ∃ t, exec (.regRead 0 0x40) State.reset = .next t ∧ t.trace ≠ State.reset.trace := ⟨_, rfl, by decide⟩

/-- An OK response of each command, and a failure. -/
theorem test_witness_OneResponsePerCommand :
    outboxOf (exec (.fieldWrite ⟨0, 0x40, 7, 4⟩ 0) State.reset) = some [[0x00]] ∧
    outboxOf (exec (.regRead 0 0x40) State.reset) = some [[0x00, 0]] ∧
    outboxOf (exec (.testWrite 0x10 [0x83]) clkHigh) = some [[0x00]] ∧
    outboxOf (exec (.solve 24000000 1500000000) State.reset) = some [[0x00, 2, 125, 1500000000]] ∧
    outboxOf (exec (.frLookup 80000000) State.reset) = some [[0x00, 0x00, 0]] ∧
    outboxOf (exec (.regRead 0 0x42) State.reset) = some [[0x03]] := by decide

theorem test_witness_InadmissibleEventsAreRefused :
    (withInbox [.request []] State.reset).inbox = .request [] :: [] ∧
    (¬illFormed.cfg.wf ∧ (withInbox [.request [0x00000006]] illFormed).inbox = .request [0x00000006] :: []) ∧
    (busy.cfg.wf ∧ busy.seq ≠ .idle ∧ (withInbox [.request [0x00000006]] busy).inbox = .request [0x00000006] :: []) ∧
    (withInbox [.foreignWrite 0x100000B4 1] State.reset).inbox = .foreignWrite 0x100000B4 1 :: [] := by decide

/-- Where several grounds hold, the refusal the model names (assumption logs 6 and 19): an empty request and a foreign write under
an ill-formed configuration and while BUSY, and a request under an ill-formed configuration while BUSY. -/
theorem test_witness_InadmissibleEventsAreRefused_meeting :
    (¬illFormed.cfg.wf ∧ ¬illFormedBusy.cfg.wf ∧ illFormedBusy.seq ≠ .idle ∧ busy.seq ≠ .idle) ∧
    (∀ s ∈ [illFormed, busy, illFormedBusy],
      step (withInbox [.request []] s) = .refused (.emptyRequest (withInbox [] s).markRefused) ∧
      step (withInbox [.foreignWrite 0x100000B4 1] s) = .refused (.foreignWrite (withInbox [] s).markRefused)) ∧
    step (withInbox [.request [0x00000006]] illFormedBusy) =
      .refused (.illFormedConfig (withInbox [] illFormedBusy).markRefused) :=
  ⟨by decide, fun _ _ => ⟨rfl, rfl⟩,
    show accept (withInbox [] illFormedBusy) (raiseStatus .illegal) = _ from if_pos (by decide)⟩

/-- Each ground alone, and all that can meet at once. -/
theorem test_witness_RefusalGroundsSetTheMark :
    (withInbox [.request []] State.reset).inadmissible ∧ illFormed.inadmissible ∧
    (withInbox [.request [0x00000006]] busy).inadmissible ∧
    (withInbox [.foreignWrite 0x100000B4 1] State.reset).inadmissible ∧
    (withInbox [.request []] illFormedBusy).inadmissible :=
  ⟨.inl rfl, .inr (.inl (by decide)), .inr (.inr (.inl ⟨by decide, _, rfl⟩)), .inr (.inr (.inr ⟨_, _, rfl⟩)), .inl rfl⟩

/-- A command under way with no event waiting runs to its response. -/
theorem test_witness_CommandsEndIdle : ∃ t, step busy = .next t ∧ t.outbox ≠ busy.outbox := ⟨_, rfl, by decide⟩

theorem test_witness_StepKeepsTheInvariant :
    (State.reset.withFetchWord 64 0x59682F0000000005).Inv ∧
    ∃ t, step (State.reset.withFetchWord 64 0x59682F0000000005) = .next t :=
  ⟨⟨by decide, rfl, by decide, fun _ => rfl, fun h => absurd h (by decide)⟩, _, rfl⟩

/-- A draw of `rs_init` that lists the lowest and the highest byte of RS. -/
theorem test_witness_LaunchHasTheInvariant :
    Config.illustrative.wf ∧ Memory.wf [(0, 1), (2 ^ 32 - 1, 1)] ∧
    (∀ c ∈ [((0, 1) : Host.Cell), (2 ^ 32 - 1, 1)], c.1 < Config.illustrative.aw.size) := by decide

/-- A state whose mark is set, and one whose mark is not. -/
theorem test_witness_ConfigAndMarksPersist :
    (∃ t, step { State.reset with trx := Receiver.powerOn true } = .next t) ∧
    (Receiver.powerOn true).trxFault = true ∧ ∃ t, step State.reset = .next t := ⟨⟨_, rfl⟩, rfl, _, rfl⟩

theorem test_witness_ResetEventSetsResetValues :
    (withInbox [.reset [(2 ^ 32 - 1, 1)]] clkHigh).cfg.wf ∧
    (withInbox [.reset [(2 ^ 32 - 1, 1)]] clkHigh).inbox = .reset [(2 ^ 32 - 1, 1)] :: [] ∧
    clkHigh.seq = .idle ∧ Memory.wf [(2 ^ 32 - 1, 1)] ∧
    (∀ c ∈ [((2 ^ 32 - 1, 1) : Host.Cell)], c.1 < clkHigh.cfg.aw.size) ∧ busy.seq ≠ .idle := by decide

theorem test_witness_IdleMachineWaits : State.reset.ready ∧ State.reset.inbox = [] := by decide

/-- A whole-word field at the first base. -/
def anyField : Desc := ⟨0, 0, 31, 0⟩

/-- A catalog with the given `VOP_SEL` and `HSA`, every other field in the controller. -/
def catalogWith (vopSel hsa : Desc) : Client.Catalog :=
  ⟨vopSel, anyField, anyField, hsa, anyField, anyField, anyField, anyField, anyField, anyField, anyField, anyField, anyField,
    anyField, anyField, anyField, anyField, anyField, anyField, anyField, anyField, anyField, anyField, [], anyField, anyField,
    anyField, anyField, anyField, anyField, anyField⟩

/-- R251: `VOP_SEL` alone may stand in the GRF; another field there is refused though its descriptor is `VOP_SEL`'s, and so is
`VOP_SEL` in the controller, and a test line in the GRF. -/
theorem test_catalog_placed :
    (catalogWith ⟨1, 0, 31, 0⟩ anyField).placed Config.illustrative ∧
    ¬(catalogWith ⟨1, 0, 31, 0⟩ ⟨1, 0, 31, 0⟩).placed Config.illustrative ∧
    ¬(catalogWith anyField anyField).placed Config.illustrative ∧
    ¬(catalogWith ⟨1, 0, 31, 0⟩ anyField).placed { Config.illustrative with testClk := ⟨1, 0xB4, 0, 1⟩ } := by decide

/-- Client parameters for the witnesses only; no value of theirs is the spec's. -/
def params (escReq : Word) : Client.Params where
  refClk := 24000000
  sysClk := 24000000
  escReq := escReq
  cpLpfSeq := fun _ => [(0x10, 0)]
  codeHsrxLane0 := 0x44
  codePllInputDiv := 0x17
  codePllLoopDiv := 0x18
  fbMarker := 7
  restConfig := []
  timingPairs := []
  lanesVal := 0
  sdOn := 0
  sdOff := 1
  rstOn := 0
  rstOff := 1
  vopB := 0
  vopL := 1
  selB := 0
  selL := 1
  dpi16 := 0
  dpi24 := 5
  dpi30 := 7
  burstVal := 2
  pktSize := 0
  toVals := []
  escDiv := 0
  txmodeVal := 0
  stopexitVal := 0
  catalog := catalogWith ⟨1, 0, 31, 0⟩ anyField

theorem test_witness_ClockPlanAfterSolving : (params 0).escReq = 0 ∧ (params 1).escReq ≠ 0 := by decide

theorem test_witness_FeedbackDividerBytes : 4 ≤ 7 ∧ 7 ≤ 7 ∧ 511 < 512 ∧ Client.fbBytes 7 511 = (31, 0x8F) := by decide

theorem test_witness_DpiCodingDefaultsTo24 : (-16 : Int) ≠ 16 ∧ (-16 : Int) ≠ 30 := by decide

theorem test_witness_UnsupportedVideoSourceSendsNothing : 2 ≠ (params 0).vopB ∧ 2 ≠ (params 0).vopL ∧ 1 = (params 0).vopL := by
  decide

end Sys2Proof.Tests
end

/-! PROOFS. What a launch leaves in each piece of state (10_state.md R46). -/

namespace Sys2Proof.Machine

@[simp] theorem Receiver.powerOn_codeLatch (mark : Bool) : (powerOn mark).codeLatch = none := rfl
@[simp] theorem Receiver.powerOn_k (mark : Bool) : (powerOn mark).k = 0 := rfl
@[simp] theorem Receiver.powerOn_trxFault (mark : Bool) : (powerOn mark).trxFault = mark := rfl

/-- At power-on every test register is unknown (R46). -/
@[simp] theorem Receiver.powerOn_treg (mark : Bool) (i : Nat) (hi : i < 256) :
    (powerOn mark).treg[i]'hi = none :=
  Vector.getElem_replicate hi

@[simp] theorem launch_cfg (cfg : Config) (rsInit : Memory) : (State.launch cfg rsInit).cfg = cfg := rfl
@[simp] theorem launch_seq (cfg : Config) (rsInit : Memory) : (State.launch cfg rsInit).seq = .idle := rfl
@[simp] theorem launch_rs (cfg : Config) (rsInit : Memory) : (State.launch cfg rsInit).rs = rsInit := rfl
@[simp] theorem launch_trx (cfg : Config) (rsInit : Memory) :
    (State.launch cfg rsInit).trx = Receiver.powerOn false := rfl
@[simp] theorem launch_refused (cfg : Config) (rsInit : Memory) :
    (State.launch cfg rsInit).refused = false := rfl

/-- The levels after a launch are the ones its draw of `rs_init` holds (R46). -/
@[simp] theorem launch_lines (cfg : Config) (rsInit : Memory) :
    (State.launch cfg rsInit).lines = linesOf cfg rsInit := rfl

/-- The machine right after reset is the launch of its own configuration and RS. -/
theorem reset_eq_launch : State.reset = State.launch State.reset.cfg State.reset.rs := by
  simp only [State.reset, launch_cfg, launch_rs]

/-- Settles O51: each piece of state by its own lemma about a launch. -/
theorem resetState : Obligations.ResetState := by
  unfold Obligations.ResetState
  refine ⟨fun cfg rsInit => ?_, reset_eq_launch⟩
  have registers_unknown (a : Byte) :
      (State.launch cfg rsInit).trx.treg[a.toNat]'a.isLt = none :=
    Receiver.powerOn_treg false a.toNat a.isLt
  exact ⟨launch_seq cfg rsInit, launch_cfg cfg rsInit, fun a => by rw [launch_rs],
    launch_lines cfg rsInit, registers_unknown, by rw [launch_trx, Receiver.powerOn_codeLatch],
    by rw [launch_trx, Receiver.powerOn_k], by rw [launch_trx, Receiver.powerOn_trxFault],
    launch_refused cfg rsInit⟩

end Sys2Proof.Machine

/-! PROOFS. The replay of RS accesses (20_memory.md R72, R73, R81): the relation between two states that a replay of the
accesses made in between connects, kept by each access and so by every phase, command and step. -/

namespace Sys2Proof.Machine

/-- A replay goes through the accesses in their order: first the earlier ones, then the later ones from what those left. -/
theorem replay_append (xs ys : List Access) (m : Memory) :
    replay (xs ++ ys) m = (replay xs m).bind (replay ys) := by
  induction xs generalizing m with
  | nil => rfl
  | cons x xs ih =>
    cases x with
    | read a v =>
      simp only [List.cons_append, replay]
      split
      · exact ih m
      · rfl
    | write a v => exact ih (m.writeWord a v)

/-- From `s` to `t` the history grew by accesses whose replay takes the RS of `s` to the RS of `t` (R81). -/
def ReplaysTo (s t : State) : Prop :=
  ∃ accesses, t.trace = s.trace ++ accesses ∧ replay accesses s.rs = some t.rs

theorem ReplaysTo.refl (s : State) : ReplaysTo s s := ⟨[], (List.append_nil _).symm, rfl⟩

theorem ReplaysTo.trans {s t u : State} (hst : ReplaysTo s t) (htu : ReplaysTo t u) : ReplaysTo s u := by
  obtain ⟨xs, hxs, hxs_rs⟩ := hst
  obtain ⟨ys, hys, hys_rs⟩ := htu
  exact ⟨xs ++ ys, by rw [hys, hxs, List.append_assoc], by rw [replay_append, hxs_rs, Option.bind_some, hys_rs]⟩

@[simp] theorem replaysTo_respond {s t : State} (st : Status) (r : List Word) :
    ReplaysTo s (respond st r t) ↔ ReplaysTo s t := Iff.rfl

@[simp] theorem replaysTo_setSeq {s t : State} (q : Seq) : ReplaysTo s (t.setSeq q) ↔ ReplaysTo s t := Iff.rfl

theorem rsRead_replaysTo (a : Nat) (s : State) : ReplaysTo s (rsRead a s).2 :=
  ⟨[.read a (s.rs.readWord a)], rfl, if_pos rfl⟩

theorem rsWrite_replaysTo (a : Nat) (v : Word) (s : State) : ReplaysTo s (rsWrite a v s) :=
  ⟨[.write a v], rfl, rfl⟩

/-- A field write is its read and then its write (R142). -/
theorem fieldWrite_replaysTo (d : Desc) (v : Word) (s : State) : ReplaysTo s (fieldWrite d v s) :=
  (rsRead_replaysTo _ s).trans (rsWrite_replaysTo _ _ _)

/-- One phase makes at most the read of a REG_READ, or one field write (R172). -/
theorem advance_replaysTo (s : State) : ReplaysTo s (advance s) := by
  obtain ⟨-, h⟩ | ⟨d, v, -, h⟩ | ⟨b, o, -, h⟩ | ⟨t, l, v, -, -, h⟩ | ⟨st, r, h⟩ | ⟨c, h⟩ | ⟨c, h⟩ := advance_cases s
  · rw [h]; exact .refl s
  · rw [h, replaysTo_respond]; exact fieldWrite_replaysTo d v s
  · rw [h, replaysTo_respond]; exact rsRead_replaysTo (s.cfg.ea b o) s
  · rw [h, replaysTo_setSeq]; exact fieldWrite_replaysTo (lineDesc s.cfg l) v s
  · rw [h, replaysTo_respond]; exact .refl s
  · rw [h, replaysTo_setSeq]; exact .refl s
  · rw [h, replaysTo_setSeq]; exact .refl s

theorem finish_replaysTo (s : State) : ReplaysTo s (finish s) :=
  finish_keeps (P := ReplaysTo s) (fun t h => h.trans (advance_replaysTo t)) (.refl s)

theorem runCommand_replaysTo (cmd : Activity) (s : State) : ReplaysTo s (runCommand cmd s) :=
  ((replaysTo_setSeq _).2 (.refl s)).trans (finish_replaysTo _)

/-- A command that passed its checks is the run of one activity (R32). -/
theorem ranCommand_runCommand {i : Instr} {s t : State} (h : ranCommand s t i) : ∃ cmd, t = runCommand cmd s := by
  cases i with
  | fieldWrite d v => obtain ⟨-, -, ht⟩ := h; exact ⟨_, ht⟩
  | regRead b o => obtain ⟨-, ht⟩ := h; exact ⟨_, ht⟩
  | testWrite code data => obtain ⟨-, ht⟩ := h; exact ⟨_, ht⟩
  | solve ref target => obtain ⟨-, ht⟩ := h; exact ⟨_, ht⟩
  | frLookup clk => exact ⟨_, h⟩

/-- A command that ends with a status at its checks made no access; one that ran made those of its phases. -/
theorem exec_replaysTo {i : Instr} {s t : State} (h : exec i s = .next t) : ReplaysTo s t := by
  obtain ⟨-, ⟨st, -, rfl⟩ | hran⟩ := exec_next h
  · exact (replaysTo_respond st []).2 (.refl s)
  · obtain ⟨cmd, rfl⟩ := ranCommand_runCommand hran
    exact runCommand_replaysTo cmd s

/-- Taking an event from the inbox is no access. -/
theorem replaysTo_of_inbox {s t : State} {rest : List HostEvent} (h : ReplaysTo { s with inbox := rest } t) :
    ReplaysTo s t := h

/-- Settles O43: every kind of step but the reset is a run of phases, a command, or a response without an access. -/
theorem accessesAreSequentiallyConsistent : Obligations.AccessesAreSequentiallyConsistent := by
  unfold Obligations.AccessesAreSequentiallyConsistent
  intro s t hreset hstep
  change ReplaysTo s t
  obtain ⟨-, -, rfl⟩ | ⟨e, rest, hinbox, hevent⟩ := step_next hstep
  · exact finish_replaysTo s
  · apply replaysTo_of_inbox (rest := rest)
    obtain ⟨ws, err, -, -, -, -, rfl⟩ | ⟨ws, i, -, -, hexec⟩ | ⟨r, rfl, -, -⟩ := hevent
    · exact (replaysTo_respond .illegal []).2 (.refl _)
    · exact exec_replaysTo hexec
    · exact absurd hinbox (hreset r rest)

end Sys2Proof.Machine

/-! PROOFS. The effective-address checks (20_memory.md R71) and what the two field commands answer by them. -/

namespace Sys2Proof.Machine

/-- At or above `2^AW` the check answers EADDR, whatever the alignment (R71). -/
theorem addrCheck_of_size_le {cfg : Config} {b : BitVec 2} {o : Word} (h : cfg.aw.size ≤ cfg.ea b o) :
    addrCheck cfg b o = some .eaddr := if_pos h

/-- Below `2^AW` a misaligned address answers MISALIGNED (R71). -/
theorem addrCheck_of_misaligned {cfg : Config} {b : BitVec 2} {o : Word} (h : cfg.ea b o < cfg.aw.size)
    (halign : cfg.ea b o % 4 ≠ 0) : addrCheck cfg b o = some .misaligned :=
  (if_neg (Nat.not_le.2 h)).trans (if_pos halign)

/-- What a field command answers once it may access RS: the failed check's status, or the command's run (R71, R291). -/
def afterAddrCheck (b : BitVec 2) (o : Word) (cmd : Activity) (s : State) : State :=
  (addrCheck s.cfg b o).elim (runCommand cmd s) fun st => raiseStatus st s

/-- REG_READ from a ready state is its address check and then its run (R150). -/
theorem exec_regRead_of_ready {s : State} (hs : s.ready) (b : BitVec 2) (o : Word) :
    exec (.regRead b o) s = .next (afterAddrCheck b o (.regRead b o) s) := by
  change execRegRead b o s = _
  unfold execRegRead afterAddrCheck
  rw [accept_of_ready hs]
  cases addrCheck s.cfg b o <;> rfl

/-- A legal FIELD_WRITE from a ready state is its address check and then its run (R142). -/
theorem exec_fieldWrite_of_ready {s : State} (hs : s.ready) {d : Desc} (hd : d.wellFormed) (v : Word) :
    exec (.fieldWrite d v) s = .next (afterAddrCheck d.bsel d.offset (.fieldWrite d v) s) := by
  change execFieldWrite d v s = _
  unfold execFieldWrite afterAddrCheck
  rw [accept_of_ready hs, if_neg (not_not.2 hd)]
  cases addrCheck s.cfg d.bsel d.offset <;> rfl

section
variable {s : State} {b : BitVec 2} {o : Word}

theorem afterAddrCheck_of_size_le (hs : s.isIdle) (h : s.cfg.aw.size ≤ s.cfg.ea b o) (cmd : Activity) :
    afterAddrCheck b o cmd s = s.answers [0x00000002] := by
  rw [afterAddrCheck, addrCheck_of_size_le h]
  exact raiseStatus_of_idle hs .eaddr

theorem afterAddrCheck_of_misaligned (hs : s.isIdle) (h : s.cfg.ea b o < s.cfg.aw.size)
    (halign : s.cfg.ea b o % 4 ≠ 0) (cmd : Activity) : afterAddrCheck b o cmd s = s.answers [0x00000003] := by
  rw [afterAddrCheck, addrCheck_of_misaligned h halign]
  exact raiseStatus_of_idle hs .misaligned

theorem afterAddrCheck_of_passed (h : s.cfg.ea b o < s.cfg.aw.size) (halign : s.cfg.ea b o % 4 = 0) (cmd : Activity) :
    afterAddrCheck b o cmd s = runCommand cmd s := by
  rw [afterAddrCheck, addrCheck_none.2 ⟨h, halign⟩]
  rfl

end

/-- Settles O18: the three ranges of the exact sum are the three ends of the address check. -/
theorem effectiveAddressChecks : Obligations.EffectiveAddressChecks := by
  unfold Obligations.EffectiveAddressChecks
  intro s d value hs hd ea
  have hea : s.cfg.ea d.bsel d.offset = ea := rfl
  rw [exec_regRead_of_ready hs, exec_fieldWrite_of_ready hs hd, ← hea]
  refine ⟨fun hsize => ?_, fun hlt halign => ?_, fun hlt halign => ?_⟩
  · rw [afterAddrCheck_of_size_le hs.2 hsize, afterAddrCheck_of_size_le hs.2 hsize]
    exact ⟨rfl, rfl⟩
  · rw [afterAddrCheck_of_misaligned hs.2 hlt halign, afterAddrCheck_of_misaligned hs.2 hlt halign]
    exact ⟨rfl, rfl⟩
  · rw [afterAddrCheck_of_passed hlt halign, afterAddrCheck_of_passed hlt halign, runCommand_regRead,
      runCommand_fieldWrite]
    exact ⟨⟨_, rfl, rfl⟩, _, rfl, rfl⟩

end Sys2Proof.Machine

/-! PROOFS. A request header's fields: the model reads them as bit fields, R111 as numbers (30_encoding.md R101 to
R105). -/

namespace Sys2Proof

open Machine

/-- The low field of two fields side by side. -/
theorem extractLsb'_append_low {m n : Nat} (x : BitVec m) (y : BitVec n) : (x ++ y).extractLsb' 0 n = y :=
  (BitVec.extractLsb'_append_eq_of_add_le (by omega)).trans BitVec.extractLsb'_eq_self

/-- A field above the low one is a field of what stands above it. -/
theorem extractLsb'_append_high {m n : Nat} (x : BitVec m) (y : BitVec n) (s k : Nat) :
    (x ++ y).extractLsb' (n + s) k = x.extractLsb' s k := by
  rw [BitVec.extractLsb'_append_eq_of_le (by omega), Nat.add_sub_cancel_left]

theorem opNumber_eq (header : Word) : opNumber header = (opcodeOf header).toNat := by
  rw [opNumber, opcodeOf, BitVec.extractLsb'_toNat, Nat.shiftRight_zero]

theorem countNumber_eq (header : Word) : countNumber header = dataCount header := by
  rw [countNumber, dataCount, BitVec.extractLsb'_toNat, Nat.shiftRight_eq_div_pow]

/-- The opcode of a format (R101). -/
def Format.op : Format → Byte
  | .f => 0x01
  | .r => 0x02
  | .t => 0x03
  | .s => 0x04
  | .l => 0x05

@[simp] theorem formatOf_op (fmt : Format) : formatOf fmt.op = some fmt := by cases fmt <;> rfl

/-- The opcode map gives a format to that format's own opcode only (R101). -/
theorem op_of_formatOf {op : Byte} {fmt : Format} (h : formatOf op = some fmt) : op = fmt.op := by
  unfold formatOf at h
  split_ifs at h <;> cases h <;> assumption

theorem opNumber_of_formatOf {header : Word} {fmt : Format} (h : formatOf (opcodeOf header) = some fmt) :
    opNumber header = fmt.op.toNat := by
  rw [opNumber_eq, op_of_formatOf h]

/-- A byte that is no format's opcode is 0 or at least 6 (R101). -/
theorem eq_op_or_reserved (op : Byte) : (∃ fmt : Format, op = fmt.op) ∨ op.toNat = 0 ∨ 6 ≤ op.toNat := by
  obtain h | h | h | h | h | h : op.toNat = 1 ∨ op.toNat = 2 ∨ op.toNat = 3 ∨ op.toNat = 4 ∨ op.toNat = 5 ∨
      (op.toNat = 0 ∨ 6 ≤ op.toNat) := by omega
  · exact .inl ⟨.f, BitVec.eq_of_toNat_eq h⟩
  · exact .inl ⟨.r, BitVec.eq_of_toNat_eq h⟩
  · exact .inl ⟨.t, BitVec.eq_of_toNat_eq h⟩
  · exact .inl ⟨.s, BitVec.eq_of_toNat_eq h⟩
  · exact .inl ⟨.l, BitVec.eq_of_toNat_eq h⟩
  · exact .inr h

/-- IL1 is the opcode that the opcode map leaves out (R101, R111). -/
theorem formatOf_eq_none_iff (header : Word) : formatOf (opcodeOf header) = none ↔ il1 header := by
  rw [il1, opNumber_eq]
  constructor
  · intro h
    obtain ⟨fmt, hop⟩ | hop := eq_op_or_reserved (opcodeOf header)
    · rw [hop, formatOf_op] at h
      cases h
    · exact hop
  · intro hop
    cases h : formatOf (opcodeOf header) with
    | none => rfl
    | some fmt =>
      rw [op_of_formatOf h] at hop
      revert hop
      cases fmt <;> decide

/-- A bit of a word under the mask of `n` bits at `s` (R11). -/
theorem getLsbD_and_mask_shiftLeft (x : Word) (s n i : Nat) :
    (x &&& (mask n <<< s)).getLsbD i = (x.getLsbD i && (decide (s ≤ i) && decide (i < s + n))) := by
  rw [BitVec.getLsbD_and, BitVec.getLsbD_shiftLeft, getLsbD_mask]
  by_cases hi : i < 32
  · by_cases hs : s ≤ i
    · simp [hi, hs, show i - s < n ↔ i < s + n by omega, show i - s < 32 by omega, Nat.not_lt.2 hs]
    · simp [hs, show i < s by omega]
  · simp [BitVec.getLsbD_of_ge x i (by omega)]

/-- A word has no bit in the mask of `n` bits at `s` exactly where its field there is zero. -/
theorem and_mask_shiftLeft_eq_zero (x : Word) (s n : Nat) :
    x &&& (mask n <<< s) = 0 ↔ x.extractLsb' s n = 0 := by
  constructor
  · intro hx
    apply BitVec.eq_of_getLsbD_eq
    intro i hi
    have hbit := congrArg (BitVec.getLsbD · (s + i)) hx
    simp only [getLsbD_and_mask_shiftLeft] at hbit
    simpa [hi] using hbit
  · intro hx
    apply BitVec.eq_of_getLsbD_eq
    intro i hi
    rw [getLsbD_and_mask_shiftLeft]
    by_cases hs : s ≤ i
    · by_cases hn : i < s + n
      · have hbit := congrArg (BitVec.getLsbD · (i - s)) hx
        simp only [BitVec.getLsbD_extractLsb', Nat.add_sub_cancel' hs] at hbit
        have hxi : x.getLsbD i = false := by simpa [show i - s < n by omega] using hbit
        simp [hxi]
      · simp [hn]
    · simp [hs]

theorem extractLsb'_eq_zero_iff (x : Word) (s n : Nat) :
    x.extractLsb' s n = 0 ↔ x.toNat / 2 ^ s % 2 ^ n = 0 := by
  rw [← BitVec.toNat_inj, BitVec.extractLsb'_toNat, Nat.shiftRight_eq_div_pow]
  rfl

/-- A field that reaches bit 31 is the number above the bits below it. -/
theorem topField_eq_zero_iff (x : Word) (s n : Nat) (h : s + n = 32) :
    x.extractLsb' s n = 0 ↔ x.toNat / 2 ^ s = 0 := by
  have hx : x.toNat / 2 ^ s < 2 ^ n := Nat.div_lt_of_lt_mul (by rw [← pow_add, h]; exact x.isLt)
  rw [extractLsb'_eq_zero_iff, Nat.mod_eq_of_lt hx]

/-! The reserved bits of each format, as the fields between the ones the format uses (R102 to R108). -/

theorem reserved_f_iff (header : Word) : header &&& reservedMask .f = 0 ↔ header.extractLsb' 20 12 = 0 :=
  and_mask_shiftLeft_eq_zero header 20 12

theorem reserved_r_iff (header : Word) :
    header &&& reservedMask .r = 0 ↔ header.extractLsb' 20 12 = 0 ∧ header.extractLsb' 8 10 = 0 := by
  rw [← and_mask_shiftLeft_eq_zero, ← and_mask_shiftLeft_eq_zero,
    show reservedMask .r = mask 12 <<< 20 ||| mask 10 <<< 8 by decide, BitVec.and_or_distrib_left]
  exact BitVec.or_eq_zero_iff

theorem reserved_t_iff (header : Word) : header &&& reservedMask .t = 0 ↔ header.extractLsb' 24 8 = 0 :=
  and_mask_shiftLeft_eq_zero header 24 8

theorem reserved_s_iff (header : Word) : header &&& reservedMask .s = 0 ↔ header.extractLsb' 8 24 = 0 :=
  and_mask_shiftLeft_eq_zero header 8 24

theorem reserved_l_iff (header : Word) : header &&& reservedMask .l = 0 ↔ header.extractLsb' 8 24 = 0 :=
  reserved_s_iff header

/-- IL2 is a bit of the format's reserved mask (R111). -/
theorem il2_iff {header : Word} {fmt : Format} (h : formatOf (opcodeOf header) = some fmt) :
    il2 header ↔ header &&& reservedMask fmt ≠ 0 := by
  have hop := opNumber_of_formatOf h
  cases fmt with
  | f =>
    rw [ne_eq, reserved_f_iff, topField_eq_zero_iff header 20 12 rfl]
    simp [il2, hop, Format.op]
  | r =>
    rw [ne_eq, reserved_r_iff, topField_eq_zero_iff header 20 12 rfl, extractLsb'_eq_zero_iff,
      not_and_or]
    simp [il2, hop, Format.op]
  | t =>
    rw [ne_eq, reserved_t_iff, topField_eq_zero_iff header 24 8 rfl]
    simp [il2, hop, Format.op]
  | s =>
    rw [ne_eq, reserved_s_iff, topField_eq_zero_iff header 8 24 rfl]
    simp [il2, hop, Format.op]
  | l =>
    rw [ne_eq, reserved_l_iff, topField_eq_zero_iff header 8 24 rfl]
    simp [il2, hop, Format.op]

/-- IL3 is a length that is not the format's (R111). -/
theorem il3_iff {header : Word} {fmt : Format} (h : formatOf (opcodeOf header) = some fmt) (length : Nat) :
    il3 header length ↔ length ≠ requestLength fmt header := by
  cases fmt <;> simp [il3, opNumber_of_formatOf h, Format.op, requestLength, countNumber_eq]

end Sys2Proof

/-! PROOFS. The packing of data bytes: where each byte stands, and that packing and unpacking undo each other
(30_encoding.md R106). -/

namespace Sys2Proof

/-- Byte `i` of the data words, at bits `8*(i mod 4)+7 : 8*(i mod 4)` of word `i div 4` (R106). -/
def byteAt (ws : List Word) (i : Nat) : Byte := (ws.getD (i / 4) 0).extractLsb' (8 * (i % 4)) 8

theorem byteAt_cons_add_four (w : Word) (ws : List Word) (i : Nat) : byteAt (w :: ws) (i + 4) = byteAt ws i := by
  rw [byteAt, byteAt, Nat.add_div_right i (by decide), Nat.add_mod_right, List.getD_cons_succ]

theorem unpackBytes_cons (w : Word) (ws : List Word) : unpackBytes (w :: ws) = wordBytes w ++ unpackBytes ws := rfl

@[simp] theorem unpackBytes_length (ws : List Word) : (unpackBytes ws).length = 4 * ws.length := by
  induction ws with
  | nil => rfl
  | cons w ws ih =>
    rw [unpackBytes_cons, List.length_append, ih, List.length_cons, Nat.mul_add_one, Nat.add_comm]
    rfl

theorem unpackBytes_getElem (ws : List Word) (i : Nat) (h : i < (unpackBytes ws).length) :
    (unpackBytes ws)[i] = byteAt ws i := by
  induction ws generalizing i with
  | nil => simp at h
  | cons w ws ih =>
    match i with
    | 0 | 1 | 2 | 3 => rfl
    | i + 4 =>
      rw [byteAt_cons_add_four]
      exact ih i (by rw [unpackBytes_length] at h ⊢; rw [List.length_cons] at h; omega)

/-- The pad bytes that the decoder checks are the bytes from `n` on (R106). -/
theorem drop_unpackBytes_all_zero_iff (ws : List Word) (n : Nat) :
    ((unpackBytes ws).drop n).all (· = 0) = true ↔ ∀ i, n ≤ i → i < 4 * ws.length → byteAt ws i = 0 := by
  simp only [List.all_eq_true, decide_eq_true_eq]
  constructor
  · intro h i hn hi
    have hlen : i < (unpackBytes ws).length := by rwa [unpackBytes_length]
    rw [← unpackBytes_getElem ws i hlen]
    exact h _ (List.mem_drop_iff_getElem.2 ⟨i - n, by omega, by congr 1; omega⟩)
  · intro h b hb
    obtain ⟨j, hj, rfl⟩ := List.mem_drop_iff_getElem.1 hb
    rw [unpackBytes_getElem]
    exact h _ (by omega) (by rw [← unpackBytes_length]; omega)

/-- A word is its four bytes, the first lowest (R106). -/
theorem append_extractLsb'_bytes (w : Word) :
    w.extractLsb' 24 8 ++ w.extractLsb' 16 8 ++ w.extractLsb' 8 8 ++ w.extractLsb' 0 8 = w := by
  rw [BitVec.extractLsb'_append_extractLsb'_eq_extractLsb' (show 24 = 16 + 8 from rfl),
    BitVec.extractLsb'_append_extractLsb'_eq_extractLsb' (show 16 = 8 + 8 from rfl),
    BitVec.extractLsb'_append_extractLsb'_eq_extractLsb' (show 8 = 0 + 8 from rfl)]
  exact BitVec.extractLsb'_eq_self

theorem wordBytes_injective : Function.Injective wordBytes := by
  intro w v h
  simp only [wordBytes, List.cons.injEq, and_true] at h
  obtain ⟨h0, h8, h16, h24⟩ := h
  rw [← append_extractLsb'_bytes w, ← append_extractLsb'_bytes v, h0, h8, h16, h24]

theorem unpackBytes_injective : Function.Injective unpackBytes := by
  intro ws
  induction ws with
  | nil =>
    intro vs h
    have hlen := congrArg List.length h
    rw [unpackBytes_length, unpackBytes_length] at hlen
    exact (List.eq_nil_of_length_eq_zero (by simpa using hlen.symm)).symm
  | cons w ws ih =>
    intro vs h
    cases vs with
    | nil => cases h
    | cons v vs =>
      obtain ⟨hword, hrest⟩ := List.append_inj h rfl
      rw [wordBytes_injective hword, ih hrest]

theorem wordBytes_append (a b c d : Byte) : wordBytes (d ++ c ++ b ++ a) = [a, b, c, d] := by
  have ha := extractLsb'_append_low (d ++ c ++ b) a
  have hb := (extractLsb'_append_high (d ++ c ++ b) a 0 8).trans (extractLsb'_append_low (d ++ c) b)
  have hc := ((extractLsb'_append_high (d ++ c ++ b) a 8 8).trans (extractLsb'_append_high (d ++ c) b 0 8)).trans
    (extractLsb'_append_low d c)
  have hd := ((extractLsb'_append_high (d ++ c ++ b) a 16 8).trans (extractLsb'_append_high (d ++ c) b 8 8)).trans
    ((extractLsb'_append_high d c 0 8).trans BitVec.extractLsb'_eq_self)
  exact congr (congrArg _ ha) (congr (congrArg _ hb) (congr (congrArg _ hc) (congrArg (· :: []) hd)))

/-- Unpacking gives the packed bytes and then the pad bytes, which are zero (R106). -/
theorem unpackBytes_packBytes (data : List Byte) :
    ∃ pad, unpackBytes (packBytes data) = data ++ List.replicate pad 0 := by
  induction data using packBytes.induct with
  | case1 => exact ⟨0, rfl⟩
  | case2 a => exact ⟨3, wordBytes_append a 0 0 0⟩
  | case3 a b => exact ⟨2, wordBytes_append a b 0 0⟩
  | case4 a b c => exact ⟨1, wordBytes_append a b c 0⟩
  | case5 a b c d rest ih =>
    obtain ⟨pad, hpad⟩ := ih
    exact ⟨pad, by rw [packBytes, unpackBytes_cons, wordBytes_append, hpad]; rfl⟩

/-- Packing the first `n` bytes of `ceil_div(n, 4)` words gives the words back where the pad bytes are zero: both
unpack to those bytes and as many zeros (R106). -/
theorem packBytes_take_unpackBytes (ws : List Word) (n : Nat) (hlen : ws.length = ceilDiv n 4)
    (hzero : ∀ b ∈ (unpackBytes ws).drop n, b = 0) : packBytes ((unpackBytes ws).take n) = ws := by
  apply unpackBytes_injective
  have htake : ((unpackBytes ws).take n).length = n := by
    rw [List.length_take, unpackBytes_length, hlen, ceilDiv]
    omega
  obtain ⟨pad, hpad⟩ := unpackBytes_packBytes ((unpackBytes ws).take n)
  have hlength := congrArg List.length hpad
  rw [unpackBytes_length, packBytes_length, htake, ← hlen, List.length_append, htake,
    List.length_replicate] at hlength
  have hdrop : (unpackBytes ws).drop n = List.replicate pad 0 :=
    List.eq_replicate_iff.2 ⟨by rw [List.length_drop, unpackBytes_length]; omega, hzero⟩
  rw [hpad, ← hdrop, List.take_append_drop]

end Sys2Proof

/-! PROOFS. The decoder (30_encoding.md R101 to R110): what a request that decodes is, and that decoding and encoding
undo each other. -/

namespace Sys2Proof

/-- The descriptor codec undoes its own packing (R110). -/
theorem descDecode_descEncode (d : Desc) : descDecode (descEncode d).1 (descEncode d).2 = d := by
  obtain ⟨bsel, offset, wm1, boff⟩ := d
  have hbsel := ((extractLsb'_append_high (bsel ++ wm1) boff 5 2).trans (extractLsb'_append_high bsel wm1 0 2)).trans
    BitVec.extractLsb'_eq_self
  have hwm1 := (extractLsb'_append_high (bsel ++ wm1) boff 0 5).trans (extractLsb'_append_low bsel wm1)
  have hboff := extractLsb'_append_low (bsel ++ wm1) boff
  exact congr (congr (congrFun (congrArg Desc.mk hbsel) offset) hwm1) hboff

/-- Every packed pair is the packing of the descriptor it stands for (R110). -/
theorem descEncode_descDecode (dh : BitVec 12) (offset : Word) : descEncode (descDecode dh offset) = (dh, offset) := by
  have hdh : dh.extractLsb' 10 2 ++ dh.extractLsb' 5 5 ++ dh.extractLsb' 0 5 = dh := by
    rw [BitVec.extractLsb'_append_extractLsb'_eq_extractLsb' (show 10 = 5 + 5 from rfl),
      BitVec.extractLsb'_append_extractLsb'_eq_extractLsb' (show 5 = 0 + 5 from rfl)]
    exact BitVec.extractLsb'_eq_self
  exact congrArg (·, offset) hdh

/-! A check that rejects where it fails, and then what follows it. -/

theorem ite_error_eq_ok {ε α : Type} {c : Prop} [Decidable c] {e : ε} {x : Except ε α} {a : α} :
    (if c then .error e else x) = .ok a ↔ ¬c ∧ x = .ok a := by
  by_cases h : c <;> simp [h]

theorem ite_eq_ok {ε α : Type} {c : Prop} [Decidable c] {e : ε} {x : Except ε α} {a : α} :
    (if c then x else .error e) = .ok a ↔ c ∧ x = .ok a := by
  by_cases h : c <;> simp [h]

/-- The operands of a Format F request, where the field lies within the word (R102, IL4). -/
theorem decodeFields_f_ok {header : Word} {body : List Word} {i : Instr} :
    decodeFields .f header body = .ok i ↔
      (descDecode (header.extractLsb' 8 12) (body.getD 0 0)).wellFormed ∧
      .fieldWrite (descDecode (header.extractLsb' 8 12) (body.getD 0 0)) (body.getD 1 0) = i := by
  rw [decodeFields, ite_eq_ok, Except.ok.injEq]

/-- The operands of a Format T request, where it has data and its pad bytes are zero (R104, R106, IL5, IL6). -/
theorem decodeFields_t_ok {header : Word} {body : List Word} {i : Instr} :
    decodeFields .t header body = .ok i ↔
      dataCount header ≠ 0 ∧ ((unpackBytes body).drop (dataCount header)).all (· = 0) = true ∧
      .testWrite (header.extractLsb' 8 8) ((unpackBytes body).take (dataCount header)) = i := by
  rw [decodeFields, ite_error_eq_ok, ite_eq_ok, Except.ok.injEq]

/-- A format's operands make a command of that format. -/
theorem format_of_decodeFields {fmt : Format} {header : Word} {body : List Word} {i : Instr}
    (h : decodeFields fmt header body = .ok i) : fmt = i.format := by
  cases fmt with
  | f => obtain ⟨-, rfl⟩ := decodeFields_f_ok.1 h; rfl
  | r => cases h; rfl
  | t => obtain ⟨-, -, rfl⟩ := decodeFields_t_ok.1 h; rfl
  | s => cases h; rfl
  | l => cases h; rfl

/-- A request whose opcode has no format does not decode. -/
theorem decode_of_no_format {header : Word} (h : formatOf (opcodeOf header) = none) (body : List Word) :
    decode (header :: body) = .error .badOpcode := by
  rw [decode, h]

/-- A request with a format passes the checks of its reserved bits, its length and its operands, in this order (R291). -/
theorem decode_of_format {header : Word} {fmt : Format} (h : formatOf (opcodeOf header) = some fmt) (body : List Word) :
    decode (header :: body) =
      if header &&& reservedMask fmt ≠ 0 then .error .reservedBits
      else if body.length + 1 ≠ requestLength fmt header then .error .badLength
      else decodeFields fmt header body := by
  rw [decode, h]

/-- A request with a format decodes exactly where its reserved bits, its length and its operands pass (R291). -/
theorem decode_ok_of_format {header : Word} {fmt : Format} (h : formatOf (opcodeOf header) = some fmt)
    {body : List Word} {i : Instr} :
    decode (header :: body) = .ok i ↔
      header &&& reservedMask fmt = 0 ∧ body.length + 1 = requestLength fmt header ∧
      decodeFields fmt header body = .ok i := by
  rw [decode_of_format h, ite_error_eq_ok, ite_error_eq_ok, not_not, not_not]

/-- What a request that decodes has passed, said with the format of its command (R291). -/
theorem decode_ok_iff {header : Word} {body : List Word} {i : Instr} :
    decode (header :: body) = .ok i ↔
      formatOf (opcodeOf header) = some i.format ∧ header &&& reservedMask i.format = 0 ∧
      body.length + 1 = requestLength i.format header ∧ decodeFields i.format header body = .ok i := by
  constructor
  · intro h
    cases hfmt : formatOf (opcodeOf header) with
    | none => rw [decode_of_no_format hfmt] at h; cases h
    | some fmt =>
      obtain ⟨hres, hlen, hfields⟩ := (decode_ok_of_format hfmt).1 h
      obtain rfl := format_of_decodeFields hfields
      exact ⟨rfl, hres, hlen, hfields⟩
  · rintro ⟨hfmt, h⟩
    exact (decode_ok_of_format hfmt).2 h

/-- No request is the empty list of words (R100). -/
theorem exists_cons_of_decode {ws : List Word} {i : Instr} (h : decode ws = .ok i) :
    ∃ header body, ws = header :: body := by
  cases ws with
  | nil => cases h
  | cons header body => exact ⟨header, body, rfl⟩

theorem decodeFields_ne_empty (fmt : Format) (header : Word) (body : List Word) :
    decodeFields fmt header body ≠ .error .empty := by
  cases fmt with
  | f => rw [decodeFields]; split <;> nofun
  | r => nofun
  | t =>
    rw [decodeFields]
    split
    · nofun
    · split <;> nofun
  | s => nofun
  | l => nofun

/-- A request with a header is rejected for a reason of R111, never as an empty one (R100). -/
theorem decode_cons_ne_empty (header : Word) (body : List Word) : decode (header :: body) ≠ .error .empty := by
  cases h : formatOf (opcodeOf header) with
  | none => rw [decode_of_no_format h]; nofun
  | some fmt =>
    rw [decode_of_format h]
    split
    · nofun
    · split
      · nofun
      · exact decodeFields_ne_empty fmt header body

/-- A TEST_WRITE that decodes: its length, its data bytes, and the pad bytes (R104 to R106). -/
theorem decode_testWrite {header : Word} {body : List Word} {code : Byte} {data : List Byte}
    (h : decode (header :: body) = .ok (.testWrite code data)) :
    data.length = dataCount header ∧ 0 < data.length ∧ body.length = ceilDiv (dataCount header) 4 ∧
      data = (unpackBytes body).take (dataCount header) ∧
      ∀ i, dataCount header ≤ i → i < 4 * body.length → byteAt body i = 0 := by
  obtain ⟨-, -, hlen, hfields⟩ := decode_ok_iff.1 h
  obtain ⟨hpos, hpad, hi⟩ := decodeFields_t_ok.1 hfields
  obtain ⟨-, rfl⟩ := Instr.testWrite.inj hi
  have hbody : body.length = ceilDiv (dataCount header) 4 := by
    simp only [Instr.format, requestLength] at hlen
    omega
  have htake : ((unpackBytes body).take (dataCount header)).length = dataCount header := by
    rw [List.length_take, unpackBytes_length, hbody, ceilDiv]
    omega
  exact ⟨htake, by omega, hbody, rfl, (drop_unpackBytes_all_zero_iff body _).1 hpad⟩

theorem encodeHeader (i : Instr) : Laws.EncodeHeader.Statement i := by
  cases i with
  | fieldWrite d value => exact Laws.EncodeHeader.fieldWrite d value
  | regRead bsel offset => exact Laws.EncodeHeader.regRead bsel offset
  | testWrite code data => exact Laws.EncodeHeader.testWrite code data
  | solve ref target => exact Laws.EncodeHeader.solve ref target
  | frLookup clk => exact Laws.EncodeHeader.frLookup clk

/-- Bits 19:8 of a Format F header (R102, R110). -/
theorem dh_of_header (dh : BitVec 12) (op : Byte) : (0#12 ++ dh ++ op).extractLsb' 8 12 = dh :=
  (extractLsb'_append_high (0#12 ++ dh) op 0 12).trans (extractLsb'_append_low 0#12 dh)

/-- Bits 19:18 of a Format R header (R103). -/
theorem bsel_of_header (bsel : BitVec 2) (op : Byte) : (0#12 ++ bsel ++ 0#10 ++ op).extractLsb' 18 2 = bsel :=
  ((extractLsb'_append_high (0#12 ++ bsel ++ 0#10) op 10 2).trans
    (extractLsb'_append_high (0#12 ++ bsel) 0#10 0 2)).trans (extractLsb'_append_low 0#12 bsel)

/-- Bits 15:8 of a Format T header (R104). -/
theorem code_of_header (n code op : Byte) : (0#8 ++ n ++ code ++ op).extractLsb' 8 8 = code :=
  (extractLsb'_append_high (0#8 ++ n ++ code) op 0 8).trans (extractLsb'_append_low (0#8 ++ n) code)

/-- The count field holds every length that is legal (R104). -/
theorem dataCount_of_header {data : List Byte} (h : data.length ≤ 255) (code : Byte) :
    dataCount (0#8 ++ BitVec.ofNat 8 data.length ++ code ++ 0x03#8) = data.length := by
  rw [dataCount_header, BitVec.toNat_ofNat, Nat.mod_eq_of_lt (by omega)]

/-- The operands of a well-formed command's own words are the command's (R109). -/
theorem decodeFields_encode {i : Instr} (hwf : i.wellFormed = true) {header : Word} {body : List Word}
    (h : encode i = header :: body) : decodeFields i.format header body = .ok i := by
  cases i with
  | fieldWrite d value =>
    obtain ⟨rfl, rfl⟩ := List.cons.inj h
    have hd : descDecode ((0#12 ++ (descEncode d).1 ++ 0x01#8 : Word).extractLsb' 8 12) (descEncode d).2 = d :=
      (congrArg (descDecode · _) (dh_of_header _ _)).trans (descDecode_descEncode d)
    refine decodeFields_f_ok.2 ⟨?_, congrArg (Instr.fieldWrite · value) hd⟩
    exact hd.symm ▸ of_decide_eq_true hwf
  | regRead bsel offset =>
    obtain ⟨rfl, rfl⟩ := List.cons.inj h
    exact congrArg (fun b => Except.ok (Instr.regRead b offset)) (bsel_of_header bsel 0x02#8)
  | testWrite code data =>
    obtain ⟨rfl, rfl⟩ := List.cons.inj h
    obtain ⟨hpos, hmax⟩ : 1 ≤ data.length ∧ data.length ≤ 255 := of_decide_eq_true hwf
    obtain ⟨pad, hpad⟩ := unpackBytes_packBytes data
    refine decodeFields_t_ok.2 ?_
    rw [dataCount_of_header hmax, hpad, List.drop_left, List.take_left]
    exact ⟨by omega, by simp, congrArg (Instr.testWrite · data) (code_of_header _ code 0x03#8)⟩
  | solve ref target => obtain ⟨rfl, rfl⟩ := List.cons.inj h; rfl
  | frLookup clk => obtain ⟨rfl, rfl⟩ := List.cons.inj h; rfl

/-- Decoding the words of a well-formed command gives the command back (R101 to R108). -/
theorem decode_encode {i : Instr} (hwf : i.wellFormed = true) : decode (encode i) = .ok i := by
  obtain ⟨header, body, henc, hfmt, hres, hlen⟩ := encodeHeader i
  rw [henc]
  exact decode_ok_iff.2 ⟨hfmt, hres, hlen hwf, decodeFields_encode hwf henc⟩

/-! The header of a request that decodes, put together from its fields with the reserved ones zero (R102 to R108). -/

theorem header_f_eq {header : Word} (hres : header &&& reservedMask .f = 0) (hop : opcodeOf header = Format.f.op) :
    0#12 ++ header.extractLsb' 8 12 ++ 0x01#8 = header := by
  change 0#12 ++ header.extractLsb' 8 12 ++ Format.f.op = header
  rw [← hop, opcodeOf, show 0#12 = header.extractLsb' 20 12 from ((reserved_f_iff header).1 hres).symm,
    BitVec.extractLsb'_append_extractLsb'_eq_extractLsb' (show 20 = 8 + 12 from rfl),
    BitVec.extractLsb'_append_extractLsb'_eq_extractLsb' (show 8 = 0 + 8 from rfl)]
  exact BitVec.extractLsb'_eq_self

theorem header_r_eq {header : Word} (hres : header &&& reservedMask .r = 0) (hop : opcodeOf header = Format.r.op) :
    0#12 ++ header.extractLsb' 18 2 ++ 0#10 ++ 0x02#8 = header := by
  obtain ⟨hhigh, hlow⟩ := (reserved_r_iff header).1 hres
  change 0#12 ++ header.extractLsb' 18 2 ++ 0#10 ++ Format.r.op = header
  rw [← hop, opcodeOf, show 0#12 = header.extractLsb' 20 12 from hhigh.symm,
    show 0#10 = header.extractLsb' 8 10 from hlow.symm,
    BitVec.extractLsb'_append_extractLsb'_eq_extractLsb' (show 20 = 18 + 2 from rfl),
    BitVec.extractLsb'_append_extractLsb'_eq_extractLsb' (show 18 = 8 + 10 from rfl),
    BitVec.extractLsb'_append_extractLsb'_eq_extractLsb' (show 8 = 0 + 8 from rfl)]
  exact BitVec.extractLsb'_eq_self

theorem header_t_eq {header : Word} (hres : header &&& reservedMask .t = 0) (hop : opcodeOf header = Format.t.op) :
    0#8 ++ BitVec.ofNat 8 (dataCount header) ++ header.extractLsb' 8 8 ++ 0x03#8 = header := by
  change 0#8 ++ BitVec.ofNat 8 (dataCount header) ++ header.extractLsb' 8 8 ++ Format.t.op = header
  rw [← hop, opcodeOf, show 0#8 = header.extractLsb' 24 8 from ((reserved_t_iff header).1 hres).symm, dataCount,
    BitVec.ofNat_toNat, BitVec.setWidth_eq]
  exact append_extractLsb'_bytes header

/-- The header of Formats S and L is the opcode alone (R107, R108). -/
theorem header_opcode {header : Word} (hres : header.extractLsb' 8 24 = 0) : 0#24 ++ opcodeOf header = header := by
  rw [opcodeOf, show 0#24 = header.extractLsb' 8 24 from hres.symm,
    BitVec.extractLsb'_append_extractLsb'_eq_extractLsb' (show 8 = 0 + 8 from rfl)]
  exact BitVec.extractLsb'_eq_self

theorem header_s_eq {header : Word} (hres : header &&& reservedMask .s = 0) (hop : opcodeOf header = Format.s.op) :
    0x00000004 = header := by
  rw [← header_opcode ((reserved_s_iff header).1 hres), hop]
  decide

theorem header_l_eq {header : Word} (hres : header &&& reservedMask .l = 0) (hop : opcodeOf header = Format.l.op) :
    0x00000005 = header := by
  rw [← header_opcode ((reserved_l_iff header).1 hres), hop]
  decide

/-- A request that decodes is the encoding of a well-formed command, word for word (R102 to R108). -/
theorem encode_of_decode {header : Word} {body : List Word} {i : Instr} (h : decode (header :: body) = .ok i) :
    i.wellFormed = true ∧ encode i = header :: body := by
  obtain ⟨hfmt, hres, hlen, hfields⟩ := decode_ok_iff.1 h
  have hop := op_of_formatOf hfmt
  cases i with
  | fieldWrite d value =>
    obtain ⟨hwf, hi⟩ := decodeFields_f_ok.1 hfields
    obtain ⟨offset, value', rfl⟩ := List.length_eq_two.1 (Nat.succ.inj hlen)
    obtain ⟨rfl, rfl⟩ := Instr.fieldWrite.inj hi
    refine ⟨decide_eq_true hwf, ?_⟩
    rw [encode, descEncode_descDecode, header_f_eq hres hop]
    rfl
  | regRead bsel offset =>
    obtain ⟨offset', rfl⟩ := List.length_eq_one_iff.1 (Nat.succ.inj hlen)
    cases hfields
    exact ⟨rfl, congrArg (· :: _) (header_r_eq hres hop)⟩
  | testWrite code data =>
    obtain ⟨hcount, hpos, hbody, hdata, -⟩ := decode_testWrite h
    obtain ⟨-, hpad, hi⟩ := decodeFields_t_ok.1 hfields
    obtain ⟨hcode, -⟩ := Instr.testWrite.inj hi
    have hmax : dataCount header < 2 ^ 8 := BitVec.isLt _
    refine ⟨decide_eq_true ⟨hpos, by rw [hcount]; exact Nat.le_of_lt_succ hmax⟩, ?_⟩
    rw [encode, hcount, ← hcode, header_t_eq hres hop, hdata,
      packBytes_take_unpackBytes body _ hbody (by simpa using hpad)]
  | solve ref target =>
    obtain ⟨ref', target', rfl⟩ := List.length_eq_two.1 (Nat.succ.inj hlen)
    cases hfields
    exact ⟨rfl, congrArg (· :: _) (header_s_eq hres hop)⟩
  | frLookup clk =>
    obtain ⟨clk', rfl⟩ := List.length_eq_one_iff.1 (Nat.succ.inj hlen)
    cases hfields
    exact ⟨rfl, congrArg (· :: _) (header_l_eq hres hop)⟩

/-- A request is a legal command exactly where it decodes. -/
theorem exists_encode_iff_decodes (ws : List Word) :
    (∃ i, i.wellFormed = true ∧ encode i = ws) ↔ ∃ i, decode ws = .ok i := by
  constructor
  · rintro ⟨i, hwf, rfl⟩
    exact ⟨i, decode_encode hwf⟩
  · rintro ⟨i, h⟩
    obtain ⟨header, body, rfl⟩ := exists_cons_of_decode h
    exact ⟨i, encode_of_decode h⟩

end Sys2Proof

/-! PROOFS. A request is ILLEGAL exactly where it does not decode (30_encoding.md R111, R113). -/

namespace Sys2Proof

/-- IL4 is a Format F field that does not lie within the word (R102, R111). -/
theorem il4_iff {header : Word} (h : formatOf (opcodeOf header) = some .f) (offset : Word) :
    il4 header ↔ ¬(descDecode (header.extractLsb' 8 12) offset).wellFormed := by
  simp only [il4, opNumber_of_formatOf h, Desc.wellFormed, descDecode, BitVec.extractLsb'_toNat,
    Nat.shiftRight_eq_div_pow]
  simp only [Format.op, BitVec.reduceToNat, true_and]
  omega

/-- IL5 is a Format T request without data (R104, R111). -/
theorem il5_iff {header : Word} (h : formatOf (opcodeOf header) = some .t) : il5 header ↔ dataCount header = 0 := by
  rw [il5, opNumber_of_formatOf h, countNumber_eq]
  exact and_iff_right rfl

/-- IL6 is a Format T request with a pad byte that is not zero (R106, R111). -/
theorem il6_iff {header : Word} (h : formatOf (opcodeOf header) = some .t) (body : List Word) :
    il6 header body ↔ ¬((unpackBytes body).drop (dataCount header)).all (· = 0) = true := by
  have hbyte (i : Nat) : (body.getD (i / 4) 0).toNat / 2 ^ (8 * (i % 4)) % 2 ^ 8 = 0 ↔ byteAt body i = 0 :=
    (extractLsb'_eq_zero_iff _ _ 8).symm
  rw [drop_unpackBytes_all_zero_iff, il6, opNumber_of_formatOf h, countNumber_eq]
  simp only [ne_eq, hbyte]
  push Not
  exact and_iff_right rfl

/-- IL4, IL5 and IL6 are what the operands of a format can fail (R111). -/
theorem illegalFields_iff {header : Word} {fmt : Format} (h : formatOf (opcodeOf header) = some fmt) (body : List Word) :
    il4 header ∨ il5 header ∨ il6 header body ↔ ¬∃ i, decodeFields fmt header body = .ok i := by
  have hop := opNumber_of_formatOf h
  cases fmt with
  | f =>
    simp only [decodeFields_f_ok, exists_and_left, exists_eq', and_true, il4_iff h (body.getD 0 0)]
    simp [il5, il6, hop, Format.op]
  | t =>
    have hil4 : ¬il4 header := by simp [il4, hop, Format.op]
    simp only [decodeFields_t_ok, exists_and_left, exists_eq', and_true, il5_iff h, il6_iff h, hil4, false_or]
    tauto
  | r => simp [il4, il5, il6, hop, Format.op, decodeFields]
  | s => simp [il4, il5, il6, hop, Format.op, decodeFields]
  | l => simp [il4, il5, il6, hop, Format.op, decodeFields]

/-- A request is ILLEGAL exactly where it does not decode: the opcode, then with its format the reserved bits, the length
and the operands (R111, R113). -/
theorem isIllegal_iff_not_decodes (header : Word) (body : List Word) :
    isIllegal header body ↔ ¬∃ i, decode (header :: body) = .ok i := by
  unfold isIllegal
  cases h : formatOf (opcodeOf header) with
  | none => simp [decode_of_no_format h, (formatOf_eq_none_iff header).1 h]
  | some fmt =>
    have hil1 : ¬il1 header := by rw [← formatOf_eq_none_iff, h]; exact Option.some_ne_none fmt
    simp only [decode_ok_of_format h, il2_iff h, il3_iff h, illegalFields_iff h, hil1, false_or, exists_and_left]
    tauto

/-- Settles O3: the legal requests are those that decode, the ILLEGAL ones those that do not. -/
theorem everyRequestIsLegalOrIllegal : Obligations.EveryRequestIsLegalOrIllegal := by
  unfold Obligations.EveryRequestIsLegalOrIllegal
  intro header body
  rw [exists_encode_iff_decodes, isIllegal_iff_not_decodes]
  exact ⟨em _, and_not_self⟩

end Sys2Proof

/-! PROOFS. What an ILLEGAL request is answered (30_encoding.md R111). -/

namespace Sys2Proof.Machine

/-- A request that does not decode is answered ILLEGAL by a ready machine, and nothing else changes (R111). -/
theorem deliver_of_not_decodes {s : State} (hs : s.ready) {header : Word} {body : List Word}
    (h : ¬∃ i, decode (header :: body) = .ok i) : deliver (header :: body) s = .next (s.answers [0x00000001]) := by
  have hanswer : illegalRequest s = .next (s.answers [0x00000001]) := by
    rw [illegalRequest, accept_of_ready hs, raiseStatus_of_idle hs.2]
    rfl
  unfold deliver
  split
  · next i hi => exact absurd ⟨i, hi⟩ h
  · next hempty => exact absurd hempty (decode_cons_ne_empty header body)
  · exact hanswer

/-- Settles O4: an ILLEGAL request does not decode, and a ready machine answers that with the status alone. -/
theorem illegalRequestAnswersStatusOnly : Obligations.IllegalRequestAnswersStatusOnly := by
  unfold Obligations.IllegalRequestAnswersStatusOnly
  intro s header body rest hs hinbox hillegal
  have hstep : step s = deliver (header :: body) { s with inbox := rest } := by rw [step, hinbox]; rfl
  rw [hstep]
  exact deliver_of_not_decodes (s := { s with inbox := rest }) hs ((isIllegal_iff_not_decodes header body).1 hillegal)

end Sys2Proof.Machine

/-! PROOFS. The shape of a TEST_WRITE request, the descriptor codec and the worked encodings (30_encoding.md R105, R106,
R110, R117). -/

namespace Sys2Proof

open Machine

/-- Settles O6: the encoder packs four bytes to a word, and the decoder takes the length that the count gives. -/
theorem testWriteRequestLength : Obligations.TestWriteRequestLength := by
  unfold Obligations.TestWriteRequestLength
  refine ⟨fun code data _ _ => ?_, fun header body code data h => ?_, by decide⟩
  · rw [encode, List.length_cons, packBytes_length, Nat.add_comm]
  · obtain ⟨hcount, -, hbody, -, -⟩ := decode_testWrite h
    rw [countNumber_eq]
    exact ⟨hcount, by rw [hbody, Nat.add_comm]⟩

/-- Word `1 + i div 4` of a request is word `i div 4` of its body (R106). -/
theorem request_byte (header : Word) (body : List Word) (i : Nat) :
    ((header :: body).getD (1 + i / 4) 0).extractLsb' (8 * (i % 4)) 8 = byteAt body i := by
  rw [byteAt, Nat.add_comm, List.getD_cons_succ]

/-- The first data byte is on the data lines after the five line writes of the code and the first clock write (R170). -/
theorem transferWrites_first_data (code first : Byte) (rest : List Byte) :
    (transferWrites code (first :: rest))[6]? = some (.din, first.setWidth 32) := rfl

/-- Settles O7: the data are the first bytes of the body, and the decoder has checked that the others are zero. -/
theorem dataBytesPackLittleEndian : Obligations.DataBytesPackLittleEndian := by
  unfold Obligations.DataBytesPackLittleEndian
  intro ws code data h
  obtain ⟨header, body, rfl⟩ := exists_cons_of_decode h
  obtain ⟨hcount, hpos, -, hdata, hpad⟩ := decode_testWrite h
  simp only [request_byte, List.length_cons, Nat.add_sub_cancel]
  refine ⟨fun i hi => ?_, hcount ▸ hpad, ?_⟩
  · simp only [hdata, List.getElem_take, unpackBytes_getElem]
  · obtain ⟨first, rest, rfl⟩ := List.exists_cons_of_length_pos hpos
    exact ⟨first, rfl, transferWrites_first_data code first rest⟩

/-- `dh` is the number `bsel`, `width - 1` and `boff` make, from the highest bit down (R110). -/
theorem descEncode_toNat (d : Desc) :
    (descEncode d).1.toNat = d.bsel.toNat * 2 ^ 10 + (d.width - 1) * 2 ^ 5 + d.boff.toNat := by
  have hwm1 := d.wm1.isLt
  have hboff := d.boff.isLt
  rw [descEncode, BitVec.toNat_append, BitVec.toNat_append, ← Nat.shiftLeft_add_eq_or_of_lt hboff,
    ← Nat.shiftLeft_add_eq_or_of_lt hwm1, Nat.shiftLeft_eq, Nat.shiftLeft_eq, Desc.width]
  omega

/-- A FIELD_WRITE that decodes has its field within the word (R110, IL4). -/
theorem wellFormed_of_decode_fieldWrite {ws : List Word} {d : Desc} {value : Word}
    (h : decode ws = .ok (.fieldWrite d value)) : d.wellFormed := by
  obtain ⟨header, body, rfl⟩ := exists_cons_of_decode h
  exact of_decide_eq_true (encode_of_decode h).1

/-- Settles O8: the codec's two round trips, its number, its place in the header, and the legality of what decodes. -/
theorem descriptorCodecRoundTrip : Obligations.DescriptorCodecRoundTrip := by
  unfold Obligations.DescriptorCodecRoundTrip
  exact ⟨fun d => ⟨descDecode_descEncode d, descEncode_toNat d, rfl⟩, descEncode_descDecode,
    fun d _ => dh_of_header (descEncode d).1 0x01#8, fun _ _ _ h => wellFormed_of_decode_fieldWrite h⟩

/-- Settles O5: each row by running the assembler on the text, for every configuration, symbol table and marker, and the
decoder on the words. -/
theorem workedEncodings : Obligations.WorkedEncodings := by
  unfold Obligations.WorkedEncodings
  have too_wide : il4 0x00007E01 := by unfold il4; decide
  exact ⟨fun _ _ _ => ⟨rfl, rfl, rfl, rfl, rfl, rfl, rfl, rfl⟩,
    rfl, rfl, rfl, rfl, rfl, rfl, rfl, rfl, fun _ _ => rfl, too_wide⟩

end Sys2Proof

/-! PROOFS. The field mask and the merged words of two fields (41_field_codec.md R141, R146). -/

namespace Sys2Proof

open Machine

/-- A field within the word ends at bit 32 or below (R13). -/
theorem Desc.wellFormed_iff (d : Desc) : d.wellFormed ↔ d.boff.toNat + d.width ≤ 32 := Iff.rfl

/-- Within the word, no bit of the field is cut off by the word's end (R141). -/
theorem Desc.getLsbD_fmask_iff {d : Desc} (hd : d.wellFormed) (i : Nat) :
    d.fmask.getLsbD i = true ↔ d.boff.toNat ≤ i ∧ i < d.boff.toNat + d.width := by
  have hend := d.wellFormed_iff.1 hd
  rw [getLsbD_fmask, Bool.and_eq_true, Bool.and_eq_true, decide_eq_true_eq, decide_eq_true_eq, decide_eq_true_eq]
  omega

/-- A field of the whole word starts at bit 0, so its mask needs no shift (R141). -/
theorem Desc.boff_of_width_32 {d : Desc} (hd : d.wellFormed) (hwidth : d.width = 32) : d.boff = 0 := by
  have hend := d.wellFormed_iff.1 hd
  apply BitVec.eq_of_toNat_eq
  change d.boff.toNat = 0
  omega

/-- Settles O10: the bits by the mask's bit lemma, the whole word because its field starts at bit 0. -/
theorem fieldMaskBits : Obligations.FieldMaskBits := by
  unfold Obligations.FieldMaskBits
  intro d hd
  refine ⟨rfl, Desc.getLsbD_fmask_iff hd, fun hwidth => ?_⟩
  have hboff := Desc.boff_of_width_32 hd hwidth
  refine ⟨hboff, ?_⟩
  rw [Desc.fmask, hwidth, hboff]
  rfl

/-- Merging two fields that share no bit gives the same word in either order (R146). -/
theorem Desc.merge_comm {d e : Desc} (h : rangesDisjoint d e) (w v u : Word) :
    e.merge (d.merge w v) u = d.merge (e.merge w u) v := by
  apply BitVec.eq_of_getLsbD_eq
  intro i _
  simp only [getLsbD_merge]
  by_cases hd : d.boff.toNat ≤ i ∧ i < d.boff.toNat + d.width ∧ i < 32
  · rw [if_pos hd, if_pos hd, if_neg (by rcases h with h | h <;> omega)]
  · rw [if_neg hd, if_neg hd]

/-- A bit of the first field that the second does not cover keeps the first value (R146). -/
theorem Desc.getLsbD_merge_merge {d e : Desc} (hd : d.wellFormed) (w v u : Word) {i : Nat} (hlow : d.boff.toNat ≤ i)
    (hhigh : i < d.boff.toNat + d.width) (he : i < e.boff.toNat ∨ e.boff.toNat + e.width ≤ i) :
    (e.merge (d.merge w v) u).getLsbD i = v.getLsbD (i - d.boff.toNat) := by
  have hend := d.wellFormed_iff.1 hd
  rw [getLsbD_merge, if_neg (by omega), getLsbD_merge, if_pos (by omega)]

end Sys2Proof

/-! PROOFS. What FIELD_WRITE and REG_READ answer in each case of their checks, as whole states (41_field_codec.md R142,
R150), and what the field codec's other rules say of those states (R144 to R148). -/

namespace Sys2Proof.Machine

/-- A decode check that is one of R111's grounds is answered ILLEGAL before any access (R111, R291). -/
theorem rejects_of_isIllegal {s : State} (hs : s.ready) (op : Nat) {bad : Word → List Word → Prop}
    (h : ∀ header body, bad header body → isIllegal header body) : s.rejects op bad := by
  intro header body rest _ hbad
  exact illegalRequestAnswersStatusOnly { s with inbox := .request (header :: body) :: rest } header body rest hs rfl
    (h header body hbad)

/-- The state a field write leaves, written out: the word, the receiver's reaction, and the two accesses (R142). -/
theorem fieldWrite_eq (d : Desc) (v : Word) (s : State) :
    fieldWrite d v s = { s with
      rs := s.rs.writeWord (s.cfg.addr d) (d.merge (s.rs.readWord (s.cfg.addr d)) v)
      trx := observe s.cfg s.lines (fieldWrite d v s).lines s.trx
      trace := s.trace ++ [.read (s.cfg.addr d) (s.rs.readWord (s.cfg.addr d)),
        .write (s.cfg.addr d) (d.merge (s.rs.readWord (s.cfg.addr d)) v)] } := by
  rw [← fieldWrite_trace]
  rfl

section
variable {s : State} {d : Desc} {b : BitVec 2} {o v : Word}

/-- A field that runs past bit 31 is ILLEGAL before the address is looked at (R142, R291). -/
theorem exec_fieldWrite_of_not_wellFormed (hs : s.ready) (hd : ¬d.wellFormed) :
    exec (.fieldWrite d v) s = .next (s.answers [0x00000001]) := by
  change execFieldWrite d v s = _
  rw [execFieldWrite, accept_of_ready hs, if_pos hd, raiseStatus_of_idle hs.2]
  rfl

theorem exec_fieldWrite_of_size_le (hs : s.ready) (hd : d.wellFormed) (h : s.cfg.aw.size ≤ s.cfg.addr d) :
    exec (.fieldWrite d v) s = .next (s.answers [0x00000002]) := by
  rw [exec_fieldWrite_of_ready hs hd, afterAddrCheck_of_size_le hs.2 h]

theorem exec_fieldWrite_of_misaligned (hs : s.ready) (hd : d.wellFormed) (h : s.cfg.addr d < s.cfg.aw.size)
    (halign : s.cfg.addr d % 4 ≠ 0) : exec (.fieldWrite d v) s = .next (s.answers [0x00000003]) := by
  rw [exec_fieldWrite_of_ready hs hd, afterAddrCheck_of_misaligned hs.2 h halign]

/-- A FIELD_WRITE that passes its checks is the field write and then OK (R142). -/
theorem exec_fieldWrite_of_passed (hs : s.ready) (hd : d.wellFormed) (h : s.cfg.addr d < s.cfg.aw.size)
    (halign : s.cfg.addr d % 4 = 0) :
    exec (.fieldWrite d v) s = .next ((fieldWrite d v s).answers [0x00000000]) := by
  rw [exec_fieldWrite_of_ready hs hd, afterAddrCheck_of_passed h halign, runCommand_fieldWrite,
    respond_ok_of_idle (s := fieldWrite d v s) hs.2]

theorem exec_regRead_of_size_le (hs : s.ready) (h : s.cfg.aw.size ≤ s.cfg.ea b o) :
    exec (.regRead b o) s = .next (s.answers [0x00000002]) := by
  rw [exec_regRead_of_ready hs, afterAddrCheck_of_size_le hs.2 h]

theorem exec_regRead_of_misaligned (hs : s.ready) (h : s.cfg.ea b o < s.cfg.aw.size)
    (halign : s.cfg.ea b o % 4 ≠ 0) : exec (.regRead b o) s = .next (s.answers [0x00000003]) := by
  rw [exec_regRead_of_ready hs, afterAddrCheck_of_misaligned hs.2 h halign]

/-- A REG_READ that passes its checks is the read and then OK with the word (R150). -/
theorem exec_regRead_of_passed (hs : s.ready) (h : s.cfg.ea b o < s.cfg.aw.size) (halign : s.cfg.ea b o % 4 = 0) :
    exec (.regRead b o) s =
      .next ((rsRead (s.cfg.ea b o) s).2.answers [0x00000000, s.rs.readWord (s.cfg.ea b o)]) := by
  rw [exec_regRead_of_ready hs, afterAddrCheck_of_passed h halign, runCommand_regRead,
    respond_ok_of_idle (s := (rsRead (s.cfg.ea b o) s).2) hs.2]

/-- After a FIELD_WRITE the sequencer is ready for the next command (R32). -/
theorem ready_answers_fieldWrite (hs : s.ready) (r : List Word) : ((fieldWrite d v s).answers r).ready := hs

/-- A field write that moves no line level leaves the receiver alone while the clear is low (R145, R183). -/
theorem fieldWrite_trx_of_same_lines (hlines : (fieldWrite d v s).lines = s.lines) (hclr : s.lines.clr = 0) :
    (fieldWrite d v s).trx = s.trx := by
  rw [fieldWrite_trx, hlines]
  exact observe_same_clk rfl (by rw [hclr]; decide)

end

/-- The rule's example: writing 0x1A5 to bits 11:4 of a word of ones (R142). -/
theorem merge_example : Desc.merge ⟨0, 0x40, 7, 4⟩ 0xFFFFFFFF 0x1A5 = 0xFFFFFA5F := by decide

/-- Settles O11: the decode checks are grounds of R111, and each range of the operands has its lemma. -/
theorem fieldWriteFollowsPseudocode : Obligations.FieldWriteFollowsPseudocode := by
  unfold Obligations.FieldWriteFollowsPseudocode
  refine ⟨?_, merge_example⟩
  intro s d value hs a w w' rs'
  refine ⟨?opcode, ?decode, fun hwide => ?illegal, fun hd hsize => ?eaddr, fun hd hlt halign => ?misaligned,
    fun hd hlt halign => ?ok⟩
  case opcode => exact opcodeOf_append _ _ rfl
  case decode => exact rejects_of_isIllegal hs 1 fun _ _ hbad => .inr (hbad.imp_right (.imp_right .inl))
  case illegal => exact exec_fieldWrite_of_not_wellFormed hs (mt d.wellFormed_iff.1 (Nat.not_le.2 hwide))
  case eaddr => exact exec_fieldWrite_of_size_le hs (d.wellFormed_iff.2 hd) hsize
  case misaligned => exact exec_fieldWrite_of_misaligned hs (d.wellFormed_iff.2 hd) hlt halign
  case ok =>
    rw [exec_fieldWrite_of_passed hs (d.wellFormed_iff.2 hd) hlt halign, fieldWrite_eq]
    rfl

/-- Settles O12: the word read back is the merged word, whose field is the masked value. -/
theorem fieldWriteRoundTrip : Obligations.FieldWriteRoundTrip := by
  unfold Obligations.FieldWriteRoundTrip
  intro s d value hs hrs hd hlt halign
  refine ⟨_, exec_fieldWrite_of_passed hs hd hlt halign, rfl, ?_⟩
  rw [answers_rs, readWord_fieldWrite_same hrs, Desc.fieldval_merge hd]

/-- Settles O13: the merge keeps the bits outside the field, the write every byte outside its word. -/
theorem fieldWriteFrame : Obligations.FieldWriteFrame := by
  unfold Obligations.FieldWriteFrame
  intro s d value hs hrs hd hlt halign
  refine ⟨_, exec_fieldWrite_of_passed hs hd hlt halign, ?bits, fun b hb hne => ?word, fun b hb => ?byte,
    rfl, rfl, rfl, rfl, fieldWrite_trx_of_same_lines⟩
  case bits => rw [answers_rs, readWord_fieldWrite_same hrs, Desc.merge_outside]
  case word => exact readWord_fieldWrite_ne d value halign hb hne
  case byte => rw [answers_rs, fieldWrite_rs, Memory.readByte_writeWord_other _ _ hb]

/-- The word after two FIELD_WRITEs to it is the second's merge into the first's (R146). -/
theorem readWord_fieldWrite_fieldWrite {s : State} (hrs : s.rs.wf) {d e : Desc} (haddr : s.cfg.addr e = s.cfg.addr d)
    (v u : Word) : (fieldWrite e u (fieldWrite d v s)).rs.readWord (s.cfg.addr d) =
      e.merge (d.merge (s.rs.readWord (s.cfg.addr d)) v) u := by
  rw [← haddr]
  change (fieldWrite e u (fieldWrite d v s)).rs.readWord ((fieldWrite d v s).cfg.addr e) = _
  rw [readWord_fieldWrite_same (fieldWrite_rs_wf hrs d v), fieldWrite_cfg, haddr, readWord_fieldWrite_same hrs]

/-- Settles O14: both orders end in one merge of the other, and disjoint merges commute. -/
theorem fieldWritesCompose : Obligations.FieldWritesCompose := by
  unfold Obligations.FieldWritesCompose
  intro s d1 d2 v1 v2 hs hrs hd1 hd2 hlt halign haddr
  have hlt2 : s.cfg.addr d2 < s.cfg.aw.size := haddr ▸ hlt
  have halign2 : s.cfg.addr d2 % 4 = 0 := haddr ▸ halign
  refine ⟨_, _, _, _, exec_fieldWrite_of_passed hs hd1 hlt halign,
    exec_fieldWrite_of_passed (ready_answers_fieldWrite hs _) hd2 hlt2 halign2,
    exec_fieldWrite_of_passed hs hd2 hlt2 halign2,
    exec_fieldWrite_of_passed (ready_answers_fieldWrite hs _) hd1 hlt halign, ?_⟩
  intro a written final
  have hwritten : (fieldWrite d1 v1 s).rs.readWord a = written := readWord_fieldWrite_same hrs d1 v1
  have hfinal : final = d2.merge written v2 := readWord_fieldWrite_fieldWrite hrs haddr v1 v2
  refine ⟨hwritten, ?trace, ?second, fun i hlow hhigh hout => ?overlap, fun hmask => ?disjoint⟩
  case trace =>
    have htrace := fieldWrite_trace d2 v2 (fieldWrite d1 v1 s)
    rw [fieldWrite_cfg, haddr, hwritten, ← hfinal] at htrace
    exact htrace
  case second => rw [hfinal, Desc.fieldval_merge hd2]
  case overlap => rw [hfinal, Desc.getLsbD_merge_merge hd1 _ v1 v2 hlow hhigh hout]
  case disjoint =>
    have hdis := rangesDisjoint_of_fmask hd1 hd2 hmask
    have hswapped := readWord_fieldWrite_fieldWrite hrs haddr.symm v2 v1
    rw [haddr] at hswapped
    rw [hfinal, Desc.merge_comm hdis, Desc.fieldval_merge hd1]
    exact ⟨rfl, hswapped⟩

/-- Settles O16: the passing command's trace is the field write's, a failing one answers its status alone. -/
theorem fieldWriteAccessTrace : Obligations.FieldWriteAccessTrace := by
  unfold Obligations.FieldWriteAccessTrace
  intro s d value hs a
  refine ⟨fun hd hlt halign => ?_, fun hfail => ?_⟩
  · exact ⟨_, exec_fieldWrite_of_passed hs hd hlt halign, fieldWrite_trace d value s⟩
  · by_cases hd : d.wellFormed
    · by_cases hlt : a < s.cfg.aw.size
      · exact ⟨_, exec_fieldWrite_of_misaligned hs hd hlt fun halign => hfail ⟨hd, hlt, halign⟩, rfl⟩
      · exact ⟨_, exec_fieldWrite_of_size_le hs hd (Nat.not_lt.1 hlt), rfl⟩
    · exact ⟨_, exec_fieldWrite_of_not_wellFormed hs hd, rfl⟩

/-- Settles O17: the decode checks are grounds of R111, each range of the address has its lemma, and the example reads
the merged word back. -/
theorem regReadFollowsPseudocode : Obligations.RegReadFollowsPseudocode := by
  unfold Obligations.RegReadFollowsPseudocode
  intro s bsel offset hs a
  refine ⟨?opcode, ?decode, exec_regRead_of_size_le hs, exec_regRead_of_misaligned hs, exec_regRead_of_passed hs,
    ?ex⟩
  case opcode => exact opcodeOf_append _ _ rfl
  case decode => exact rejects_of_isIllegal hs 2 fun _ _ hbad => .inr (hbad.imp_right .inl)
  case ex =>
    rintro rfl rfl hlt halign hword hrs
    have hread : (fieldWrite ⟨0, 0x40, 7, 4⟩ 0x1A5 s).rs.readWord a = 0xFFFFFA5F := by
      rw [← merge_example, ← hword]
      exact readWord_fieldWrite_same hrs ⟨0, 0x40, 7, 4⟩ 0x1A5
    refine ⟨_, _, exec_fieldWrite_of_passed hs (by decide) hlt halign,
      exec_regRead_of_passed (ready_answers_fieldWrite hs _) hlt halign, ?_⟩
    exact congrArg (fun w => _ ++ [[0x00000000, w]]) hread

end Sys2Proof.Machine

/-! PROOFS. The receiver at one RS write (42_test_interface.md R180 to R183): what it does in each branch, as a whole
receiver. -/

namespace Sys2Proof.Machine

/-- One write changes `test_clk` together with another line (R180, R184 (b)). -/
abbrev Lines.clkWithOther (old new : Lines) : Prop :=
  old.clk ≠ new.clk ∧ (old.en ≠ new.en ∨ old.clr ≠ new.clr ∨ old.din ≠ new.din)

/-- The falling edge of `test_clk` that latches a code (R181). -/
abbrev Lines.latchEdge (old new : Lines) : Prop := old.clk = 1 ∧ new.clk = 0 ∧ new.en = 1

/-- The rising edge of `test_clk` that captures a data byte (R182). -/
abbrev Lines.captureEdge (old new : Lines) : Prop := old.clk = 0 ∧ new.clk = 1 ∧ new.en = 0

section
variable {cfg : Config} {old new : Lines} {r : Receiver}

theorem observe_of_clkWithOther (h : old.clkWithOther new) : observe cfg old new r = { r with trxFault := true } :=
  if_pos h

theorem observe_of_clr (h : ¬old.clkWithOther new) (hclr : new.clr = 1) : observe cfg old new r = r.cleared cfg :=
  (if_neg h).trans (if_pos hclr)

theorem observe_of_latchEdge (h : ¬old.clkWithOther new) (hclr : new.clr ≠ 1) (hedge : old.latchEdge new) :
    observe cfg old new r = r.latch new.din :=
  (if_neg h).trans ((if_neg hclr).trans (if_pos hedge))

/-- The two edges exclude each other by the clock before the write. -/
theorem Lines.captureEdge.not_latchEdge (hedge : old.captureEdge new) : ¬old.latchEdge new := by
  obtain ⟨hlow, -, -⟩ := hedge
  rintro ⟨hhigh, -, -⟩
  rw [hlow] at hhigh
  cases hhigh

theorem observe_of_captureEdge (h : ¬old.clkWithOther new) (hclr : new.clr ≠ 1) (hedge : old.captureEdge new) :
    observe cfg old new r = r.capture cfg new.din :=
  (if_neg h).trans ((if_neg hclr).trans ((if_neg hedge.not_latchEdge).trans (if_pos hedge)))

theorem observe_of_no_edge (h : ¬old.clkWithOther new) (hclr : new.clr ≠ 1) (hlatch : ¬old.latchEdge new)
    (hcapture : ¬old.captureEdge new) : observe cfg old new r = r :=
  (if_neg h).trans ((if_neg hclr).trans ((if_neg hlatch).trans (if_neg hcapture)))

end

/-- A data capture with no code latched is the fault of R184 (a). -/
theorem capture_of_no_code {cfg : Config} {r : Receiver} (h : r.codeLatch = none) (d : Byte) :
    r.capture cfg d = { r with trxFault := true } := by
  rw [Receiver.capture, h]

/-- A data capture with a code latched writes one test register and counts (R182). -/
theorem capture_of_code {cfg : Config} {r : Receiver} {code : Byte} (h : r.codeLatch = some code) (d : Byte) :
    r.capture cfg d = { r with
      treg := r.treg.set (captureAddr cfg.multiByte code r.k).toNat (some d)
        (captureAddr cfg.multiByte code r.k).isLt
      k := r.k + 1 } := by
  rw [Receiver.capture, h]

/-- Under INCR the captured register's number is the sum modulo 256 (R182). -/
theorem captureAddr_incr_toNat (code k : Byte) : (captureAddr .incr code k).toNat = (code.toNat + k.toNat) % 256 :=
  BitVec.toNat_add code k

/-- Settles O30: each clause is the branch of that name, and the capture's by the latched code and the policy. -/
theorem receiverFollowsTrxObserve : Obligations.ReceiverFollowsTrxObserve := by
  unfold Obligations.ReceiverFollowsTrxObserve
  intro s a v old new r r' two fall rise
  have hr' : r' = observe s.cfg old new r := rsWrite_trx a v s
  refine ⟨?_, ?_, ?_, ?_, ?_, ?_, fun hsame => ⟨?_, ?_⟩⟩ <;> rw [hr']
  · exact observe_of_clkWithOther
  · exact observe_of_clr
  · exact observe_of_latchEdge
  · intro htwo hclr hrise hcode
    rw [observe_of_captureEdge htwo hclr hrise, capture_of_no_code hcode]
  · intro code htwo hclr hrise hcode
    rw [observe_of_captureEdge htwo hclr hrise, capture_of_code hcode]
    refine ⟨?count, rfl, rfl, fun hsame => ?same, fun hincr => ?incr⟩
    case count => exact BitVec.eq_of_toNat_eq (by simp)
    case same => simp only [hsame, captureAddr]
    case incr => simp only [hincr, captureAddr_incr_toNat]
  · exact observe_of_no_edge
  · exact observe_clr (.inl (congrArg Lines.clk hsame.symm))
  · exact observe_same_clk (congrArg Lines.clk hsame.symm)

/-- A write of `test_clk` alone never counts as a write of two lines. -/
theorem not_clkWithOther_of_clk_alone (ls : Lines) (c : BitVec 1) : ¬ls.clkWithOther { ls with clk := c } := by
  rintro ⟨-, h | h | h⟩ <;> exact h rfl

/-- With the clear low, `test_clk` rising alone under `test_enable = 1` is no event (R183). -/
theorem observe_rise_enabled {cfg : Config} {ls : Lines} {r : Receiver} (hclr : ls.clr = 0) (hen : ls.en = 1) :
    observe cfg ls { ls with clk := 1 } r = r := by
  refine observe_of_no_edge (not_clkWithOther_of_clk_alone ls 1) (by simp [hclr]) ?_ ?_
  · rintro ⟨-, h, -⟩; cases h
  · rintro ⟨-, -, h⟩; simp [hen] at h

/-- With the clear low, `test_clk` falling alone under `test_enable = 0` is no event (R183). -/
theorem observe_fall_disabled {cfg : Config} {ls : Lines} {r : Receiver} (hclr : ls.clr = 0) (hen : ls.en = 0) :
    observe cfg ls { ls with clk := 0 } r = r := by
  refine observe_of_no_edge (not_clkWithOther_of_clk_alone ls 0) (by simp [hclr]) ?_ ?_
  · rintro ⟨-, -, h⟩; simp [hen] at h
  · rintro ⟨-, h, -⟩; cases h

/-- Settles O32: the two clock moves have no edge the receiver acts on, the other three leave `test_clk` alone. -/
theorem nonEventsLeaveTheReceiver : Obligations.NonEventsLeaveTheReceiver := by
  unfold Obligations.NonEventsLeaveTheReceiver
  intro s a v old new hclr hcase
  have hlow : new.clr ≠ 1 := by rw [hclr]; decide
  change observe s.cfg old new s.trx = s.trx
  obtain ⟨-, hnew, hen⟩ | ⟨-, hnew, hen⟩ | hnew | hnew | ⟨-, hnew⟩ := hcase
  · rw [hnew] at hclr hen ⊢
    exact observe_rise_enabled hclr hen
  · rw [hnew] at hclr hen ⊢
    exact observe_fall_disabled hclr hen
  · exact observe_same_clk (congrArg Lines.clk hnew).symm hlow
  · exact observe_same_clk (congrArg Lines.clk hnew).symm hlow
  · exact observe_same_clk (congrArg Lines.clk hnew).symm hlow

end Sys2Proof.Machine

/-! PROOFS. A TEST_WRITE as one whole state: the phase machine of R172 performs the straight list of line writes of R170
and responds OK (42_test_interface.md). -/

namespace Sys2Proof.Machine

/-- The five line writes of the code phases (R170). -/
def codeWrites (code : Byte) : List (Line × Word) :=
  [(.clk, 1), (.din, code.setWidth 32), (.en, 1), (.clk, 0), (.en, 0)]

/-- The line writes of the data phases, three for each byte (R170). -/
def dataWrites (data : List Byte) : List (Line × Word) := data.flatMap byteWrites

theorem transferWrites_eq (code : Byte) (data : List Byte) :
    transferWrites code data = codeWrites code ++ dataWrites data := rfl

@[simp] theorem dataWrites_nil : dataWrites [] = [] := rfl

theorem dataWrites_cons (b : Byte) (bs : List Byte) : dataWrites (b :: bs) = byteWrites b ++ dataWrites bs := rfl

/-- The phases D1 to D3 of one byte, started at D1, perform its three line writes (R172). -/
theorem runPhases_byte (code : Byte) (data : List Byte) {i : Nat} (hi : i < data.length) (n : Nat) (s : State) :
    runPhases (n + 3) (s.setSeq (.busy (.testWrite ⟨code, data, .d1, i⟩))) =
      runPhases n ((writeLines (byteWrites data[i]) s).setSeq
        (.busy (.testWrite (tibNext ⟨code, data, .d3, i⟩)))) := by
  rw [← List.getD_eq_getElem data 0 hi]
  calc runPhases (n + 3) (s.setSeq (.busy (.testWrite ⟨code, data, .d1, i⟩)))
    _ = runPhases (n + 2) _ := runPhases_tib (t := ⟨code, data, .d1, i⟩) rfl _ _
    _ = runPhases (n + 1) _ := runPhases_tib (t := ⟨code, data, .d2, i⟩) rfl _ _
    _ = runPhases n _ := runPhases_tib (t := ⟨code, data, .d3, i⟩) rfl _ _

/-- From D1 of byte `i` on, the phase machine writes the bytes that are left and responds OK (R172). -/
theorem runPhases_data (code : Byte) (data : List Byte) (m : Nat) {i : Nat} (hi : i + (m + 1) = data.length) (n : Nat)
    (s : State) :
    runPhases (n + 1 + 3 * (m + 1)) (s.setSeq (.busy (.testWrite ⟨code, data, .d1, i⟩))) =
      respond .ok [] (writeLines (dataWrites (data.drop i)) s) := by
  induction m generalizing i s with
  | zero =>
    have hlast : tibNext ⟨code, data, .d3, i⟩ = ⟨code, data, .done, i⟩ :=
      if_neg (by show ¬i + 1 < data.length; omega)
    rw [runPhases_byte code data (by omega), hlast, runPhases_done rfl, List.drop_eq_getElem_cons (by omega),
      List.drop_eq_nil_of_le (by omega)]
    rfl
  | succ m ih =>
    have hmore : tibNext ⟨code, data, .d3, i⟩ = ⟨code, data, .d1, i + 1⟩ :=
      if_pos (by show i + 1 < data.length; omega)
    rw [show n + 1 + 3 * (m + 1 + 1) = (n + 1 + 3 * (m + 1)) + 3 by omega, runPhases_byte code data (by omega), hmore,
      ih (by omega), List.drop_eq_getElem_cons (i := i) (by omega), dataWrites_cons, writeLines_append]

/-- The code phases C1 to C5 perform their five line writes (R172). -/
theorem runPhases_code (code : Byte) (data : List Byte) (n : Nat) (s : State) :
    runPhases (n + 5) (s.setSeq (.busy (.testWrite (tibStart code data)))) =
      runPhases n ((writeLines (codeWrites code) s).setSeq (.busy (.testWrite ⟨code, data, .d1, 0⟩))) := by
  calc runPhases (n + 5) (s.setSeq (.busy (.testWrite (tibStart code data))))
    _ = runPhases (n + 4) _ := runPhases_tib (t := ⟨code, data, .c1, 0⟩) rfl _ _
    _ = runPhases (n + 3) _ := runPhases_tib (t := ⟨code, data, .c2, 0⟩) rfl _ _
    _ = runPhases (n + 2) _ := runPhases_tib (t := ⟨code, data, .c3, 0⟩) rfl _ _
    _ = runPhases (n + 1) _ := runPhases_tib (t := ⟨code, data, .c4, 0⟩) rfl _ _
    _ = runPhases n _ := runPhases_tib (t := ⟨code, data, .c5, 0⟩) rfl _ _

/-- The phase machine of a TEST_WRITE is the straight list of line writes, then OK (R170, R172). -/
theorem runCommand_testWrite (code : Byte) {data : List Byte} (h : 1 ≤ data.length) (s : State) :
    runCommand (.testWrite (tibStart code data)) s = respond .ok [] (writeLines (transferWrites code data) s) := by
  obtain ⟨m, hm⟩ : ∃ m, data.length = m + 1 := ⟨data.length - 1, by omega⟩
  change runPhases (9 + 3 * data.length) _ = _
  rw [hm, show 9 + 3 * (m + 1) = (3 + 1 + 3 * (m + 1)) + 5 by omega, runPhases_code,
    runPhases_data code data m (by omega), transferWrites_eq, writeLines_append, List.drop_zero]

/-- The state a TEST_WRITE leaves: its line writes made and OK answered (R170). -/
def testWritten (code : Byte) (data : List Byte) (s : State) : State :=
  (writeLines (transferWrites code data) s).answers [0x00000000]

/-- A TEST_WRITE of 1 to 255 data bytes from a ready state (R170). -/
theorem exec_testWrite_of_ready {s : State} (hs : s.ready) (code : Byte) {data : List Byte} (hpos : 1 ≤ data.length)
    (hmax : data.length ≤ 255) : exec (.testWrite code data) s = .next (testWritten code data s) := by
  have hcount : ¬(data.length = 0 ∨ Const.nMax < data.length) := by
    have : Const.nMax = 255 := rfl
    omega
  have hidle : (writeLines (transferWrites code data) s).isIdle := (writeLines_seq _ s).trans hs.2
  change execTestWrite code data s = _
  rw [execTestWrite, accept_of_ready hs, if_neg hcount, runCommand_testWrite code hpos, respond_ok_of_idle hidle]
  rfl

section
variable (code : Byte) (data : List Byte) (s : State)

@[simp] theorem testWritten_cfg : (testWritten code data s).cfg = s.cfg := by
  rw [testWritten, answers_cfg, writeLines_cfg]

@[simp] theorem testWritten_seq : (testWritten code data s).seq = s.seq := by
  rw [testWritten, answers_seq, writeLines_seq]

@[simp] theorem testWritten_outbox : (testWritten code data s).outbox = s.outbox ++ [[0x00000000]] := by
  rw [testWritten, answers_outbox, writeLines_outbox]

@[simp] theorem testWritten_rs : (testWritten code data s).rs = (writeLines (transferWrites code data) s).rs := by
  rw [testWritten, answers_rs]

@[simp] theorem testWritten_trx : (testWritten code data s).trx = (writeLines (transferWrites code data) s).trx := by
  rw [testWritten, answers_trx]

@[simp] theorem testWritten_trace :
    (testWritten code data s).trace = (writeLines (transferWrites code data) s).trace := by
  rw [testWritten, answers_trace]

/-- After a TEST_WRITE the sequencer is ready for the next command (R32). -/
theorem testWritten_ready {s : State} (hs : s.ready) : (testWritten code data s).ready :=
  ⟨(testWritten_cfg code data s).symm ▸ hs.1, (testWritten_seq code data s).trans hs.2⟩

end

/-- A TEST_WRITE that decodes has the opcode 0x03 (R104). -/
theorem opcodeOf_of_decode_testWrite {header : Word} {body : List Word} {code : Byte} {data : List Byte}
    (h : decode (header :: body) = .ok (.testWrite code data)) : opcodeOf header = 0x03 := by
  obtain ⟨hformat, -, -, -⟩ := decode_ok_iff.1 h
  exact op_of_formatOf hformat

/-- Settles O58: the decode checks are grounds of R111, and what decodes is a count `exec` takes to the line writes. -/
theorem testWriteRequestFollowsPseudocode : Obligations.TestWriteRequestFollowsPseudocode := by
  unfold Obligations.TestWriteRequestFollowsPseudocode
  refine ⟨fun s hs => ⟨?decode, fun ws rest code data h => ?runs⟩, by decide⟩
  case decode =>
    refine rejects_of_isIllegal hs 3 fun header body hbad => ?_
    rw [isIllegal]
    tauto
  case runs =>
    obtain ⟨header, body, rfl⟩ := exists_cons_of_decode h
    obtain ⟨hcount, hpos, -, -, -⟩ := decode_testWrite h
    have hmax : data.length ≤ 255 := hcount ▸ Nat.le_of_lt_succ (header.extractLsb' 16 8).isLt
    have hstep : step { s with inbox := .request (header :: body) :: rest } =
        exec (.testWrite code data) { s with inbox := rest } := by
      change deliver (header :: body) _ = _
      rw [deliver, h]
    refine ⟨opcodeOf_of_decode_testWrite h, hpos, hmax, ?_⟩
    rw [hstep]
    exact exec_testWrite_of_ready (s := { s with inbox := rest }) hs code hpos hmax

end Sys2Proof.Machine

/-! PROOFS. The accesses of a TEST_WRITE, and what its line writes leave of the words they touch (42_test_interface.md
R173 to R175). -/

namespace Sys2Proof.Machine

/-- The RS accesses of a list of line writes: for each the read of the line's word and the write of it (R173). -/
def lineAccesses : List (Line × Word) → State → List Access
  | [], _ => []
  | (l, v) :: ws, s =>
    let a := s.cfg.addr (lineDesc s.cfg l)
    .read a (s.rs.readWord a) :: .write a ((lineDesc s.cfg l).merge (s.rs.readWord a) v) ::
      lineAccesses ws (fieldWrite (lineDesc s.cfg l) v s)

theorem writeLines_trace (ws : List (Line × Word)) (s : State) :
    (writeLines ws s).trace = s.trace ++ lineAccesses ws s := by
  induction ws generalizing s with
  | nil => exact (List.append_nil _).symm
  | cons w ws ih =>
    rw [writeLines_cons, ih, fieldWrite_trace, List.append_assoc]
    rfl

theorem lineAccesses_length (ws : List (Line × Word)) (s : State) : (lineAccesses ws s).length = 2 * ws.length := by
  induction ws generalizing s with
  | nil => rfl
  | cons w ws ih => rw [lineAccesses, List.length_cons, List.length_cons, ih, List.length_cons]; omega

/-- Line write `j` makes the accesses `2j` and `2j + 1`, both to its line's word (R173). -/
theorem lineAccesses_getElem (ws : List (Line × Word)) (s : State) {j : Nat} {l : Line} {v : Word}
    (h : ws[j]? = some (l, v)) :
    ∃ w, (lineAccesses ws s)[2 * j]? = some (.read (s.cfg.addr (lineDesc s.cfg l)) w) ∧
      (lineAccesses ws s)[2 * j + 1]? =
        some (.write (s.cfg.addr (lineDesc s.cfg l)) ((lineDesc s.cfg l).merge w v)) := by
  induction ws generalizing s j with
  | nil => cases h
  | cons w ws ih =>
    cases j with
    | zero =>
      obtain rfl : w = (l, v) := Option.some.inj h
      exact ⟨_, rfl, rfl⟩
    | succ j => exact ih (fieldWrite (lineDesc s.cfg w.1) w.2 s) h

theorem byteWrites_length (b : Byte) : (byteWrites b).length = 3 := rfl

theorem dataWrites_length (data : List Byte) : (dataWrites data).length = 3 * data.length := by
  induction data with
  | nil => rfl
  | cons b bs ih => rw [dataWrites_cons, List.length_append, ih, List.length_cons, byteWrites_length]; omega

theorem transferWrites_length (code : Byte) (data : List Byte) :
    (transferWrites code data).length = 5 + 3 * data.length := by
  rw [transferWrites_eq, List.length_append, dataWrites_length]
  rfl

/-- Settles O20: the trace grows by the accesses of the transfer's line writes. -/
theorem testWriteAccessTrace : Obligations.TestWriteAccessTrace := by
  unfold Obligations.TestWriteAccessTrace
  refine ⟨fun s code data hs hpos hmax => ?_, by decide⟩
  have hlength := transferWrites_length code data
  refine ⟨_, lineAccesses (transferWrites code data) s, exec_testWrite_of_ready hs code hpos hmax, ?trace, ?count,
    hlength, fun j l v h => lineAccesses_getElem _ s h⟩
  case trace => rw [testWritten_trace, writeLines_trace]
  case count => rw [lineAccesses_length, hlength]

section
variable (ls : Lines)

theorem Lines.set_clk_high : ls.set .clk 1 = { ls with clk := 1 } := rfl
theorem Lines.set_clk_low : ls.set .clk 0 = { ls with clk := 0 } := rfl
theorem Lines.set_en_high : ls.set .en 1 = { ls with en := 1 } := rfl
theorem Lines.set_en_low : ls.set .en 0 = { ls with en := 0 } := rfl

/-- A byte survives its way through a value word (R170). -/
@[simp] theorem Lines.set_din_byte (b : Byte) : ls.set .din (b.setWidth 32) = { ls with din := b } := by
  rw [Lines.set, BitVec.setWidth_setWidth_of_le _ (by decide), BitVec.setWidth_eq]

end

theorem levelsAfter_append (ws ws' : List (Line × Word)) (ls : Lines) :
    levelsAfter (ws ++ ws') ls = levelsAfter ws' (levelsAfter ws ls) := List.foldl_append

/-- The levels after the code phases (R175). -/
theorem levelsAfter_codeWrites (code : Byte) (ls : Lines) :
    levelsAfter (codeWrites code) ls = { ls with clk := 0, din := code, en := 0 } := by
  simp only [codeWrites, levelsAfter, List.foldl_cons, List.foldl_nil, Lines.set_clk_high, Lines.set_clk_low,
    Lines.set_en_high, Lines.set_en_low, Lines.set_din_byte]

/-- The levels after the phases of one data byte (R175). -/
theorem levelsAfter_byteWrites (b : Byte) (ls : Lines) :
    levelsAfter (byteWrites b) ls = { ls with clk := 1, din := b } := by
  simp only [byteWrites, levelsAfter, List.foldl_cons, List.foldl_nil, Lines.set_clk_high, Lines.set_clk_low,
    Lines.set_din_byte]

/-- The levels after D2 of one data byte (R175). -/
theorem levelsAfter_take_two_byteWrites (b : Byte) (ls : Lines) :
    levelsAfter ((byteWrites b).take 2) ls = { ls with clk := 0, din := b } := by
  simp only [byteWrites, List.take_succ_cons, List.take_zero, levelsAfter, List.foldl_cons, List.foldl_nil,
    Lines.set_clk_low, Lines.set_din_byte]

/-- The levels within and after the phases of data byte `i`: before D2 the data lines still hold the byte before it, and
before the first data byte what they held on entry (R175). -/
theorem levelsAfter_take_dataWrites (data : List Byte) (ls : Lines) {i : Nat} (h : i < data.length) :
    levelsAfter ((dataWrites data).take (3 * i + 1)) ls =
      { ls with clk := 0, din := (ls.din :: data)[i]'(by rw [List.length_cons]; omega) } ∧
    levelsAfter ((dataWrites data).take (3 * i + 2)) ls = { ls with clk := 0, din := data[i] } ∧
    levelsAfter ((dataWrites data).take (3 * i + 3)) ls = { ls with clk := 1, din := data[i] } := by
  induction data generalizing ls i with
  | nil => cases h
  | cons b bs ih =>
    cases i with
    | zero => exact ⟨rfl, levelsAfter_take_two_byteWrites b ls, levelsAfter_byteWrites b ls⟩
    | succ i =>
      have htake (r : Nat) : levelsAfter ((dataWrites (b :: bs)).take (3 * (i + 1) + r)) ls =
          levelsAfter ((dataWrites bs).take (3 * i + r)) { ls with clk := 1, din := b } := by
        rw [dataWrites_cons, show 3 * (i + 1) + r = (byteWrites b).length + (3 * i + r) by
          rw [byteWrites_length]; omega, List.take_length_add_append,
          levelsAfter_append, levelsAfter_byteWrites]
      rw [htake, htake, htake]
      exact ih { ls with clk := 1, din := b } (Nat.lt_of_succ_lt_succ h)

/-- Past the code phases the levels are those of the data phases, from what the code phases leave (R175). -/
theorem levelsAfter_take_transferWrites (code : Byte) (data : List Byte) (ls : Lines) (n : Nat) :
    levelsAfter ((transferWrites code data).take (5 + n)) ls =
      levelsAfter ((dataWrites data).take n) { ls with clk := 0, din := code, en := 0 } := by
  rw [transferWrites_eq, show 5 + n = (codeWrites code).length + n from rfl, List.take_length_add_append,
    levelsAfter_append, levelsAfter_codeWrites]

/-- Settles O21: the code phases one by one, then the phases of each data byte. -/
theorem levelsDuringTestWrite : Obligations.LevelsDuringTestWrite := by
  unfold Obligations.LevelsDuringTestWrite
  intro s code data hcfg hrs after s0
  have hafter (j : Nat) : after j = levelsAfter ((transferWrites code data).take j) s0 :=
    writeLines_lines _ hcfg hrs
  refine ⟨hafter 0, ?_, ?_, ?_, ?_, ?_, fun i hi => ?_⟩
  case refine_6 =>
    rw [hafter, hafter, hafter]
    simp only [Nat.add_assoc, levelsAfter_take_transferWrites]
    exact levelsAfter_take_dataWrites data { s0 with clk := 0, din := code, en := 0 } hi
  all_goals
    rw [hafter]
    simp only [transferWrites, List.cons_append, List.nil_append, List.take_succ_cons, List.take_zero, levelsAfter,
      List.foldl_cons, List.foldl_nil, Lines.set_clk_high, Lines.set_clk_low, Lines.set_en_high, Lines.set_en_low,
      Lines.set_din_byte]

/-- The levels after a whole transfer (R174). -/
theorem levelsAfter_transferWrites (code : Byte) {data : List Byte} {last : Byte} (h : data.getLast? = some last)
    (ls : Lines) : levelsAfter (transferWrites code data) ls = { ls with clk := 1, din := last, en := 0 } := by
  obtain ⟨init, rfl⟩ := List.getLast?_eq_some_iff.1 h
  have hlast := levelsAfter_take_transferWrites code (init ++ [last]) ls (3 * init.length + 3)
  rw [List.take_of_length_le (by rw [transferWrites_length, List.length_append, List.length_singleton]; omega),
    (levelsAfter_take_dataWrites _ _ (by simp)).2.2] at hlast
  simpa using hlast

/-- The levels after a TEST_WRITE (R174). -/
theorem testWritten_lines {s : State} (hcfg : s.cfg.wf) (hrs : s.rs.wf) (code : Byte) {data : List Byte} {last : Byte}
    (h : data.getLast? = some last) :
    (testWritten code data s).lines = { s.lines with clk := 1, din := last, en := 0 } := by
  rw [testWritten, answers_lines, writeLines_lines _ hcfg hrs, levelsAfter_transferWrites code h]

/-- A bit of a word that a field write's field does not hold keeps its value (R145). -/
theorem getLsbD_readWord_fieldWrite {s : State} (hrs : s.rs.wf) (d : Desc) (v : Word) {a i : Nat}
    (hd : s.cfg.addr d % 4 = 0) (ha : a % 4 = 0)
    (hout : a = s.cfg.addr d → i < d.boff.toNat ∨ d.boff.toNat + d.width ≤ i) :
    ((fieldWrite d v s).rs.readWord a).getLsbD i = (s.rs.readWord a).getLsbD i := by
  by_cases heq : a = s.cfg.addr d
  · have hfield := hout heq
    rw [heq, readWord_fieldWrite_same hrs, Desc.getLsbD_merge, if_neg (by omega)]
  · rw [readWord_fieldWrite_ne d v hd ha heq]

/-- A bit that no written line's field holds keeps its value over a list of line writes (R174). -/
theorem getLsbD_readWord_writeLines (ws : List (Line × Word)) {s : State} (hcfg : s.cfg.wf) (hrs : s.rs.wf) {a i : Nat}
    (ha : a % 4 = 0)
    (hout : ∀ w ∈ ws, a = s.cfg.addr (lineDesc s.cfg w.1) →
      i < (lineDesc s.cfg w.1).boff.toNat ∨ (lineDesc s.cfg w.1).boff.toNat + (lineDesc s.cfg w.1).width ≤ i) :
    ((writeLines ws s).rs.readWord a).getLsbD i = (s.rs.readWord a).getLsbD i := by
  induction ws generalizing s with
  | nil => rfl
  | cons w ws ih =>
    obtain ⟨-, -, -, halign⟩ := Config_wf_line hcfg w.1
    rw [writeLines_cons, ih (s := fieldWrite (lineDesc s.cfg w.1) w.2 s) hcfg (fieldWrite_rs_wf hrs _ _)
      fun x hx => hout x (List.mem_cons_of_mem _ hx)]
    exact getLsbD_readWord_fieldWrite hrs _ _ halign ha (hout w List.mem_cons_self)

/-- A TEST_WRITE never drives `test_clear` (R174). -/
theorem line_ne_clr_of_mem_transferWrites {code : Byte} {data : List Byte} {w : Line × Word}
    (h : w ∈ transferWrites code data) : w.1 ≠ .clr := by
  rcases List.mem_append.1 h with hcode | hdata
  · simp only [List.mem_cons, List.not_mem_nil, or_false] at hcode
    rcases hcode with rfl | rfl | rfl | rfl | rfl <;> exact nofun
  · obtain ⟨b, -, hbyte⟩ := List.mem_flatMap.1 hdata
    simp only [byteWrites, List.mem_cons, List.not_mem_nil, or_false] at hbyte
    rcases hbyte with rfl | rfl | rfl <;> exact nofun

theorem length_pos_of_getLast? {α : Type} {l : List α} {x : α} (h : l.getLast? = some x) : 1 ≤ l.length :=
  List.length_pos_of_mem (List.mem_of_getLast? h)

/-- Settles O22: the levels of the whole transfer, and the bits that none of its line writes holds. -/
theorem levelsAfterTestWrite : Obligations.LevelsAfterTestWrite := by
  unfold Obligations.LevelsAfterTestWrite
  intro s code data last hs hrs hmax hlast
  refine ⟨_, exec_testWrite_of_ready hs code (length_pos_of_getLast? hlast) hmax,
    testWritten_lines hs.1 hrs code hlast, fun a i ha _ hout => ?_⟩
  rw [testWritten_rs]
  exact getLsbD_readWord_writeLines _ hs.1 hrs ha fun w hw => hout w.1 (line_ne_clr_of_mem_transferWrites hw)

end Sys2Proof.Machine

/-! PROOFS. The receiver over a TEST_WRITE from a clean start, and over TEST_WRITEs in a row (42_test_interface.md R186,
R187). -/

namespace Sys2Proof.Machine

theorem receiverAfter_append (cfg : Config) (ws ws' : List (Line × Word)) (ls : Lines) (r : Receiver) :
    receiverAfter cfg (ws ++ ws') ls r = receiverAfter cfg ws' (levelsAfter ws ls) (receiverAfter cfg ws ls r) := by
  induction ws generalizing ls r with
  | nil => rfl
  | cons w ws ih => exact ih (ls.set w.1 w.2) _

section
variable {cfg : Config} {ls : Lines} {r : Receiver}

/-- With the clear low, C1 from a clean start is no event: no edge where `clk = 1`, no capture where `en = 1` (R186). -/
theorem observe_raise_of_clean (hclr : ls.clr = 0) (hclean : ls.clk = 1 ∨ ls.en = 1) :
    observe cfg ls { ls with clk := 1 } r = r := by
  rcases hclean with hclk | hen
  · exact observe_same_clk hclk (by simp [hclr])
  · exact observe_rise_enabled hclr hen

/-- With the clear low, `test_clk` falling alone under `test_enable = 1` latches the data lines (R181). -/
theorem observe_fall_enabled (hclr : ls.clr = 0) (hclk : ls.clk = 1) (hen : ls.en = 1) :
    observe cfg ls { ls with clk := 0 } r = r.latch ls.din :=
  observe_of_latchEdge (not_clkWithOther_of_clk_alone ls 0) (by simp [hclr]) ⟨hclk, rfl, hen⟩

/-- With the clear low, `test_clk` rising alone under `test_enable = 0` captures the data lines (R182). -/
theorem observe_rise_disabled (hclr : ls.clr = 0) (hclk : ls.clk = 0) (hen : ls.en = 0) :
    observe cfg ls { ls with clk := 1 } r = r.capture cfg ls.din :=
  observe_of_captureEdge (not_clkWithOther_of_clk_alone ls 1) (by simp [hclr]) ⟨hclk, rfl, hen⟩

/-- With the clear low, a change of `test_data_in` alone is no event (R183). -/
theorem observe_din_alone (hclr : ls.clr = 0) (d : Byte) : observe cfg ls { ls with din := d } r = r :=
  observe_same_clk rfl (by simp [hclr])

/-- With the clear low, a change of `test_enable` alone is no event (R183). -/
theorem observe_en_alone (hclr : ls.clr = 0) (e : BitVec 1) : observe cfg ls { ls with en := e } r = r :=
  observe_same_clk rfl (by simp [hclr])

/-- The code phases from a clean start latch the code and do nothing else (R186). -/
theorem receiverAfter_codeWrites (code : Byte) (hclr : ls.clr = 0) (hclean : ls.clk = 1 ∨ ls.en = 1) :
    receiverAfter cfg (codeWrites code) ls r = r.latch code := by
  simp only [codeWrites, receiverAfter, Lines.set_clk_high, Lines.set_din_byte, Lines.set_en_high, Lines.set_clk_low,
    Lines.set_en_low]
  rw [observe_raise_of_clean hclr hclean,
    observe_din_alone (ls := ⟨1, ls.din, ls.en, ls.clr⟩) hclr code,
    observe_en_alone (ls := ⟨1, code, ls.en, ls.clr⟩) hclr 1,
    observe_fall_enabled (ls := ⟨1, code, 1, ls.clr⟩) hclr rfl rfl,
    observe_en_alone (ls := ⟨0, code, 1, ls.clr⟩) hclr 0]

/-- The phases of one data byte, with `test_enable` low, capture the byte and do nothing else (R182). -/
theorem receiverAfter_byteWrites (b : Byte) (hclr : ls.clr = 0) (hen : ls.en = 0) :
    receiverAfter cfg (byteWrites b) ls r = r.capture cfg b := by
  simp only [byteWrites, receiverAfter, Lines.set_clk_low, Lines.set_din_byte, Lines.set_clk_high]
  rw [observe_fall_disabled hclr hen, observe_din_alone (ls := ⟨0, ls.din, ls.en, ls.clr⟩) hclr b,
    observe_rise_disabled (ls := ⟨0, b, ls.en, ls.clr⟩) hclr rfl hen]

/-- The data phases under a latched code capture the bytes in order (R182, R186). -/
theorem receiverAfter_dataWrites (data : List Byte) {code : Byte} (hclr : ls.clr = 0) (hen : ls.en = 0)
    (hcode : r.codeLatch = some code) :
    receiverAfter cfg (dataWrites data) ls r =
      { r with treg := captureAll cfg.multiByte code r.k data r.treg, k := r.k + BitVec.ofNat 8 data.length } := by
  induction data generalizing ls r with
  | nil => simp [receiverAfter, captureAll]
  | cons b bs ih =>
    rw [dataWrites_cons, receiverAfter_append, receiverAfter_byteWrites b hclr hen, levelsAfter_byteWrites,
      capture_of_code hcode, ih (ls := { ls with clk := 1, din := b }) hclr hen (by exact hcode)]
    have hcount : r.k + 1 + BitVec.ofNat 8 bs.length = r.k + BitVec.ofNat 8 (b :: bs).length := by
      rw [List.length_cons, BitVec.ofNat_add, BitVec.add_assoc, BitVec.add_comm (BitVec.ofNat 8 bs.length)]
      rfl
    rw [hcount, captureAll]

/-- A transfer from a clean start: the code latched, the bytes captured from count 0 on (R186). -/
theorem receiverAfter_transferWrites (code : Byte) (data : List Byte) (hclr : ls.clr = 0)
    (hclean : ls.clk = 1 ∨ ls.en = 1) :
    receiverAfter cfg (transferWrites code data) ls r =
      { r with
        treg := captureAll cfg.multiByte code 0 data r.treg
        codeLatch := some code
        k := BitVec.ofNat 8 data.length } := by
  rw [transferWrites_eq, receiverAfter_append, receiverAfter_codeWrites code hclr hclean, levelsAfter_codeWrites,
    receiverAfter_dataWrites (ls := ⟨0, code, 0, ls.clr⟩) data hclr rfl rfl, latch_k,
    show (0 : Byte) + BitVec.ofNat 8 data.length = _ from BitVec.zero_add _]
  rfl

end

/-- Under SAME every byte goes to the latched code's register, and the last one stays (R182). -/
theorem captureAll_same (code k : Byte) {data : List Byte} {last : Byte} (h : data.getLast? = some last)
    (treg : Vector (Option Byte) 256) {a : Nat} (ha : a < 256) :
    (captureAll .same code k data treg)[a] = if a = code.toNat then some last else treg[a] := by
  induction data generalizing k treg with
  | nil => cases h
  | cons b bs ih =>
    have hset : (treg.set (captureAddr .same code k).toNat (some b) (captureAddr .same code k).isLt)[a] =
        if a = code.toNat then some b else treg[a] := by
      rw [Vector.getElem_set]
      simp only [captureAddr, eq_comm]
    cases bs with
    | nil =>
      obtain rfl : b = last := Option.some.inj h
      exact hset
    | cons c cs =>
      rw [captureAll, ih (k + 1) (List.getLast?_cons_cons ▸ h), hset]
      split <;> rfl

/-- Under INCR a register that none of the transfer's counts reaches keeps its value (R186). -/
theorem captureAll_incr_other (code k : Byte) (data : List Byte) (treg : Vector (Option Byte) 256) {a : Nat}
    (ha : a < 256) (h : ∀ i, i < data.length → a ≠ (code.toNat + (k.toNat + i)) % 256) :
    (captureAll .incr code k data treg)[a] = treg[a] := by
  induction data generalizing k treg with
  | nil => rfl
  | cons b bs ih =>
    have hnext (i : Nat) (hi : i < bs.length) : a ≠ (code.toNat + ((k + 1).toNat + i)) % 256 := by
      have := h (i + 1) (Nat.succ_lt_succ hi)
      rw [BitVec.toNat_add]
      change a ≠ (code.toNat + ((k.toNat + 1) % 256 + i)) % 256
      omega
    have hfirst : (captureAddr .incr code k).toNat ≠ a := by
      rw [captureAddr_incr_toNat]
      exact (h 0 (Nat.succ_pos _)).symm
    rw [captureAll, ih (k + 1) _ hnext, Vector.getElem_set_ne _ _ hfirst]

/-- Under INCR byte `i` of a transfer of at most 256 bytes stands at its own register, which no later byte reaches
(R186). -/
theorem captureAll_incr_data (code k : Byte) {data : List Byte} (hmax : data.length ≤ 256)
    (treg : Vector (Option Byte) 256) {i a : Nat} (hi : i < data.length) (ha : a < 256)
    (haddr : a = (code.toNat + (k.toNat + i)) % 256) :
    (captureAll .incr code k data treg)[a] = some data[i] := by
  induction data generalizing k treg i with
  | nil => cases hi
  | cons b bs ih =>
    have hcount : (k + 1).toNat = (k.toNat + 1) % 256 := BitVec.toNat_add k 1
    rw [List.length_cons] at hmax hi
    cases i with
    | zero =>
      rw [captureAll, captureAll_incr_other _ _ _ _ ha fun j hj => by rw [hcount]; omega]
      have hfirst : (captureAddr .incr code k).toNat = a := by rw [captureAddr_incr_toNat, haddr]; rfl
      simp only [hfirst, Vector.getElem_set_self, List.getElem_cons_zero]
    | succ i =>
      rw [captureAll, ih (k + 1) (by omega) _ (i := i) (by omega) (by rw [hcount]; omega), List.getElem_cons_succ]

/-- A state from which a TEST_WRITE is a clean transfer (R186, R324): ready, RS in canonical form, a clean start, and no
fault marked. -/
structure State.CanTransfer (s : State) : Prop where
  ready : s.ready
  rsWf : s.rs.wf
  clean : s.cleanStart
  unfaulted : s.trx.trxFault = false

section
variable {s : State} (hs : s.CanTransfer) (code : Byte)
include hs

/-- The receiver after a TEST_WRITE from a clean start (R186). -/
theorem State.CanTransfer.testWritten_trx (data : List Byte) :
    (testWritten code data s).trx = { s.trx with
      treg := captureAll s.cfg.multiByte code 0 data s.trx.treg
      codeLatch := some code
      k := BitVec.ofNat 8 data.length } := by
  obtain ⟨hclr, hclean⟩ := hs.clean
  rw [Machine.testWritten_trx, writeLines_trx _ hs.ready.1 hs.rsWf, receiverAfter_transferWrites code data hclr hclean]

/-- A TEST_WRITE leaves `clk = 1`, `en = 0` and the clear as it was (R174). -/
theorem State.CanTransfer.testWritten_clk {data : List Byte} (hdata : 1 ≤ data.length) :
    (testWritten code data s).lines.clk = 1 ∧ (testWritten code data s).lines.clr = s.lines.clr := by
  have hlast := List.getLast?_eq_some_getLast (List.ne_nil_of_length_pos hdata)
  rw [testWritten_lines hs.ready.1 hs.rsWf code hlast]
  exact ⟨rfl, rfl⟩

/-- After a TEST_WRITE the next one starts clean again (R187). -/
theorem State.CanTransfer.testWritten {data : List Byte} (hdata : 1 ≤ data.length) :
    (testWritten code data s).CanTransfer where
  ready := testWritten_ready code data hs.ready
  rsWf := by rw [testWritten_rs]; exact writeLines_rs_wf _ hs.rsWf
  clean := by
    obtain ⟨hclk, hclr⟩ := hs.testWritten_clk code hdata
    exact ⟨hclr.trans hs.clean.1, .inl hclk⟩
  unfaulted := by rw [hs.testWritten_trx]; exact hs.unfaulted

end

/-- Settles O24: the receiver after the transfer, register by register under each policy. -/
theorem testWriteOutcome : Obligations.TestWriteOutcome := by
  unfold Obligations.TestWriteOutcome
  intro s code data last hs hrs hmax hlast hclean hfault
  have htrx := State.CanTransfer.testWritten_trx ⟨hs, hrs, hclean, hfault⟩ code data
  refine ⟨_, exec_testWrite_of_ready hs code (length_pos_of_getLast? hlast) hmax,
    testWritten_outbox code data s, ?_⟩
  rw [htrx]
  refine ⟨rfl, BitVec.toNat_ofNat .., hfault, fun hsame a => ?same,
    fun hincr => ⟨fun i hi => ?data, fun a ha => ?other⟩⟩
  case same =>
    simp only [hsame, captureAll_same code 0 hlast, BitVec.toNat_inj]
  case data =>
    simp only [hincr]
    exact captureAll_incr_data code 0 (by omega) _ hi _ (by simp)
  case other =>
    simp only [hincr]
    exact captureAll_incr_other code 0 data _ a.isLt fun i hi => by simpa using ha i hi

/-- Where `clk = 1` already, C1's write moves no line (R187). -/
theorem lines_raise_of_clk {s : State} (hcfg : s.cfg.wf) (hrs : s.rs.wf) (hclk : s.lines.clk = 1) :
    (fieldWrite (lineDesc s.cfg .clk) 1 s).lines = s.lines := by
  rw [lines_fieldWrite hcfg hrs, Lines.set_clk_high, ← hclk]

/-- The test registers after transfers in a row, each from count 0 (R187). -/
def captureTransfers (policy : MultiByte) (transfers : List (Byte × List Byte)) (treg : Vector (Option Byte) 256) :
    Vector (Option Byte) 256 :=
  transfers.foldl (fun treg p => captureAll policy p.1 0 p.2 treg) treg

/-- TEST_WRITEs in a row from a clean start: each runs from the clean start the one before left (R187). -/
theorem execSeq_testWrites (transfers : List (Byte × List Byte)) {s : State} (hs : s.CanTransfer)
    (hdata : ∀ p ∈ transfers, 1 ≤ p.2.length ∧ p.2.length ≤ 255) :
    ∃ t, execSeq (transfers.map fun p => .testWrite p.1 p.2) s = .next t ∧ t.CanTransfer ∧
      (s.lines.clk = 1 ∨ transfers ≠ [] → t.lines.clk = 1) ∧
      t.trx.treg = captureTransfers s.cfg.multiByte transfers s.trx.treg := by
  induction transfers generalizing s with
  | nil => exact ⟨s, rfl, hs, fun h => h.resolve_right fun hne => hne rfl, rfl⟩
  | cons p transfers ih =>
    obtain ⟨hpos, hmax⟩ := hdata p List.mem_cons_self
    obtain ⟨t, hrun, ht, hclk, htreg⟩ := ih (hs.testWritten p.1 hpos) fun q hq =>
      hdata q (List.mem_cons_of_mem _ hq)
    refine ⟨t, ?_, ht, fun _ => hclk (.inl (hs.testWritten_clk p.1 hpos).1), ?_⟩
    · rw [List.map_cons, execSeq, exec_testWrite_of_ready hs.ready p.1 hpos hmax]
      exact hrun
    · rw [htreg, testWritten_cfg, hs.testWritten_trx]
      rfl

/-- Settles O25: by induction over the transfers, and because `clk = 1` makes C1's write move nothing. -/
theorem backToBackTransfers : Obligations.BackToBackTransfers := by
  unfold Obligations.BackToBackTransfers
  intro s transfers hready hrs hclean hfault hdata
  obtain ⟨t, hrun, ht, hclk, htreg⟩ := execSeq_testWrites transfers ⟨hready, hrs, hclean, hfault⟩ hdata
  refine ⟨t, hrun, ht.ready, ht.clean, ht.unfaulted, fun hne => ?_, htreg⟩
  have hhigh : t.lines.clk = 1 := hclk (.inr hne)
  exact ⟨hhigh, lines_raise_of_clk ht.ready.1 ht.rsWf hhigh⟩

end Sys2Proof.Machine

/-! PROOFS. The pre-divider range and the feedback dividers within it, as inequalities (43_divider_solver.md R211,
R214). -/

namespace Sys2Proof.Machine

theorem one_le_minPreDiv (ref : Nat) : 1 ≤ minPreDiv ref := Nat.le_max_left ..

/-- From `min_p` on, and nowhere below, a pre-divider brings the reference clock to at most 40 MHz (R211). -/
theorem minPreDiv_le_iff {ref p : Nat} (hp : 1 ≤ p) : minPreDiv ref ≤ p ↔ ref ≤ 40000000 * p := by
  have hceil : ceilDiv ref 40000000 ≤ p ↔ ref ≤ 40000000 * p := by
    unfold ceilDiv
    omega
  exact max_le_iff.trans ((and_iff_right hp).trans hceil)

/-- Up to `max_p`, and nowhere above, a pre-divider leaves the reference clock at 5 MHz or more (R211). -/
theorem le_maxPreDiv_iff {ref p : Nat} : p ≤ maxPreDiv ref ↔ 5000000 * p ≤ ref := by
  rw [Nat.mul_comm]
  exact Nat.le_div_iff_mul_le (by decide)

/-- A reference clock with a pre-divider range is not 0 (R211). -/
theorem ref_pos_of_range {ref : Nat} (h : minPreDiv ref ≤ maxPreDiv ref) : 0 < ref := by
  have := le_maxPreDiv_iff.1 ((one_le_minPreDiv ref).trans h)
  omega

/-- Where the range has a candidate, the first one divides the reference clock to 10 MHz at the least. -/
theorem mul_minPreDiv_le {ref : Nat} (h : minPreDiv ref < maxPreDiv ref) : 10000000 * minPreDiv ref ≤ ref := by
  have hpos := one_le_minPreDiv ref
  have hmax : 5000000 * (minPreDiv ref + 1) ≤ ref := le_maxPreDiv_iff.1 h
  by_cases hone : minPreDiv ref = 1
  · omega
  · have hmin := mt (minPreDiv_le_iff (ref := ref) (p := minPreDiv ref - 1) (by omega)).2 (by omega)
    omega

/-- The upper bound of R213 never rejects the first candidate of u32 operands (R214). -/
theorem feedbackDiv_minPreDiv_le {ref target : Nat} (h : minPreDiv ref < maxPreDiv ref) (htarget : target < 2 ^ 32) :
    feedbackDiv ref target (minPreDiv ref) ≤ 429 := by
  have hlt : target * minPreDiv ref < 430 * ref := calc
    target * minPreDiv ref < 430 * 10000000 * minPreDiv ref :=
      Nat.mul_lt_mul_of_pos_right (by omega) (one_le_minPreDiv ref)
    _ = 430 * (10000000 * minPreDiv ref) := Nat.mul_assoc ..
    _ ≤ 430 * ref := Nat.mul_le_mul_left 430 (mul_minPreDiv_le h)
  exact Nat.le_of_lt_succ (Nat.div_lt_of_lt_mul (by rwa [Nat.mul_comm ref]))

theorem feedbackDiv_eq_zero_iff {ref : Nat} (href : 0 < ref) (target p : Nat) :
    feedbackDiv ref target p = 0 ↔ target * p < ref :=
  Nat.div_eq_zero_iff_lt href

/-- After a feedback divider of 0 comes 0 or 1: from one candidate to the next the product grows by less than `ref`. -/
theorem feedbackDiv_succ_le_one {ref target p : Nat} (hp : 1 ≤ p) (h : target * p < ref) :
    feedbackDiv ref target (p + 1) ≤ 1 := by
  have htarget : target ≤ target * p := Nat.le_mul_of_pos_right target hp
  have hlt : target * (p + 1) < ref * 2 := by
    rw [Nat.mul_succ]
    omega
  exact Nat.le_of_lt_succ (Nat.div_lt_of_lt_mul hlt)

/-- A scan of u32 operands that accepts nothing meets no feedback divider but 0: the first is below 512, and those
after it cannot pass over 1 (R214). -/
theorem feedbackDiv_eq_zero_of_none_acceptable {ref target : Nat} (htarget : target < 2 ^ 32)
    (hnone : ∀ p, candidateRange ref p → ¬acceptable ref target p) {p : Nat} (hp : candidateRange ref p) :
    feedbackDiv ref target p = 0 := by
  obtain ⟨hmin, hmax⟩ := hp
  have href : 0 < ref := ref_pos_of_range (hmin.trans hmax.le)
  have hzero {q : Nat} (hq : candidateRange ref q) (hsmall : feedbackDiv ref target q < 512) :
      feedbackDiv ref target q = 0 :=
    Nat.eq_zero_of_not_pos fun hpos => hnone q hq ⟨hpos, hsmall⟩
  induction p, hmin using Nat.le_induction with
  | base => exact hzero ⟨le_rfl, hmax⟩ ((feedbackDiv_minPreDiv_le hmax htarget).trans_lt (by decide))
  | succ p hmin ih =>
    have hprev := (feedbackDiv_eq_zero_iff href target p).1 (ih (Nat.lt_of_succ_lt hmax))
    have hone := feedbackDiv_succ_le_one ((one_le_minPreDiv ref).trans hmin) hprev
    exact hzero ⟨hmin.trans p.le_succ, hmax⟩ (hone.trans_lt (by decide))

end Sys2Proof.Machine

/-! PROOFS. The scan of SOLVE: what its state says of the candidates examined so far, and the response of SOLVE in each
case (43_divider_solver.md R210 to R215). -/

namespace Sys2Proof.Machine

/-- A scan that goes from one state of its command to the next for `n` phases ends with the phase after them. -/
theorem runPhases_scan (s : State) (cmd : Nat → Activity) (n : Nat)
    (h : ∀ i < n, advance (s.setSeq (.busy (cmd i))) = s.setSeq (.busy (cmd (i + 1)))) :
    runPhases (n + 1) (s.setSeq (.busy (cmd 0))) = advance (s.setSeq (.busy (cmd n))) := by
  induction n generalizing cmd with
  | zero => exact runPhases_busy 0 rfl
  | succ n ih =>
    rw [runPhases_busy (n + 1) rfl, h 0 n.succ_pos]
    exact ih (fun i => cmd (i + 1)) fun i hi => h (i + 1) (Nat.succ_lt_succ hi)

/-- The candidate `q` is one of those below `n`, and the scan may accept it (R212, R213). -/
def acceptableBelow (ref target n q : Nat) : Prop := (minPreDiv ref ≤ q ∧ q < n) ∧ acceptable ref target q

/-- `p` is the scan's result among the candidates below `n` (R212); with `n = max_p` this is `isBestPreDiv`. -/
def isBestBelow (ref target n p : Nat) : Prop :=
  acceptableBelow ref target n p ∧
  ∀ q, acceptableBelow ref target n q →
    remainder ref target p ≤ remainder ref target q ∧ (q < p → remainder ref target p < remainder ref target q)

theorem isBestBelow_maxPreDiv_iff {ref target p : Nat} :
    isBestBelow ref target (maxPreDiv ref) p ↔ isBestPreDiv ref target p :=
  and_congr_right fun _ => forall_congr' fun _ => and_imp

/-- One more candidate is the new one or one of those before it. -/
theorem acceptableBelow_succ {ref target n q : Nat} (h : acceptableBelow ref target (n + 1) q) :
    q = n ∨ acceptableBelow ref target n q := by
  obtain ⟨⟨hmin, hq⟩, hacc⟩ := h
  obtain hlt | heq := Nat.lt_succ_iff_lt_or_eq.1 hq
  · exact .inr ⟨⟨hmin, hlt⟩, hacc⟩
  · exact .inl heq

theorem acceptableBelow.mono {ref target n m q : Nat} (h : acceptableBelow ref target n q) (hnm : n ≤ m) :
    acceptableBelow ref target m q := by
  obtain ⟨⟨hmin, hq⟩, hacc⟩ := h
  exact ⟨⟨hmin, hq.trans_le hnm⟩, hacc⟩

/-- The scan has one result: the smallest remainder, the earliest of equal ones (R212). -/
theorem isBestPreDiv_unique {ref target p q : Nat} (hp : isBestPreDiv ref target p) (hq : isBestPreDiv ref target q) :
    p = q := by
  obtain ⟨⟨hpr, hpa⟩, hpbest⟩ := hp
  obtain ⟨⟨hqr, hqa⟩, hqbest⟩ := hq
  obtain ⟨hpq, hpq'⟩ := hpbest q hqr hqa
  obtain ⟨hqp, hqp'⟩ := hqbest p hpr hpa
  omega

/-- The candidate `c.p` replaces the best one so far (R210). -/
abbrev SolveState.improves (c : SolveState) : Prop :=
  acceptable c.ref c.target c.p ∧ remainder c.ref c.target c.p < c.bestRem

theorem solveCandidate_of_improves {c : SolveState} (h : c.improves) :
    solveCandidate c = { c with
      p := c.p + 1, bestP := c.p, bestFb := feedbackDiv c.ref c.target c.p
      bestRem := remainder c.ref c.target c.p, found := true } :=
  if_pos (and_assoc.1 h)

theorem solveCandidate_of_not_improves {c : SolveState} (h : ¬c.improves) :
    solveCandidate c = { c with p := c.p + 1 } :=
  if_neg (mt and_assoc.2 h)

@[simp] theorem solveCandidate_ref (c : SolveState) : (solveCandidate c).ref = c.ref := by
  unfold solveCandidate; dsimp only; split <;> rfl

@[simp] theorem solveCandidate_target (c : SolveState) : (solveCandidate c).target = c.target := by
  unfold solveCandidate; dsimp only; split <;> rfl

@[simp] theorem solveCandidate_p (c : SolveState) : (solveCandidate c).p = c.p + 1 := by
  unfold solveCandidate; dsimp only; split <;> rfl

/-- What the DIV state says of the candidates below `c.p` (R210): none is acceptable and `best_rem` is still the
sentinel, or the best of them stands in it. -/
inductive SolveState.Scanned (c : SolveState) : Prop where
  | unfound (hfound : c.found = false) (hrem : c.bestRem = c.ref)
      (hnone : ∀ q, ¬acceptableBelow c.ref c.target c.p q)
  | found (hfound : c.found = true) (hrem : c.bestRem = remainder c.ref c.target c.bestP)
      (hfb : c.bestFb = feedbackDiv c.ref c.target c.bestP) (hbest : isBestBelow c.ref c.target c.p c.bestP)

theorem solveStart_scanned (ref target : Nat) : (solveStart ref target).Scanned :=
  .unfound rfl rfl fun _ ⟨⟨hmin, hlt⟩, _⟩ => Nat.not_lt.2 hmin hlt

theorem SolveState.Scanned.bestRem_le {c : SolveState} (h : c.Scanned) {q : Nat}
    (hq : acceptableBelow c.ref c.target c.p q) : c.bestRem ≤ remainder c.ref c.target q := by
  cases h with
  | unfound _ _ hnone => exact absurd hq (hnone q)
  | found _ hrem _ hbest => exact hrem ▸ (hbest.2 q hq).1

/-- Every candidate keeps what the DIV state says: a better one is below all before it, and one that is not better is
either not acceptable or at least the best so far (R210, R212). -/
theorem SolveState.Scanned.solveCandidate {c : SolveState} (h : c.Scanned) (href : 0 < c.ref)
    (hp : minPreDiv c.ref ≤ c.p) : (solveCandidate c).Scanned := by
  by_cases himp : c.improves
  · rw [solveCandidate_of_improves himp]
    obtain ⟨hacc, hlt⟩ := himp
    refine .found rfl rfl rfl ⟨⟨⟨hp, c.p.lt_succ_self⟩, hacc⟩, fun q hq => ?_⟩
    obtain rfl | hq := acceptableBelow_succ hq
    · exact ⟨le_rfl, fun hself => absurd hself (lt_irrefl _)⟩
    · have hless := hlt.trans_le (h.bestRem_le hq)
      exact ⟨hless.le, fun _ => hless⟩
  · rw [solveCandidate_of_not_improves himp]
    cases h with
    | unfound hfound hrem hnone =>
      refine .unfound hfound hrem fun q hq => ?_
      obtain rfl | hq := acceptableBelow_succ hq
      · exact himp ⟨hq.2, hrem.symm ▸ Nat.mod_lt _ href⟩
      · exact hnone q hq
    | found hfound hrem hfb hbest =>
      refine .found hfound hrem hfb ⟨hbest.1.mono c.p.le_succ, fun q hq => ?_⟩
      obtain rfl | hq' := acceptableBelow_succ hq
      · have hle := Nat.not_lt.1 fun hlt => himp ⟨hq.2, hlt⟩
        exact ⟨hrem ▸ hle, fun hlt => absurd hbest.1.1.2 hlt.not_gt⟩
      · exact hbest.2 q hq'

/-- The DIV state after the first `n` candidates (R210). -/
def solveScan (ref target n : Nat) : SolveState := solveCandidate^[n] (solveStart ref target)

theorem solveScan_succ (ref target n : Nat) :
    solveScan ref target (n + 1) = solveCandidate (solveScan ref target n) :=
  Function.iterate_succ_apply' ..

@[simp] theorem solveScan_ref (ref target n : Nat) : (solveScan ref target n).ref = ref := by
  induction n with
  | zero => rfl
  | succ n ih => rw [solveScan_succ, solveCandidate_ref, ih]

@[simp] theorem solveScan_target (ref target n : Nat) : (solveScan ref target n).target = target := by
  induction n with
  | zero => rfl
  | succ n ih => rw [solveScan_succ, solveCandidate_target, ih]

@[simp] theorem solveScan_p (ref target n : Nat) : (solveScan ref target n).p = minPreDiv ref + n := by
  induction n with
  | zero => exact (Nat.add_zero _).symm
  | succ n ih => rw [solveScan_succ, solveCandidate_p, ih, Nat.add_assoc]

theorem solveScan_scanned {ref : Nat} (href : 0 < ref) (target n : Nat) : (solveScan ref target n).Scanned := by
  induction n with
  | zero => exact solveStart_scanned ref target
  | succ n ih =>
    rw [solveScan_succ]
    exact ih.solveCandidate (by simpa using href) (by simp)

/-- The DIV state after the whole scan (R210). -/
def solveResult (ref target : Nat) : SolveState := solveScan ref target (maxPreDiv ref - minPreDiv ref)

/-- One candidate takes the scan's state to the next (R210). -/
theorem advanceSolve_solveScan {ref i : Nat} (target : Nat) (hi : i < maxPreDiv ref - minPreDiv ref) (s : State) :
    advanceSolve (solveScan ref target i) s = s.setSeq (.busy (.solve (solveScan ref target (i + 1)))) := by
  rw [solveScan_succ]
  exact if_pos (by rw [solveScan_p, solveScan_ref]; omega)

/-- At `max_p` the scan ends (R210). -/
theorem advanceSolve_solveResult {ref : Nat} (hrange : minPreDiv ref ≤ maxPreDiv ref) (target : Nat) (s : State) :
    advanceSolve (solveResult ref target) s = solveEnd (solveResult ref target) s :=
  if_neg (by rw [solveResult, solveScan_p, solveScan_ref]; omega)

/-- A SOLVE's end sees nothing of the sequencer, which its response leaves IDLE (R112). -/
theorem solveEnd_setSeq (c : SolveState) (q : Seq) (s : State) : solveEnd c (s.setSeq q) = solveEnd c s := by
  unfold solveEnd raiseStatus
  split <;> exact respond_setSeq ..

/-- A SOLVE's phases are its scan, candidate by candidate, and then its end (R210, R32). -/
theorem runCommand_solve {ref : Nat} (hrange : minPreDiv ref ≤ maxPreDiv ref) (target : Nat) (s : State) :
    runCommand (.solve (solveStart ref target)) s = solveEnd (solveResult ref target) s := by
  refine (runPhases_scan s (fun i => .solve (solveScan ref target i)) (maxPreDiv ref - minPreDiv ref)
    fun i hi => ?step).trans ?last
  case step => exact advanceSolve_solveScan target hi (s.setSeq _)
  case last => exact (advanceSolve_solveResult hrange target (s.setSeq _)).trans (solveEnd_setSeq ..)

/-- What the whole scan has found: nothing where no candidate is acceptable, else the best one (R212). -/
theorem solveResult_cases {ref : Nat} (hrange : minPreDiv ref ≤ maxPreDiv ref) (target : Nat) :
    ((solveResult ref target).found = false ∧ ∀ p, candidateRange ref p → ¬acceptable ref target p) ∨
    ((solveResult ref target).found = true ∧ isBestPreDiv ref target (solveResult ref target).bestP ∧
      (solveResult ref target).bestFb = feedbackDiv ref target (solveResult ref target).bestP) := by
  have href : (solveResult ref target).ref = ref := solveScan_ref ..
  have htarget : (solveResult ref target).target = target := solveScan_target ..
  have hp : (solveResult ref target).p = maxPreDiv ref := by
    rw [solveResult, solveScan_p]
    omega
  have hscanned : (solveResult ref target).Scanned := solveScan_scanned (ref_pos_of_range hrange) ..
  cases hscanned with
  | unfound hfound _ hnone =>
    rw [href, htarget, hp] at hnone
    exact .inl ⟨hfound, fun p hrange hacc => hnone p ⟨hrange, hacc⟩⟩
  | found hfound _ hfb hbest =>
    rw [href, htarget] at hfb
    rw [href, htarget, hp] at hbest
    exact .inr ⟨hfound, isBestBelow_maxPreDiv_iff.1 hbest, hfb⟩

/-- Where the scan may accept a candidate, there is a best one. -/
theorem exists_isBestPreDiv {ref target p : Nat} (hp : candidateRange ref p) (hacc : acceptable ref target p) :
    ∃ q, isBestPreDiv ref target q := by
  obtain ⟨-, hnone⟩ | ⟨-, hbest, -⟩ := solveResult_cases (hp.1.trans hp.2.le) target
  · exact absurd hacc (hnone p hp)
  · exact ⟨_, hbest⟩

section
variable {s : State} {ref target : Word}

/-- Without a pre-divider range SOLVE is answered EINVAL_REFCLK (R210, R211). -/
theorem exec_solve_of_no_range (hs : s.ready) (h : maxPreDiv ref.toNat < minPreDiv ref.toNat) :
    exec (.solve ref target) s = .next (s.answers [0x00000010]) := by
  change execSolve ref target s = _
  rw [execSolve, accept_of_ready hs, if_pos h, raiseStatus_of_idle hs.2]
  rfl

/-- With a range SOLVE is the end of its scan (R210). -/
theorem exec_solve_of_range (hs : s.ready) (h : minPreDiv ref.toNat ≤ maxPreDiv ref.toNat) :
    exec (.solve ref target) s = .next (solveEnd (solveResult ref.toNat target.toNat) s) := by
  change execSolve ref target s = _
  rw [execSolve, accept_of_ready hs, if_neg (Nat.not_lt.2 h), runCommand_solve h]

/-- A scan that may accept no candidate is answered EINVAL_NOCAND (R210, R214). -/
theorem exec_solve_of_none_acceptable (hs : s.ready) (h : minPreDiv ref.toNat ≤ maxPreDiv ref.toNat)
    (hnone : ∀ p, candidateRange ref.toNat p → ¬acceptable ref.toNat target.toNat p) :
    exec (.solve ref target) s = .next (s.answers [0x00000011]) := by
  obtain ⟨hfound, -⟩ | ⟨-, ⟨⟨hp, hacc⟩, -⟩, -⟩ := solveResult_cases h target.toNat
  · rw [exec_solve_of_range hs h, solveEnd, if_neg (by simp [hfound]), raiseStatus_of_idle hs.2]
    rfl
  · exact absurd hacc (hnone _ hp)

/-- SOLVE answers the best candidate with its feedback divider and the achieved clock (R210, R215). -/
theorem exec_solve_of_isBestPreDiv (hs : s.ready) {p : Nat} (hbest : isBestPreDiv ref.toNat target.toNat p) :
    exec (.solve ref target) s = .next (s.answers [0x00000000, BitVec.ofNat 32 p,
      BitVec.ofNat 32 (feedbackDiv ref.toNat target.toNat p),
      BitVec.ofNat 32 (achievedClk ref.toNat (feedbackDiv ref.toNat target.toNat p) p)]) := by
  have ⟨⟨hp, hacc⟩, _⟩ := hbest
  have hrange := hp.1.trans hp.2.le
  obtain ⟨-, hnone⟩ | ⟨hfound, hbest', hfb⟩ := solveResult_cases hrange target.toNat
  · exact absurd hacc (hnone p hp)
  · have href : (solveResult ref.toNat target.toNat).ref = ref.toNat := solveScan_ref ..
    rw [exec_solve_of_range hs hrange, solveEnd, if_pos hfound, hfb, href, isBestPreDiv_unique hbest' hbest,
      respond_ok_of_idle hs.2]

end

/-- The rule's example: 24 MHz to 1500 MHz has remainder 0 first at the pre-divider 2 (R210). -/
theorem isBestPreDiv_example : isBestPreDiv 24000000 1500000000 2 := by
  refine ⟨by decide, fun q hq _ => ⟨Nat.zero_le _, fun hlt => ?_⟩⟩
  obtain rfl : q = 1 := Nat.le_antisymm (Nat.le_of_lt_succ hlt) hq.1
  decide

/-- Settles O33: each clause is SOLVE's response in that case, and the scan's result is the best candidate. -/
theorem solveFollowsPseudocode : Obligations.SolveFollowsPseudocode := by
  unfold Obligations.SolveFollowsPseudocode
  intro s ref target hs r t minP maxP ok
  have hok (p : Nat) : ok p ↔ candidateRange r p ∧ acceptable r t p := and_assoc.symm
  refine ⟨rfl, ?decode, exec_solve_of_no_range hs, fun hrange hnone => ?nocand, fun _ hsome => ?best,
    fun href htarget => ?ex⟩
  case decode => exact rejects_of_isIllegal hs 4 fun _ _ hbad => .inr (hbad.imp_right .inl)
  case nocand => exact exec_solve_of_none_acceptable hs hrange fun p hp hacc => hnone p ((hok p).2 ⟨hp, hacc⟩)
  case best =>
    obtain ⟨p, hp⟩ := hsome
    obtain ⟨hrange, hacc⟩ := (hok p).1 hp
    obtain ⟨best, hbest⟩ := exists_isBestPreDiv hrange hacc
    have hleast (q : Nat) (hq : ok q) : remainder r t best ≤ remainder r t q ∧
        (q < best → remainder r t best < remainder r t q) := and_imp.2 (hbest.2 q) ((hok q).1 hq)
    exact ⟨best, (hok best).2 hbest.1, fun q hq => (hleast q hq).1, fun q hq => (hleast q hq).2,
      exec_solve_of_isBestPreDiv hs hbest⟩
  case ex =>
    have hbest : isBestPreDiv ref.toNat target.toNat 2 := by
      rw [show ref.toNat = 24000000 from href, show target.toNat = 1500000000 from htarget]
      exact isBestPreDiv_example
    rw [exec_solve_of_isBestPreDiv hs hbest, show ref.toNat = 24000000 from href,
      show target.toNat = 1500000000 from htarget]
    rfl

/-- Settles O34: the two bounds are the two inequalities, and below 5 MHz the upper one is 0. -/
theorem preDividerRange : Obligations.PreDividerRange := by
  unfold Obligations.PreDividerRange
  intro s ref target hs
  refine ⟨fun p hp => ?bounds, rfl, rfl, exec_solve_of_no_range hs, fun hlow => ?below⟩
  case bounds => rw [minPreDiv_le_iff hp, le_maxPreDiv_iff, and_comm]
  case below =>
    have hmax : maxPreDiv ref.toNat = 0 := Nat.div_eq_of_lt hlow
    exact ⟨hmax, exec_solve_of_no_range hs (hmax ▸ one_le_minPreDiv ref.toNat)⟩

/-- Settles O35: in both cases no candidate is acceptable, and then every feedback divider is 0. -/
theorem solveNoCandidate : Obligations.SolveNoCandidate := by
  unfold Obligations.SolveNoCandidate
  intro s ref target hs
  refine ⟨fun hempty => ?empty, fun hrange hreject => ?rejected⟩
  case empty =>
    refine exec_solve_of_none_acceptable hs hempty.ge fun p ⟨hmin, hmax⟩ _ => ?_
    exact absurd (hempty ▸ hmax) (Nat.not_lt.2 hmin)
  case rejected =>
    have hnone : ∀ p, candidateRange ref.toNat p → ¬acceptable ref.toNat target.toNat p := by
      rintro p hp ⟨hpos, hsmall⟩
      obtain hlarge | hzero := hreject p hp
      · exact Nat.not_lt.2 hlarge hsmall
      · exact Nat.ne_of_gt hpos hzero
    exact ⟨exec_solve_of_none_acceptable hs hrange hnone, fun p hp =>
      feedbackDiv_eq_zero_of_none_acceptable target.isLt hnone hp⟩

end Sys2Proof.Machine

/-! PROOFS. The scan of FR_LOOKUP: the last match among the first entries of the table, and the response in each case
(43_divider_solver.md R220 to R224). -/

namespace Sys2Proof.Machine

/-- The table has an entry of index `j`, and it matches (R222). -/
def matchesAt (table : List FrEntry) (clk j : Nat) : Bool := table[j]?.any (entryMatches · clk)

/-- The last of the first `n` entries that matches (R220). -/
def lastMatchBelow (table : List FrEntry) (clk : Nat) : Nat → Option Nat
  | 0 => none
  | n + 1 => if matchesAt table clk n then some n else lastMatchBelow table clk n

theorem matchesAt_of_getElem? {table : List FrEntry} {j : Nat} {e : FrEntry} (h : table[j]? = some e) (clk : Nat) :
    matchesAt table clk j = entryMatches e clk := by
  rw [matchesAt, h, Option.any_some]

theorem entryMatches_iff {e : FrEntry} {clk : Nat} :
    entryMatches e clk = true ↔ e.thrMhz.toNat ≤ clk / 1000000 :=
  decide_eq_true_iff

theorem matchesAt_iff {table : List FrEntry} {clk j : Nat} :
    matchesAt table clk j = true ↔ ∃ e, table[j]? = some e ∧ e.thrMhz.toNat ≤ clk / 1000000 := by
  simp only [matchesAt, Option.any_eq_true, entryMatches_iff]

theorem lastMatchBelow_of_none {table : List FrEntry} {clk : Nat} (h : ∀ j, ¬matchesAt table clk j) (n : Nat) :
    lastMatchBelow table clk n = none := by
  induction n with
  | zero => rfl
  | succ n ih => rw [lastMatchBelow, if_neg (h n), ih]

theorem lastMatchBelow_of_last {table : List FrEntry} {clk m n : Nat} (hmn : m + 1 ≤ n)
    (hm : matchesAt table clk m) (hlast : ∀ j, m < j → ¬matchesAt table clk j) :
    lastMatchBelow table clk n = some m := by
  induction n, hmn using Nat.le_induction with
  | base => exact if_pos hm
  | succ n hmn ih => rw [lastMatchBelow, if_neg (hlast n hmn), ih]

/-- The DIV state after the first `n` entries (R220). -/
def lookupScan (table : List FrEntry) (clk n : Nat) : LookupState := ⟨clk, n, lastMatchBelow table clk n⟩

/-- The DIV state after the whole table (R220). -/
def lookupResult (table : List FrEntry) (clk : Nat) : LookupState := lookupScan table clk table.length

theorem lookupResult_matchJ (table : List FrEntry) (clk : Nat) :
    (lookupResult table clk).matchJ = lastMatchBelow table clk table.length := rfl

/-- One entry takes the scan's state to the next (R220). -/
theorem advanceLookup_lookupScan {s : State} {i : Nat} (clk : Nat) (hi : i < s.cfg.frTable.length) :
    advanceLookup (lookupScan s.cfg.frTable clk i) s =
      s.setSeq (.busy (.frLookup (lookupScan s.cfg.frTable clk (i + 1)))) := by
  have hentry := List.getElem?_eq_getElem hi
  rw [advanceLookup, lookupScan, lookupScan, hentry, lastMatchBelow, matchesAt_of_getElem? hentry]

/-- After the last entry the scan ends (R220). -/
theorem advanceLookup_lookupResult (s : State) (clk : Nat) :
    advanceLookup (lookupResult s.cfg.frTable clk) s = lookupEnd (lookupResult s.cfg.frTable clk) s := by
  have hentry : s.cfg.frTable[s.cfg.frTable.length]? = none := List.getElem?_eq_none le_rfl
  simp only [advanceLookup, lookupResult, lookupScan, hentry]

/-- An FR_LOOKUP's end sees nothing of the sequencer, which its response leaves IDLE (R112). -/
theorem lookupEnd_setSeq (c : LookupState) (q : Seq) (s : State) : lookupEnd c (s.setSeq q) = lookupEnd c s := by
  unfold lookupEnd raiseStatus
  split
  · exact respond_setSeq ..
  · rw [setSeq_cfg]
    split <;> exact respond_setSeq ..

/-- An FR_LOOKUP's phases are its scan of the table, entry by entry, and then its end (R220, R32). -/
theorem runCommand_frLookup (clk : Nat) (s : State) :
    runCommand (.frLookup ⟨clk, 0, none⟩) s = lookupEnd (lookupResult s.cfg.frTable clk) s := by
  refine (runPhases_scan s (fun i => .frLookup (lookupScan s.cfg.frTable clk i)) s.cfg.frTable.length
    fun i hi => ?step).trans ?last
  case step => exact advanceLookup_lookupScan (s := s.setSeq _) clk hi
  case last => exact (advanceLookup_lookupResult (s.setSeq _) clk).trans (lookupEnd_setSeq ..)

section
variable {s : State} {clk : Word}

theorem exec_frLookup_of_ready (hs : s.ready) :
    exec (.frLookup clk) s = .next (lookupEnd (lookupResult s.cfg.frTable clk.toNat) s) := by
  change execFrLookup clk s = _
  rw [execFrLookup, accept_of_ready hs, runCommand_frLookup]

/-- FR_LOOKUP answers the last matching entry's code and index (R220). -/
theorem exec_frLookup_of_last (hs : s.ready) {m : Nat} {e : FrEntry} (he : s.cfg.frTable[m]? = some e)
    (hm : matchesAt s.cfg.frTable clk.toNat m) (hlast : ∀ j, m < j → ¬matchesAt s.cfg.frTable clk.toNat j) :
    exec (.frLookup clk) s = .next (s.answers [0x00000000, e.code.setWidth 32, BitVec.ofNat 32 m]) := by
  obtain ⟨hlt, -⟩ := List.getElem?_eq_some_iff.1 he
  simp only [exec_frLookup_of_ready hs, lookupEnd, lookupResult_matchJ, lastMatchBelow_of_last hlt hm hlast, he,
    respond_ok_of_idle hs.2]

/-- FR_LOOKUP without a matching entry is answered ENORANGE (R220, R224). -/
theorem exec_frLookup_of_none (hs : s.ready) (h : ∀ j, ¬matchesAt s.cfg.frTable clk.toNat j) :
    exec (.frLookup clk) s = .next (s.answers [0x00000012]) := by
  simp only [exec_frLookup_of_ready hs, lookupEnd, lookupResult_matchJ, lastMatchBelow_of_none h,
    raiseStatus_of_idle hs.2]
  rfl

end

/-- The rule's example: at 1500 MHz the entry 6 of the illustrative table is the last that matches (R220). -/
theorem lastMatch_example : ∀ j, 6 < j → ¬matchesAt Config.illustrative.frTable 1500000000 j := by
  intro j hj hmatch
  obtain ⟨e, he, -⟩ := matchesAt_iff.1 hmatch
  obtain ⟨hlt, -⟩ : ∃ h : j < 8, _ := List.getElem?_eq_some_iff.1 he
  obtain rfl : j = 7 := by omega
  exact absurd hmatch (by decide)

/-- Settles O40: the last match and the lack of one are FR_LOOKUP's two cases, and the example is the first. -/
theorem frLookupFollowsPseudocode : Obligations.FrLookupFollowsPseudocode := by
  unfold Obligations.FrLookupFollowsPseudocode
  intro s clk hs
  refine ⟨rfl, ?decode, fun m e he hle hlast => ?last, fun hnone => ?none, fun htable hclk => ?ex⟩
  case decode => exact rejects_of_isIllegal hs 5 fun _ _ hbad => .inr (hbad.imp_right .inl)
  case last =>
    refine exec_frLookup_of_last hs he (matchesAt_iff.2 ⟨e, he, hle⟩) fun j hj hmatch => ?_
    obtain ⟨e', he', hle'⟩ := matchesAt_iff.1 hmatch
    exact hlast j e' hj he' hle'
  case none =>
    refine exec_frLookup_of_none hs fun j hmatch => ?_
    obtain ⟨e, he, hle⟩ := matchesAt_iff.1 hmatch
    exact hnone e (List.mem_of_getElem? he) hle
  case ex =>
    subst hclk
    refine exec_frLookup_of_last hs (e := ⟨1500, 0x2F⟩) (by rw [htable]; rfl) (by rw [htable]; decide) ?_
    rw [htable]
    exact lastMatch_example

end Sys2Proof.Machine

/-! PROOFS. The reference client's own functions (44_client_sequences.md): the DPI colour coding (R273) and the check of
the video source before the requests of DSI configure (R270, R271). -/

namespace Sys2Proof.Client

open Sys2Proof.Machine

section
variable {p : Params} {t : Timing} {bpp : Option Int} {videoSourceId : Nat} {s : State}

@[simp] theorem dpi_some_16 : dpi p (some 16) = p.dpi16 := rfl

@[simp] theorem dpi_some_30 : dpi p (some 30) = p.dpi30 := by
  have not16 : (some 30 : Option Int) ≠ some 16 := by decide
  rw [dpi, if_neg not16, if_pos rfl]

/-- The "otherwise" of R273: absence is one of its values. -/
theorem dpi_of_ne (h16 : bpp ≠ some 16) (h30 : bpp ≠ some 30) : dpi p bpp = p.dpi24 := by
  rw [dpi, if_neg h16, if_neg h30]

/-- Step 0 of R270 fails, and the state it names is the one it was given. -/
theorem dsiConfigure_of_unsupported (hB : videoSourceId ≠ p.vopB) (hL : videoSourceId ≠ p.vopL) :
    dsiConfigure p t videoSourceId s = .failed s .eInvalid := if_pos ⟨hB, hL⟩

/-- Step 0 of R270 passes, and steps 1 to 10 follow. -/
theorem dsiConfigure_of_supported (h : videoSourceId = p.vopB ∨ videoSourceId = p.vopL) :
    dsiConfigure p t videoSourceId s = sendAll (dsiWrites p t videoSourceId) s :=
  if_neg fun ⟨hB, hL⟩ => h.elim hB hL

end

/-- Settles O56: absence and every integer but 16 and 30 are cases of the same "otherwise". -/
theorem dpiCodingDefaultsTo24 : Obligations.DpiCodingDefaultsTo24 := by
  unfold Obligations.DpiCodingDefaultsTo24
  intro p
  refine ⟨dpi_some_16, dpi_some_30, ?absent, fun bpp h16 h30 => ?other⟩
  case absent => exact dpi_of_ne (Option.some_ne_none 16).symm (Option.some_ne_none 30).symm
  case other => exact dpi_of_ne (mt Option.some.inj h16) (mt Option.some.inj h30)

/-- Settles O57: the two clauses are the two outcomes of the check at step 0 of R270. -/
theorem unsupportedVideoSourceSendsNothing : Obligations.UnsupportedVideoSourceSendsNothing := by
  unfold Obligations.UnsupportedVideoSourceSendsNothing
  intro p t videoSourceId s
  exact ⟨dsiConfigure_of_unsupported, dsiConfigure_of_supported⟩

end Sys2Proof.Client

/-! PROOFS. The two ends of a command: a failure, which leaves its status and nothing else (60_exceptions.md R292), and
OK, which is the only end of a command that has accessed RS (R293). -/

namespace Sys2Proof.Machine

/-- How a command from `s` ends in `t`: a failure adds its status to `s` and nothing else (R292); every other end is OK
(R112). -/
inductive CommandEnd (s t : State) : Prop
  | failed (st : Status) (hst : st ≠ .ok) (h : t = s.answers [st.code.setWidth 32])
  | ok (results : List Word) (h : t.outbox = s.outbox ++ [0x00000000 :: results])

theorem raiseStatus_commandEnd {s : State} (hs : s.isIdle) {st : Status} (hst : st ≠ .ok) :
    CommandEnd s (raiseStatus st s) :=
  .failed st hst (raiseStatus_of_idle hs st)

/-- An OK response is an end of the command whatever its accesses made of the state, no response among them. -/
theorem respond_ok_commandEnd {s t : State} (h : t.outbox = s.outbox) (results : List Word) :
    CommandEnd s (respond .ok results t) :=
  .ok results (by rw [respond_outbox, h]; rfl)

theorem solveEnd_commandEnd {s : State} (hs : s.isIdle) (c : SolveState) : CommandEnd s (solveEnd c s) := by
  unfold solveEnd
  split
  · exact respond_ok_commandEnd rfl _
  · exact raiseStatus_commandEnd hs nofun

theorem lookupEnd_commandEnd {s : State} (hs : s.isIdle) (c : LookupState) : CommandEnd s (lookupEnd c s) := by
  unfold lookupEnd
  split
  · exact raiseStatus_commandEnd hs nofun
  · split
    · exact raiseStatus_commandEnd hs nofun
    · exact respond_ok_commandEnd rfl _

theorem rsRead_outbox (a : Nat) (s : State) : (rsRead a s).2.outbox = s.outbox := rfl

/-- A command that passed its checks fails only in DIV, which makes no access (R214, R224, R293). -/
theorem ranCommand_commandEnd {i : Instr} {s t : State} (hs : s.isIdle) (h : ranCommand s t i) : CommandEnd s t := by
  cases i with
  | fieldWrite d v =>
    obtain ⟨-, -, rfl⟩ := h
    exact respond_ok_commandEnd (fieldWrite_outbox d v s) []
  | regRead b o =>
    obtain ⟨-, rfl⟩ := h
    rw [runCommand_regRead]
    exact respond_ok_commandEnd (rsRead_outbox (s.cfg.ea b o) s) _
  | testWrite code data =>
    obtain ⟨⟨hpos, -⟩, rfl⟩ := h
    rw [runCommand_testWrite code hpos]
    exact respond_ok_commandEnd (writeLines_outbox _ s) []
  | solve ref target =>
    obtain ⟨hrange, rfl⟩ := h
    rw [runCommand_solve hrange]
    exact solveEnd_commandEnd hs _
  | frLookup clk =>
    obtain rfl : t = runCommand (.frLookup ⟨clk.toNat, 0, none⟩) s := h
    rw [runCommand_frLookup]
    exact lookupEnd_commandEnd hs _

theorem exec_commandEnd {i : Instr} {s t : State} (h : exec i s = .next t) : s.isIdle ∧ CommandEnd s t := by
  obtain ⟨⟨-, hs⟩, ⟨st, hst, rfl⟩ | hran⟩ := exec_next h
  · exact ⟨hs, raiseStatus_commandEnd hs hst⟩
  · exact ⟨hs, ranCommand_commandEnd hs hran⟩

/-- A request that is answered met an IDLE sequencer, and ends as a command does, ILLEGAL requests included (R111). -/
theorem step_request_commandEnd {s t : State} {ws : List Word} {rest : List HostEvent}
    (hinbox : s.inbox = .request ws :: rest) (hstep : step s = .next t) :
    s.isIdle ∧ CommandEnd { s with inbox := rest } t := by
  obtain ⟨hnil, -, -⟩ | ⟨e, rest', hcons, hevent⟩ := step_next hstep
  · cases hinbox.symm.trans hnil
  · cases hinbox.symm.trans hcons
    obtain ⟨-, -, -, -, -, ⟨-, hs⟩, rfl⟩ | ⟨-, i, -, -, hexec⟩ | ⟨r, hreset, -, -⟩ := hevent
    · exact ⟨hs, raiseStatus_commandEnd hs nofun⟩
    · exact exec_commandEnd hexec
    · cases hreset

/-- Settles O42: of the two ends of a request, OK is excluded, and a failure is the state before with the status added. -/
theorem failedCommandsArePrecise : Obligations.FailedCommandsArePrecise := by
  unfold Obligations.FailedCommandsArePrecise
  intro s t ws rest status results hinbox hstep houtbox hstatus
  obtain ⟨hs, ⟨st, -, rfl⟩ | ⟨okResults, hok⟩⟩ := step_request_commandEnd hinbox hstep
  · obtain ⟨rfl, rfl⟩ : st.code.setWidth 32 = status ∧ [] = results := by simpa using houtbox
    exact ⟨rfl, hs, rfl⟩
  · obtain ⟨hzero, -⟩ : status = 0x00000000 ∧ results = okResults := by simpa using houtbox.symm.trans hok
    exact absurd hzero hstatus

/-- Settles O44: a command that fails leaves the record of accesses as it was, and the other end of a command is OK. -/
theorem accessImpliesOk : Obligations.AccessImpliesOk := by
  unfold Obligations.AccessImpliesOk
  intro s t i hexec haccess
  obtain ⟨-, ⟨st, -, rfl⟩ | ⟨results, hok⟩⟩ := exec_commandEnd hexec
  · exact absurd (answers_trace _ s) haccess
  · exact ⟨results, hok⟩

end Sys2Proof.Machine

/-! PROOFS. Refusals (60_exceptions.md R297, 10_state.md R45): where a step has no next state it is a refusal that
carries the state with the mark set, and no ground of refusal leaves a next state. -/

namespace Sys2Proof.Machine

/-- The outcome is a next state, or a refusal that leaves `s` with its mark `refused` set (R45, R297). -/
def NextOrMarks (s : State) (o : Host.Outcome State Fault Refusal) : Prop :=
  (∃ t, o = .next t) ∨ ∃ r, o = .refused r ∧ r.marked = some s.markRefused

theorem nextOrMarks_next (s t : State) : NextOrMarks s (.next t) := .inl ⟨t, rfl⟩

theorem nextOrMarks_refused {s : State} {r : Refusal} (h : r.marked = some s.markRefused) :
    NextOrMarks s (.refused r) := .inr ⟨r, rfl, h⟩

theorem accept_nextOrMarks (s : State) (c : State → State) : NextOrMarks s (accept s c) := by
  unfold accept
  split
  · exact nextOrMarks_refused rfl
  · split
    · exact nextOrMarks_refused rfl
    · exact nextOrMarks_next s _

/-- Every command begins with `accept` (R32, R37). -/
theorem exec_eq_accept (i : Instr) (s : State) : ∃ c, exec i s = accept s c := by
  cases i with
  | fieldWrite d v => exact ⟨_, by rw [exec, execFieldWrite]⟩
  | regRead b o => exact ⟨_, by rw [exec, execRegRead]⟩
  | testWrite code data => exact ⟨_, by rw [exec, execTestWrite]⟩
  | solve ref target => exact ⟨_, by rw [exec, execSolve]⟩
  | frLookup clk => exact ⟨_, by rw [exec, execFrLookup]⟩

theorem deliver_nextOrMarks (ws : List Word) (s : State) : NextOrMarks s (deliver ws s) := by
  unfold deliver
  split
  · next i _ =>
    obtain ⟨c, hexec⟩ := exec_eq_accept i s
    rw [hexec]
    exact accept_nextOrMarks s c
  · exact nextOrMarks_refused rfl
  · exact accept_nextOrMarks s _

theorem resetEvent_nextOrMarks (rsInit : Memory) (s : State) : NextOrMarks s (resetEvent rsInit s) := by
  unfold resetEvent
  split
  · exact nextOrMarks_refused rfl
  · split
    · exact nextOrMarks_refused rfl
    · exact nextOrMarks_next s _

theorem noEvent_nextOrMarks (s : State) : NextOrMarks s (noEvent s) := by
  unfold noEvent
  split
  · exact nextOrMarks_refused rfl
  · exact nextOrMarks_next s _

theorem handle_nextOrMarks (e : HostEvent) (s : State) : NextOrMarks s (handle e s) := by
  cases e with
  | request ws => exact deliver_nextOrMarks ws s
  | foreignWrite a v => exact nextOrMarks_refused rfl
  | reset rsInit => exact resetEvent_nextOrMarks rsInit s

/-- A refusal changes nothing but the mark, and takes the event it refuses. -/
theorem step_nextOrMarks (s : State) : NextOrMarks { s with inbox := s.inbox.tail } (step s) := by
  cases hinbox : s.inbox with
  | nil =>
    have hstep : step s = noEvent s := by rw [step, hinbox]
    have hsame : { s with inbox := [].tail } = s := by rw [List.tail_nil, ← hinbox]
    rw [hstep, hsame]
    exact noEvent_nextOrMarks s
  | cons e rest =>
    have hstep : step s = handle e { s with inbox := rest } := by rw [step, hinbox]
    rw [hstep]
    exact handle_nextOrMarks e { s with inbox := rest }

theorem step_of_emptyRequest {s : State} {rest : List HostEvent} (h : s.inbox = .request [] :: rest) :
    step s = .refused (.emptyRequest { s with inbox := rest, refused := true }) := by
  rw [step, h]
  rfl

theorem step_of_foreignWrite {s : State} {a : Nat} {v : Word} {rest : List HostEvent}
    (h : s.inbox = .foreignWrite a v :: rest) :
    step s = .refused (.foreignWrite { s with inbox := rest, refused := true }) := by
  rw [step, h]
  rfl

/-- Nothing runs under an ill-formed configuration (R37). -/
theorem cfg_wf_of_step_next {s t : State} (h : step s = .next t) : s.cfg.wf := by
  obtain ⟨-, hwf, -⟩ | ⟨e, rest, -, hevent⟩ := step_next h
  · exact hwf
  · obtain ⟨-, -, -, -, -, ⟨hwf, -⟩, -⟩ | ⟨-, i, -, -, hexec⟩ | ⟨-, -, ⟨hwf, -⟩, -⟩ := hevent
    · exact hwf
    · obtain ⟨⟨hwf, -⟩, -⟩ := exec_next hexec
      exact hwf
    · exact hwf

/-- None of the four grounds of refusal leaves a next state (R297). -/
theorem not_inadmissible_of_step_next {s t : State} (h : step s = .next t) : ¬s.inadmissible := by
  rintro (hempty | hwf | ⟨hbusy, ws, hrequest⟩ | ⟨a, v, hforeign⟩)
  · obtain ⟨rest, hinbox⟩ := List.head?_eq_some_iff.1 hempty
    cases (step_of_emptyRequest hinbox).symm.trans h
  · exact hwf (cfg_wf_of_step_next h)
  · obtain ⟨rest, hinbox⟩ := List.head?_eq_some_iff.1 hrequest
    obtain ⟨hidle, -⟩ := step_request_commandEnd hinbox h
    exact hbusy hidle
  · obtain ⟨rest, hinbox⟩ := List.head?_eq_some_iff.1 hforeign
    cases (step_of_foreignWrite hinbox).symm.trans h

/-- Settles O59: no ground of refusal has a next state, and what a step has instead is a refusal with the mark set. -/
theorem refusalGroundsSetTheMark : Obligations.RefusalGroundsSetTheMark := by
  unfold Obligations.RefusalGroundsSetTheMark
  intro s hground
  obtain ⟨t, hnext⟩ | ⟨r, hrefused, hmarked⟩ := step_nextOrMarks s
  · exact absurd hground (not_inadmissible_of_step_next hnext)
  · exact ⟨r, _, hrefused, hmarked, rfl, rfl, rfl, rfl, rfl⟩

end Sys2Proof.Machine

/-! PROOFS. A host FIELD_WRITE to a test line as a protocol step of the receiver (70_reset_and_hazards.md R332). -/

namespace Sys2Proof.Machine

section
variable {s : State} {d : Desc} {v : Word}

/-- A field write that lowers `test_clk` alone under `test_enable = 1` latches the data lines as a code (R181, R332). -/
theorem fieldWrite_trx_of_fall (hclk : s.lines.clk = 1) (hlines : (fieldWrite d v s).lines = { s.lines with clk := 0 })
    (hen : s.lines.en = 1) (hclr : s.lines.clr = 0) : (fieldWrite d v s).trx = s.trx.latch s.lines.din := by
  rw [fieldWrite_trx, hlines, observe_fall_enabled hclr hclk hen]

/-- A field write that raises `test_clk` alone under `test_enable = 0` captures the data lines (R182, R332). -/
theorem fieldWrite_trx_of_rise (hclk : s.lines.clk = 0) (hlines : (fieldWrite d v s).lines = { s.lines with clk := 1 })
    (hen : s.lines.en = 0) (hclr : s.lines.clr = 0) : (fieldWrite d v s).trx = s.trx.capture s.cfg s.lines.din := by
  rw [fieldWrite_trx, hlines, observe_rise_disabled hclr hclk hen]

/-- A field write that changes `test_clk` with another line does nothing but set the mark (R184 (b), R332). -/
theorem fieldWrite_trx_of_clkWithOther (h : s.lines.clkWithOther (fieldWrite d v s).lines) :
    (fieldWrite d v s).trx = { s.trx with trxFault := true } := by
  rw [fieldWrite_trx, observe_of_clkWithOther h]

end

/-- Settles O29: a FIELD_WRITE that passes its checks is the field write, and each clause is one reaction of the
receiver to the lines it moves. -/
theorem hostLineWritesAreProtocolSteps : Obligations.HostLineWritesAreProtocolSteps := by
  unfold Obligations.HostLineWritesAreProtocolSteps
  intro s d value hs hrs hd hlt halign
  refine ⟨_, exec_fieldWrite_of_passed hs hd hlt halign, rfl, ?clk, fieldWrite_trx_of_fall,
    fun code hclk hlines hen hclr hcode => ?rise, fun hclk hother => ?two⟩
  case clk =>
    rintro rfl
    exact lines_fieldWrite hs.1 hrs .clk value
  case rise => rw [answers_trx, fieldWrite_trx_of_rise hclk hlines hen hclr, capture_of_code hcode]
  case two =>
    have htwo : s.lines.clkWithOther (fieldWrite d value s).lines :=
      ⟨hclk.symm, hother.imp Ne.symm (.imp Ne.symm Ne.symm)⟩
    rw [answers_trx, fieldWrite_trx_of_clkWithOther htwo]

end Sys2Proof.Machine

/-! PROOFS. The two round trips of the encoding (30_encoding.md R101 to R108). -/

namespace Sys2Proof

/-- Settles O1: the header names the format, and the format's operands are the command's own. -/
theorem decodeInvertsEncode : Obligations.DecodeInvertsEncode := by
  unfold Obligations.DecodeInvertsEncode
  intro i hwf
  exact decode_encode hwf

/-- Settles O2: a request that decodes has a header, and header and body are put together again from the operands. -/
theorem encodeInvertsDecode : Obligations.EncodeInvertsDecode := by
  unfold Obligations.EncodeInvertsDecode
  intro ws i h
  obtain ⟨header, body, rfl⟩ := exists_cons_of_decode h
  exact encode_of_decode h

end Sys2Proof

/-! PROOFS. Every command runs to its response (10_state.md R32): each phase of a BUSY sequencer leaves fewer phases, and
`phasesLeft` bounds them from every phase state. -/

namespace Sys2Proof.Machine

/-- The phases of a TEST_WRITE that are left, DONE among them (R172). D1 to D3 run once even where no byte is left. -/
def tibPhases (t : TibState) : Nat :=
  match t.phase with
  | .c1 => 3 * max 1 t.data.length + 6
  | .c2 => 3 * max 1 t.data.length + 5
  | .c3 => 3 * max 1 t.data.length + 4
  | .c4 => 3 * max 1 t.data.length + 3
  | .c5 => 3 * max 1 t.data.length + 2
  | .d1 => 3 * max 1 (t.data.length - t.i) + 1
  | .d2 => 3 * max 1 (t.data.length - t.i)
  | .d3 => 3 * max 1 (t.data.length - t.i) - 1
  | .done => 1

theorem tibPhases_pos (t : TibState) : 0 < tibPhases t := by
  obtain ⟨code, data, phase, i⟩ := t
  cases phase <;> dsimp only [tibPhases] <;> omega

theorem tibPhases_le (t : TibState) : tibPhases t ≤ 9 + 3 * t.data.length := by
  obtain ⟨code, data, phase, i⟩ := t
  cases phase <;> dsimp only [tibPhases] <;> omega

/-- Every phase before DONE leaves fewer phases; after D3 the next byte's D1 has one byte less to go (R172). -/
theorem tibPhases_tibNext {t : TibState} (h : t.phase ≠ .done) : tibPhases (tibNext t) < tibPhases t := by
  obtain ⟨code, data, phase, i⟩ := t
  cases phase with
  | done => exact absurd rfl h
  | d3 =>
    dsimp only [tibNext]
    split <;> dsimp only [tibPhases] <;> omega
  | c1 | c2 | c3 | c4 | c5 | d1 | d2 => dsimp only [tibNext, tibPhases]; omega

/-- Only DONE makes no line write (R172). -/
theorem phase_ne_done_of_tibWrite {t : TibState} {w : Line × Word} (h : tibWrite t = some w) : t.phase ≠ .done := by
  intro hdone
  simp [tibWrite, hdone] at h

/-- The phases a command has left: exactly for a TEST_WRITE, for the others the bound of `phasesLeft`. -/
def activityPhases (cfg : Config) : Activity → Nat
  | .testWrite t => tibPhases t
  | cmd => phasesLeft cfg cmd

theorem activityPhases_le (cfg : Config) (cmd : Activity) : activityPhases cfg cmd ≤ phasesLeft cfg cmd := by
  cases cmd with
  | testWrite t => exact tibPhases_le t
  | fieldWrite | regRead | solve | frLookup => exact le_rfl

theorem activityPhases_pos (cfg : Config) (cmd : Activity) : 0 < activityPhases cfg cmd := by
  cases cmd with
  | testWrite t => exact tibPhases_pos t
  | fieldWrite | regRead | solve | frLookup => exact Nat.succ_pos _

/-- The phases the sequencer of a state has left before it is IDLE. -/
def State.phases (s : State) : Nat :=
  match s.seq with
  | .idle => 0
  | .busy cmd => activityPhases s.cfg cmd

theorem phases_of_idle {s : State} (h : s.isIdle) : s.phases = 0 := by
  rw [State.phases, h]

theorem phases_of_busy {s : State} {cmd : Activity} (h : s.seq = .busy cmd) :
    s.phases = activityPhases s.cfg cmd := by
  rw [State.phases, h]

theorem solveEnd_seq (c : SolveState) (s : State) : (solveEnd c s).seq = .idle := by
  unfold solveEnd raiseStatus
  split <;> rfl

theorem lookupEnd_seq (c : LookupState) (s : State) : (lookupEnd c s).seq = .idle := by
  unfold lookupEnd raiseStatus
  split
  · rfl
  · split <;> rfl

theorem advanceTib_phases_lt (t : TibState) (s : State) : (advanceTib t s).phases < tibPhases t := by
  unfold advanceTib
  split
  · rw [phases_of_idle (respond_seq _ _ _)]
    exact tibPhases_pos t
  · next hwrite =>
    rw [phases_of_busy (setSeq_seq _ _)]
    exact tibPhases_tibNext (phase_ne_done_of_tibWrite hwrite)

theorem advanceSolve_phases_lt (c : SolveState) (s : State) :
    (advanceSolve c s).phases < maxPreDiv c.ref - c.p + 1 := by
  unfold advanceSolve
  split
  · rw [phases_of_busy (setSeq_seq _ _), activityPhases, phasesLeft, solveCandidate_ref, solveCandidate_p]
    · omega
    · nofun
  · rw [phases_of_idle (solveEnd_seq c s)]
    exact Nat.succ_pos _

theorem advanceLookup_phases_lt (c : LookupState) (s : State) :
    (advanceLookup c s).phases < s.cfg.frTable.length - c.j + 1 := by
  unfold advanceLookup
  split
  · next hentry =>
    obtain ⟨hlt, -⟩ := List.getElem?_eq_some_iff.1 hentry
    rw [phases_of_busy (setSeq_seq _ _), activityPhases, phasesLeft, setSeq_cfg]
    · dsimp only
      omega
    · nofun
  · rw [phases_of_idle (lookupEnd_seq c s)]
    exact Nat.succ_pos _

/-- Every phase of a BUSY sequencer leaves fewer phases: it responds, or its command moves on (R32). -/
theorem advance_phases_lt {s : State} {cmd : Activity} (h : s.seq = .busy cmd) :
    (advance s).phases < activityPhases s.cfg cmd := by
  unfold advance
  rw [h]
  cases cmd with
  | fieldWrite d v =>
    rw [phases_of_idle (respond_seq _ _ _)]
    exact activityPhases_pos _ _
  | regRead b o =>
    rw [phases_of_idle (respond_seq _ _ _)]
    exact activityPhases_pos _ _
  | testWrite t => exact advanceTib_phases_lt t s
  | solve c => exact advanceSolve_phases_lt c s
  | frLookup c => exact advanceLookup_phases_lt c s

/-- As many phases as a state has left take its sequencer to IDLE. -/
theorem runPhases_isIdle {n : Nat} {s : State} (hn : s.phases ≤ n) : (runPhases n s).isIdle := by
  induction n generalizing s with
  | zero =>
    cases h : s.seq with
    | idle => exact h
    | busy cmd =>
      have hpos := activityPhases_pos s.cfg cmd
      rw [phases_of_busy h] at hn
      omega
  | succ n ih =>
    cases h : s.seq with
    | idle => rw [runPhases_idle _ h]; exact h
    | busy cmd =>
      have hlt := advance_phases_lt h
      rw [phases_of_busy h] at hn
      rw [runPhases_busy n h]
      exact ih (by omega)

/-- A command under way runs to its response, whatever its phase state (R32). -/
theorem finish_isIdle (s : State) : (finish s).isIdle := by
  unfold finish
  split
  · next h => exact h
  · next cmd h => exact runPhases_isIdle ((phases_of_busy h).trans_le (activityPhases_le s.cfg cmd))

theorem exec_isIdle {i : Instr} {s t : State} (h : exec i s = .next t) : t.isIdle := by
  obtain ⟨-, ⟨st, -, rfl⟩ | hran⟩ := exec_next h
  · exact respond_seq st [] s
  · obtain ⟨cmd, rfl⟩ := ranCommand_runCommand hran
    exact finish_isIdle _

/-- Settles O47: each kind of step ends with a response, with a command's last phase, or with the reset. -/
theorem commandsEndIdle : Obligations.CommandsEndIdle := by
  unfold Obligations.CommandsEndIdle
  intro s t hstep
  obtain ⟨-, -, rfl⟩ | ⟨e, rest, -, hevent⟩ := step_next hstep
  · exact finish_isIdle s
  · obtain ⟨-, -, -, -, -, -, rfl⟩ | ⟨-, i, -, -, hexec⟩ | ⟨r, -, -, rfl⟩ := hevent
    · exact respond_seq _ _ _
    · exact exec_isIdle hexec
    · exact applyReset_seq r _

end Sys2Proof.Machine

/-! PROOFS. What every step keeps (10_state.md sections 2 to 5, 42_test_interface.md section 2): one induction over the
kinds of step, then the configuration with the marks, and the machine's invariant. -/

namespace Sys2Proof.Machine

/-- A command that passed its checks is the run of one activity, whose address is checked where it has one (R71). -/
theorem ranCommand_checked {i : Instr} {s t : State} (h : ranCommand s t i) :
    ∃ cmd, (Seq.busy cmd).checked s.cfg = true ∧ t = runCommand cmd s := by
  cases i with
  | fieldWrite d v =>
    obtain ⟨-, haddr, rfl⟩ := h
    exact ⟨.fieldWrite d v, by rw [Seq.checked, haddr]; rfl, rfl⟩
  | regRead b o =>
    obtain ⟨haddr, rfl⟩ := h
    exact ⟨.regRead b o, by rw [Seq.checked, haddr]; rfl, rfl⟩
  | testWrite code data => obtain ⟨-, rfl⟩ := h; exact ⟨_, rfl, rfl⟩
  | solve ref target => obtain ⟨-, rfl⟩ := h; exact ⟨_, rfl, rfl⟩
  | frLookup clk => exact ⟨_, rfl, h⟩

/-- What the parts of a step keep: the taking of an event, a response, the start of a command that passed its checks, a
phase, and a reset. -/
structure KeptByParts (P : State → Prop) : Prop where
  inbox : ∀ s rest, P s → P { s with inbox := rest }
  respond : ∀ st r s, P s → P (respond st r s)
  start : ∀ cmd s, (Seq.busy cmd).checked s.cfg = true → P s → P (s.setSeq (.busy cmd))
  advance : ∀ s, P s → P (advance s)
  reset : ∀ r s, P s → P (applyReset r s)

section
variable {P : State → Prop} (hP : KeptByParts P)
include hP

theorem KeptByParts.exec {i : Instr} {s t : State} (hs : P s) (h : exec i s = .next t) : P t := by
  obtain ⟨-, ⟨st, -, rfl⟩ | hran⟩ := exec_next h
  · exact hP.respond st [] s hs
  · obtain ⟨cmd, hchecked, rfl⟩ := ranCommand_checked hran
    exact finish_keeps hP.advance (hP.start cmd s hchecked hs)

/-- What the parts of a step keep, every step keeps. -/
theorem KeptByParts.step {s t : State} (hs : P s) (h : step s = .next t) : P t := by
  obtain ⟨-, -, rfl⟩ | ⟨e, rest, -, hevent⟩ := step_next h
  · exact finish_keeps hP.advance hs
  · have hrest := hP.inbox s rest hs
    obtain ⟨-, -, -, -, -, -, rfl⟩ | ⟨-, i, -, -, hexec⟩ | ⟨r, -, -, rfl⟩ := hevent
    · exact hP.respond .illegal [] _ hrest
    · exact hP.exec hrest hexec
    · exact hP.reset r _ hrest

end

/-- A capture never clears the mark (R45). -/
theorem capture_trxFault (cfg : Config) (d : Byte) {r : Receiver} (h : r.trxFault = true) :
    (r.capture cfg d).trxFault = true := by
  cases hcode : r.codeLatch with
  | none => rw [capture_of_no_code hcode]
  | some code => rw [capture_of_code hcode]; exact h

/-- No reaction of the receiver clears its mark (R45, R180). -/
theorem observe_trxFault (cfg : Config) (old new : Lines) {r : Receiver} (h : r.trxFault = true) :
    (observe cfg old new r).trxFault = true := by
  obtain hr | ⟨-, hr⟩ | ⟨-, -, -, -, hr⟩ | ⟨-, -, -, -, hr⟩ | ⟨-, hr⟩ := observe_cases cfg old new r <;> rw [hr]
  · exact h
  · exact h
  · exact capture_trxFault cfg new.din h
  · exact h

/-- From `s` to `t` the configuration and the mark `refused` stand as they were, and `trx_fault` is not cleared (R36,
R45). -/
def Persists (s t : State) : Prop :=
  t.cfg = s.cfg ∧ (s.trx.trxFault = true → t.trx.trxFault = true) ∧ t.refused = s.refused

theorem persists_fieldWrite {s t : State} (h : Persists s t) (d : Desc) (v : Word) : Persists s (fieldWrite d v t) := by
  obtain ⟨hcfg, hfault, hrefused⟩ := h
  exact ⟨hcfg, fun hs => observe_trxFault _ _ _ (hfault hs), hrefused⟩

theorem persists_advance {s t : State} (h : Persists s t) : Persists s (advance t) := by
  obtain ⟨-, ht⟩ | ⟨d, v, -, ht⟩ | ⟨b, o, -, ht⟩ | ⟨t', l, v, -, -, ht⟩ | ⟨st, r, ht⟩ | ⟨c, ht⟩ | ⟨c, ht⟩ :=
    advance_cases t <;> rw [ht]
  · exact h
  · exact persists_fieldWrite h d v
  · exact h
  · exact persists_fieldWrite h _ v
  · exact h
  · exact h
  · exact h

theorem persists_keptByParts (s : State) : KeptByParts (Persists s) where
  inbox _ _ h := h
  respond _ _ _ h := h
  start _ _ _ h := h
  advance _ h := persists_advance h
  reset _ _ h := h

/-- Settles O50: only a field write reaches the receiver's mark, and the receiver never clears it. -/
theorem configAndMarksPersist : Obligations.ConfigAndMarksPersist := by
  unfold Obligations.ConfigAndMarksPersist
  intro s t hstep
  exact (persists_keptByParts s).step ⟨rfl, id, rfl⟩ hstep

/-- `2^AW` is a multiple of the word's length, so that an aligned word below it lies below it whole (R71). -/
theorem aw_size_mod_four (aw : AddrWidth) : aw.size % 4 = 0 := by
  cases aw <;> rfl

/-- A field write below `2^AW` keeps RS in canonical form and below `2^AW` (R38). -/
theorem rsInv_fieldWrite {s : State} (h : s.rsInv) {d : Desc} (hlt : s.cfg.addr d < s.cfg.aw.size)
    (halign : s.cfg.addr d % 4 = 0) (v : Word) : (fieldWrite d v s).rsInv := by
  obtain ⟨hrs, hbound⟩ := h
  refine ⟨fieldWrite_rs_wf hrs d v, fun c hc => ?_⟩
  have hsize := aw_size_mod_four s.cfg.aw
  change c.1 < s.cfg.aw.size
  obtain hold | ⟨-, hnew⟩ := Memory.mem_writeWord hc
  · exact hbound c hold
  · omega

/-- A capture counts only where a code is latched, and keeps that code (R182). -/
theorem capture_codeLatch (cfg : Config) (d : Byte) (r : Receiver) : (r.capture cfg d).codeLatch = r.codeLatch := by
  cases hcode : r.codeLatch with
  | none => rw [capture_of_no_code hcode, hcode]
  | some code => rw [capture_of_code hcode, hcode]

/-- Every reaction of the receiver keeps its count at 0 while no code is latched (R43, R180). -/
theorem observe_latchInv (cfg : Config) (old new : Lines) {r : Receiver} (h : r.codeLatch = none → r.k = 0)
    (hnone : (observe cfg old new r).codeLatch = none) : (observe cfg old new r).k = 0 := by
  obtain hr | ⟨-, hr⟩ | ⟨-, -, -, -, hr⟩ | ⟨-, -, -, -, hr⟩ | ⟨-, hr⟩ := observe_cases cfg old new r <;>
    rw [hr] at hnone ⊢
  · exact h hnone
  · rfl
  · cases hnone
  · rw [capture_codeLatch] at hnone
    rw [capture_of_no_code hnone]
    exact h hnone
  · exact h hnone

/-- After a write that leaves the clear asserted, the receiver is cleared, or the write set the mark (R180, R185). -/
theorem observe_under_clear (cfg : Config) (old : Lines) {new : Lines} (r : Receiver) (hclr : new.clr = 1) :
    (observe cfg old new r).trxFault = true ∨ observe cfg old new r = r.cleared cfg := by
  by_cases htwo : old.clkWithOther new
  · exact .inl (by rw [observe_of_clkWithOther htwo])
  · exact .inr (observe_of_clr htwo hclr)

theorem clearInv_fieldWrite (s : State) (d : Desc) (v : Word) : (fieldWrite d v s).clearInv := by
  intro hclr
  obtain hfault | hcleared := observe_under_clear s.cfg s.lines s.trx hclr
  · exact .inl hfault
  · rw [fieldWrite_trx, hcleared]
    exact .inr ⟨rfl, rfl, .inl rfl⟩

/-- A move of the sequencer keeps the invariant where a field command it goes to has passed its address checks. -/
theorem inv_setSeq {s : State} (h : s.Inv) {q : Seq} (hq : q.checked s.cfg = true) : (s.setSeq q).Inv := by
  obtain ⟨hcfg, -, hrs, hlatch, hclear⟩ := h
  exact ⟨hcfg, hq, hrs, hlatch, hclear⟩

theorem inv_respond {s : State} (h : s.Inv) (st : Status) (r : List Word) : (respond st r s).Inv :=
  inv_setSeq h (q := .idle) rfl

/-- A field write of an aligned word below `2^AW` keeps the invariant. -/
theorem inv_fieldWrite {s : State} (h : s.Inv) {d : Desc} (hlt : s.cfg.addr d < s.cfg.aw.size)
    (halign : s.cfg.addr d % 4 = 0) (v : Word) : (fieldWrite d v s).Inv := by
  obtain ⟨hcfg, hseq, hrs, hlatch, -⟩ := h
  exact ⟨hcfg, hseq, rsInv_fieldWrite hrs hlt halign v, observe_latchInv _ _ _ hlatch, clearInv_fieldWrite s d v⟩

theorem inv_advance {s : State} (h : s.Inv) : (advance s).Inv := by
  obtain ⟨-, hs⟩ | ⟨d, v, hseq, hs⟩ | ⟨b, o, -, hs⟩ | ⟨t, l, v, -, -, hs⟩ | ⟨st, r, hs⟩ | ⟨c, hs⟩ | ⟨c, hs⟩ :=
    advance_cases s <;> rw [hs]
  · exact h
  · have ⟨_, hchecked, _⟩ := h
    rw [hseq, Seq.checked, Option.isNone_iff_eq_none] at hchecked
    obtain ⟨hlt, halign⟩ := addrCheck_none.1 hchecked
    exact inv_respond (inv_fieldWrite h hlt halign v) .ok []
  · exact inv_respond (s := (rsRead (s.cfg.ea b o) s).2) h .ok _
  · have ⟨hcfg, _⟩ := h
    obtain ⟨-, -, hlt, halign⟩ := Config_wf_line hcfg l
    exact inv_setSeq (inv_fieldWrite h hlt halign v) rfl
  · exact inv_respond h st r
  · exact inv_setSeq h rfl
  · exact inv_setSeq h rfl

/-- At power-on no code is latched, the count is 0 and every test register is unknown, as the invariant allows under an
asserted clear (R46, assumption log 14). -/
theorem inv_of_powerOn {s : State} (hcfg : s.cfg.wf) (hseq : s.isIdle) (hrs : s.rsInv) {mark : Bool}
    (htrx : s.trx = Receiver.powerOn mark) : s.Inv := by
  have hlatch : s.latchInv := fun _ => by rw [htrx, Receiver.powerOn_k]
  have hclear : s.clearInv := fun _ => .inr <| by rw [htrx]; exact ⟨rfl, rfl, .inr rfl⟩
  exact ⟨hcfg, by rw [hseq]; rfl, hrs, hlatch, hclear⟩

/-- A reset takes the cells below `2^AW` of its draw, in canonical form (R46). -/
theorem rsInv_applyReset (r : Memory) (s : State) : (applyReset r s).rsInv := by
  refine ⟨Memory.ofCells_wf _, fun c hc => ?_⟩
  obtain ⟨-, hlt⟩ := List.mem_filter.1 (Memory.mem_ofCells hc)
  exact of_decide_eq_true hlt

theorem inv_keptByParts : KeptByParts State.Inv where
  inbox _ _ h := h
  respond st r _ h := inv_respond h st r
  start _ _ hchecked h := inv_setSeq h hchecked
  advance _ h := inv_advance h
  reset r s h := inv_of_powerOn (s := applyReset r s) h.1 rfl (rsInv_applyReset r s) rfl

/-- Settles O48: the invariant is kept by each part of a step. -/
theorem stepKeepsTheInvariant : Obligations.StepKeepsTheInvariant := by
  unfold Obligations.StepKeepsTheInvariant
  intro s t hs hstep
  exact inv_keptByParts.step hs hstep

/-- Settles O49: a launch is IDLE with the receiver at power-on, and the machine after reset is one. -/
theorem launchHasTheInvariant : Obligations.LaunchHasTheInvariant := by
  unfold Obligations.LaunchHasTheInvariant
  have hlaunch (cfg : Config) (rsInit : Memory) (hcfg : cfg.wf) (hrs : rsInit.wf)
      (hbound : ∀ c ∈ rsInit, c.1 < cfg.aw.size) : (State.launch cfg rsInit).Inv :=
    inv_of_powerOn (s := State.launch cfg rsInit) hcfg (launch_seq cfg rsInit) ⟨hrs, hbound⟩ (launch_trx cfg rsInit)
  exact ⟨hlaunch, hlaunch Config.illustrative [] (by decide) reset_rs_wf nofun⟩

end Sys2Proof.Machine

/-! PROOFS. What each event does at its own point: a request that decodes, the reset between commands and during one, no
event, and the refusals by name (10_state.md R32, 60_exceptions.md R297, 70_reset_and_hazards.md R320). -/

namespace Sys2Proof.Machine

/-- A step hands the first event of the inbox on (R32). -/
theorem step_of_event {s : State} {e : HostEvent} {rest : List HostEvent} (h : s.inbox = e :: rest) :
    step s = handle e { s with inbox := rest } := by
  rw [step, h]

theorem deliver_of_decode {ws : List Word} {i : Instr} (h : decode ws = .ok i) (s : State) :
    deliver ws s = exec i s := by
  rw [deliver, h]

/-- Settles O9: the request is handed on, and it is delivered as its command. -/
theorem stepRunsDecodedCommand : Obligations.StepRunsDecodedCommand := by
  unfold Obligations.StepRunsDecodedCommand
  intro s ws rest i hinbox hdecode
  rw [step_of_event hinbox, handle, deliver_of_decode hdecode]

/-- A request that is not empty begins with `accept`, whether it is a command or ILLEGAL (R32, R37, R111). -/
theorem deliver_eq_accept {ws : List Word} (h : ws ≠ []) (s : State) : ∃ c, deliver ws s = accept s c := by
  obtain ⟨header, body, rfl⟩ := List.exists_cons_of_ne_nil h
  unfold deliver
  split
  · next i _ => exact exec_eq_accept i s
  · next hempty => exact absurd hempty (decode_cons_ne_empty header body)
  · exact ⟨_, rfl⟩

/-- Settles O46: an empty request and a foreign write are refused at once, any other request by `accept`. -/
theorem inadmissibleEventsAreRefused : Obligations.InadmissibleEventsAreRefused := by
  unfold Obligations.InadmissibleEventsAreRefused
  intro s rest taken
  refine ⟨step_of_emptyRequest, fun hwf t hstep => hwf (cfg_wf_of_step_next hstep), fun ws hwf hinbox hws => ?config,
    fun ws hwf hbusy hinbox hws => ?busy, fun a v => step_of_foreignWrite⟩
  case config =>
    obtain ⟨c, hdeliver⟩ := deliver_eq_accept hws { s with inbox := rest }
    rw [step_of_event hinbox, handle, hdeliver]
    exact accept_of_illFormed (s := { s with inbox := rest }) hwf c
  case busy =>
    obtain ⟨c, hdeliver⟩ := deliver_eq_accept hws { s with inbox := rest }
    rw [step_of_event hinbox, handle, hdeliver]
    exact accept_of_busy (s := { s with inbox := rest }) hwf hbusy c

theorem resetEvent_of_ready {s : State} (h : s.ready) (r : Memory) : resetEvent r s = .next (applyReset r s) := by
  rw [resetEvent, if_neg (not_not.2 h.1), if_neg (not_not.2 h.2)]

theorem resetEvent_of_busy {s : State} (hcfg : s.cfg.wf) (hseq : s.seq ≠ .idle) (r : Memory) :
    resetEvent r s = .refused (.resetWhileBusy s.markRefused) := by
  rw [resetEvent, if_neg (not_not.2 hcfg), if_pos hseq]

/-- A byte written above every listed address is listed last. -/
theorem Memory.writeByte_above {m : Memory} {a : Nat} {v : Byte} (h : ∀ c ∈ m, c.1 < a) (hv : v ≠ unlistedByte) :
    m.writeByte a v = m ++ [(a, v)] := by
  induction m with
  | nil => exact if_neg hv
  | cons c m ih =>
    have hc := h c List.mem_cons_self
    rw [Memory.writeByte, if_neg (by omega), if_neg (by omega), ih fun d hd => h d (List.mem_cons_of_mem _ hd)]
    rfl

/-- Cells that continue a memory in canonical form are listed after it, in their order. -/
theorem Memory.foldl_writeByte_append (cells m : Memory) (h : Memory.wf (m ++ cells)) :
    cells.foldl (fun m c => m.writeByte c.1 c.2) m = m ++ cells := by
  induction cells generalizing m with
  | nil => exact (List.append_nil m).symm
  | cons c cells ih =>
    obtain ⟨hrising, hlisted⟩ := h
    obtain ⟨-, -, hbelow⟩ := List.pairwise_append.1 hrising
    rw [List.foldl_cons, Memory.writeByte_above (fun d hd => hbelow d hd c List.mem_cons_self)
      (hlisted c (by simp)), ih _ (by rw [List.append_assoc]; exact ⟨hrising, hlisted⟩), List.append_assoc]
    rfl

/-- Cells in canonical form are the memory they hold. -/
theorem Memory.ofCells_of_wf {m : Memory} (h : m.wf) : Memory.ofCells m = m :=
  Memory.foldl_writeByte_append m [] h

/-- A reset with a draw in canonical form below `2^AW` takes the draw as it stands (R46). -/
theorem applyReset_rs_of_wf {r : Memory} {s : State} (hr : r.wf) (hbound : ∀ c ∈ r, c.1 < s.cfg.aw.size) :
    (applyReset r s).rs = r := by
  rw [applyReset_rs, List.filter_eq_self.2 fun c hc => decide_eq_true (hbound c hc), Memory.ofCells_of_wf hr]

/-- Settles O52: between commands the reset sets each piece of state, and during one it is refused. -/
theorem resetEventSetsResetValues : Obligations.ResetEventSetsResetValues := by
  unfold Obligations.ResetEventSetsResetValues
  intro s rsInit rest hcfg hinbox
  rw [step_of_event hinbox, handle]
  refine ⟨fun hidle hrs hbound => ?idle, fun hbusy => ?busy⟩
  case idle =>
    refine ⟨_, resetEvent_of_ready (s := { s with inbox := rest }) ⟨hcfg, hidle⟩ rsInit, rfl, rfl, fun a => ?_, rfl,
      rfl, rfl, rfl, rfl⟩
    rw [applyReset_rs_of_wf (s := { s with inbox := rest }) hrs hbound]
  case busy =>
    exact ⟨_, resetEvent_of_busy (s := { s with inbox := rest }) hcfg hbusy rsInit, rfl⟩

theorem finish_of_idle {s : State} (h : s.isIdle) : finish s = s := by
  rw [finish, h]

/-- Settles O53: with an empty inbox a step finishes the command under way, and there is none. -/
theorem idleMachineWaits : Obligations.IdleMachineWaits := by
  unfold Obligations.IdleMachineWaits
  intro s hs hinbox
  have hstep : step s = noEvent s := by rw [step, hinbox]
  rw [hstep, noEvent, if_neg (not_not.2 hs.1), finish_of_idle hs.2]

end Sys2Proof.Machine

/-! PROOFS. What FIELD_WRITE repeats and what the receiver marks (41_field_codec.md, the idempotency;
42_test_interface.md section 2, the receiver faults). -/

namespace Sys2Proof.Machine

/-- A field write made again merges the value into the word that holds it, so RS stays as it is (R74, R142). -/
theorem fieldWrite_fieldWrite_rs {s : State} (hrs : s.rs.wf) (d : Desc) (v : Word) :
    (fieldWrite d v (fieldWrite d v s)).rs = (fieldWrite d v s).rs := by
  have hword := readWord_fieldWrite_same hrs d v
  rw [fieldWrite_rs d v (fieldWrite d v s), fieldWrite_cfg, hword, Desc.merge_idem, ← hword,
    Memory.writeWord_self (fieldWrite_rs_wf hrs d v)]

theorem lines_eq_of_rs {s t : State} (hcfg : t.cfg = s.cfg) (hrs : t.rs = s.rs) : t.lines = s.lines := by
  rw [State.lines, State.lines, hcfg, hrs]

/-- A write that moves no line changes nothing of the receiver that the write before it left unfaulted: under the clear
it is cleared already, and otherwise there is no edge (R74, R180). -/
theorem observe_again {cfg : Config} {old new : Lines} {r : Receiver} (h : (observe cfg old new r).trxFault = false) :
    observe cfg new new (observe cfg old new r) = observe cfg old new r := by
  by_cases hclr : new.clr = 1
  · rw [observe_clr (.inl rfl) hclr]
    obtain hfault | hcleared := observe_under_clear cfg old r hclr
    · cases h.symm.trans hfault
    · rw [hcleared]
      rfl
  · exact observe_same_clk rfl hclr

/-- Settles O15: the second write is a write of the stored word, after one that set no mark. -/
theorem repeatedFieldWriteChangesNothing : Obligations.RepeatedFieldWriteChangesNothing := by
  unfold Obligations.RepeatedFieldWriteChangesNothing
  intro s t d value hs hrs hd hlt halign hexec hfault
  cases (exec_fieldWrite_of_passed hs hd hlt halign).symm.trans hexec
  have hrepeat := fieldWrite_fieldWrite_rs hrs d value
  have hlines : (fieldWrite d value (fieldWrite d value s)).lines = (fieldWrite d value s).lines :=
    lines_eq_of_rs rfl hrepeat
  refine ⟨_, exec_fieldWrite_of_passed (ready_answers_fieldWrite hs _) hd hlt halign, hrepeat, hlines, ?_⟩
  change (fieldWrite d value (fieldWrite d value s)).trx = (fieldWrite d value s).trx
  rw [fieldWrite_trx, hlines]
  exact observe_again hfault

/-- A capture marks a fault exactly where no code is latched (R184 (a)). -/
theorem capture_trxFault_iff {cfg : Config} {d : Byte} {r : Receiver} (h : r.trxFault = false) :
    (r.capture cfg d).trxFault = true ↔ r.codeLatch = none := by
  cases hcode : r.codeLatch with
  | none => simp [capture_of_no_code hcode]
  | some code => simp [capture_of_code hcode, h]

/-- A rising edge of `test_clk` that is no write of two lines moves that line alone (R180). -/
theorem eq_raise_of_captureEdge {old new : Lines} (htwo : ¬old.clkWithOther new) (hedge : old.captureEdge new) :
    new = { old with clk := 1 } := by
  obtain ⟨hlow, hhigh, -⟩ := hedge
  have hmoved : old.clk ≠ new.clk := by rw [hlow, hhigh]; decide
  obtain ⟨hen, hclr, hdin⟩ : old.en = new.en ∧ old.clr = new.clr ∧ old.din = new.din := by tauto
  rw [← hhigh, hen, hclr, hdin]

theorem bit_eq_zero_of_ne_one {b : BitVec 1} (h : b ≠ 1) : b = 0 :=
  b.eq_zero_or_eq_one.resolve_right h

/-- Of the receiver's reactions to a write that moves no second line with `test_clk`, only a capture without a code sets
the mark (R180, R184). -/
theorem observe_marks {cfg : Config} {old new : Lines} {r : Receiver} (hfault : r.trxFault = false)
    (htwo : ¬old.clkWithOther new) (hmarked : (observe cfg old new r).trxFault = true) :
    r.codeLatch = none ∧ old.captureEdge new ∧ new.clr = 0 := by
  by_cases hclr : new.clr = 1
  · rw [observe_of_clr htwo hclr, cleared_trxFault, hfault] at hmarked
    cases hmarked
  by_cases hlatch : old.latchEdge new
  · rw [observe_of_latchEdge htwo hclr hlatch, latch_trxFault, hfault] at hmarked
    cases hmarked
  by_cases hcapture : old.captureEdge new
  · rw [observe_of_captureEdge htwo hclr hcapture, capture_trxFault_iff hfault] at hmarked
    exact ⟨hmarked, hcapture, bit_eq_zero_of_ne_one hclr⟩
  · rw [observe_of_no_edge htwo hclr hlatch hcapture, hfault] at hmarked
    cases hmarked

/-- Settles O31: a write that moves two lines sets the mark, and of the others only a capture without a code does. -/
theorem receiverFaultCases : Obligations.ReceiverFaultCases := by
  unfold Obligations.ReceiverFaultCases
  intro s a v hfault old new
  change (observe s.cfg old new s.trx).trxFault = true ↔ _ ∨ old.clkWithOther new
  constructor
  · intro hmarked
    by_cases htwo : old.clkWithOther new
    · exact .inr htwo
    · obtain ⟨hcode, hedge, hclr⟩ := observe_marks hfault htwo hmarked
      have ⟨hlow, _, hen⟩ := hedge
      exact .inl ⟨hcode, eq_raise_of_captureEdge htwo hedge, hlow, hen, hclr⟩
  · rintro (⟨hcode, hnew, hlow, hen, hclr⟩ | htwo)
    · rw [hnew] at hclr hen ⊢
      rw [observe_rise_disabled (ls := old) hclr hlow hen, capture_of_no_code hcode]
    · rw [observe_of_clkWithOther htwo]

end Sys2Proof.Machine

/-! PROOFS. TEST_WRITE from every entry (42_test_interface.md R170, R185; 70_reset_and_hazards.md R331): the stale capture,
the transfer under an asserted clear, and what it leaves unchanged. -/

namespace Sys2Proof.Machine

/-- A count of data bytes that no request encodes is ILLEGAL before any access (assumption log 15). -/
theorem exec_testWrite_of_bad_length {s : State} (hs : s.ready) (code : Byte) {data : List Byte}
    (h : data.length < 1 ∨ 255 < data.length) : exec (.testWrite code data) s = .next (s.answers [0x00000001]) := by
  have hcount : data.length = 0 ∨ Const.nMax < data.length := h.imp_left Nat.lt_one_iff.1
  change execTestWrite code data s = _
  rw [execTestWrite, accept_of_ready hs, if_pos hcount, raiseStatus_of_idle hs.2]
  rfl

theorem opcodeOf_encode_testWrite (code : Byte) (data : List Byte) :
    opcodeOf ((encode (.testWrite code data)).getD 0 0) = 0x03#8 :=
  opcodeOf_append _ _ rfl

/-- Settles O19: the decode checks are grounds of R111, and the count of data bytes has its two cases. -/
theorem testWriteFollowsPseudocode : Obligations.TestWriteFollowsPseudocode := by
  unfold Obligations.TestWriteFollowsPseudocode
  obtain ⟨hrequests, hexample⟩ := testWriteRequestFollowsPseudocode
  refine ⟨fun s code data hs => ?_, hexample⟩
  obtain ⟨hrejects, -⟩ := hrequests s hs
  exact ⟨opcodeOf_encode_testWrite code data, hrejects, exec_testWrite_of_bad_length hs code,
    exec_testWrite_of_ready hs code⟩

/-- Line writes leave every byte outside the words of their lines as it was (R145). -/
theorem readByte_writeLines (ws : List (Line × Word)) {s : State} {b : Nat}
    (h : ∀ w ∈ ws, b < s.cfg.addr (lineDesc s.cfg w.1) ∨ s.cfg.addr (lineDesc s.cfg w.1) + 4 ≤ b) :
    (writeLines ws s).rs.readByte b = s.rs.readByte b := by
  induction ws generalizing s with
  | nil => rfl
  | cons w ws ih =>
    rw [writeLines_cons, ih (s := fieldWrite (lineDesc s.cfg w.1) w.2 s) fun x hx => h x (List.mem_cons_of_mem _ hx),
      fieldWrite_rs, Memory.readByte_writeWord_other _ _ (h w List.mem_cons_self)]

@[simp] theorem testWritten_refused (code : Byte) (data : List Byte) (s : State) :
    (testWritten code data s).refused = s.refused := by
  rw [testWritten, answers_refused, writeLines_refused]

@[simp] theorem testWritten_inbox (code : Byte) (data : List Byte) (s : State) :
    (testWritten code data s).inbox = s.inbox := by
  rw [testWritten, answers_inbox, writeLines_inbox]

/-- Settles O23: the transfer's line writes touch three lines' words, and nothing but RS, the receiver and the record of
accesses. -/
theorem testWriteFrame : Obligations.TestWriteFrame := by
  unfold Obligations.TestWriteFrame
  intro s code data hs hpos hmax
  refine ⟨_, exec_testWrite_of_ready hs code hpos hmax, fun b hb => ?_, testWritten_cfg code data s,
    testWritten_seq code data s, testWritten_refused code data s, testWritten_inbox code data s,
    testWritten_outbox code data s⟩
  rw [testWritten_rs]
  exact readByte_writeLines _ fun w hw => hb w.1 (line_ne_clr_of_mem_transferWrites hw)

section
variable {cfg : Config} {ls : Lines} {r : Receiver}

/-- From `clk = 0`, `en = 0` and the clear low, C1 captures the data lines as they stand, and the transfer goes on as from
a clean start (R331). -/
theorem receiverAfter_transferWrites_of_stale (code : Byte) (data : List Byte) (hclr : ls.clr = 0) (hclk : ls.clk = 0)
    (hen : ls.en = 0) :
    receiverAfter cfg (transferWrites code data) ls r =
      { r.capture cfg ls.din with
        treg := captureAll cfg.multiByte code 0 data (r.capture cfg ls.din).treg
        codeLatch := some code
        k := BitVec.ofNat 8 data.length } := by
  have hraised : receiverAfter cfg (transferWrites code data) ls r =
      receiverAfter cfg (transferWrites code data) { ls with clk := 1 } (r.capture cfg ls.din) := by
    simp only [transferWrites, List.cons_append, receiverAfter, Lines.set_clk_high]
    rw [observe_rise_disabled hclr hclk hen, observe_same_clk rfl (by simp [hclr])]
  rw [hraised, receiverAfter_transferWrites (ls := { ls with clk := 1 }) code data hclr (.inl rfl)]

/-- A line write leaves `test_clk` alone, or every other line (R175). -/
theorem Lines.set_moves_one (ls : Lines) (l : Line) (v : Word) : ls.clk = (ls.set l v).clk ∨
    (ls.en = (ls.set l v).en ∧ ls.clr = (ls.set l v).clr ∧ ls.din = (ls.set l v).din) := by
  cases l with
  | clk => exact .inr ⟨rfl, rfl, rfl⟩
  | din | en | clr => exact .inl rfl

/-- A write of another line leaves the clear as it was (R175). -/
theorem Lines.set_clr_of_ne (ls : Lines) {l : Line} (h : l ≠ .clr) (v : Word) : (ls.set l v).clr = ls.clr := by
  cases l with
  | clr => exact absurd rfl h
  | clk | din | en => rfl

/-- Line writes under an asserted clear that they do not drive leave the receiver cleared, as the first of them does
(R185). -/
theorem receiverAfter_of_clr {ws : List (Line × Word)} (hne : ws ≠ []) (hws : ∀ w ∈ ws, w.1 ≠ .clr)
    (hclr : ls.clr = 1) : receiverAfter cfg ws ls r = r.cleared cfg := by
  induction ws generalizing ls r with
  | nil => exact absurd rfl hne
  | cons w ws ih =>
    have hclr' : (ls.set w.1 w.2).clr = 1 := (ls.set_clr_of_ne (hws w List.mem_cons_self) w.2).trans hclr
    rw [receiverAfter, observe_clr (ls.set_moves_one w.1 w.2) hclr']
    cases ws with
    | nil => rfl
    | cons x xs => exact ih (List.cons_ne_nil x xs) (fun y hy => hws y (List.mem_cons_of_mem _ hy)) hclr'

theorem receiverAfter_transferWrites_of_clr (code : Byte) (data : List Byte) (hclr : ls.clr = 1) :
    receiverAfter cfg (transferWrites code data) ls r = r.cleared cfg :=
  receiverAfter_of_clr (List.cons_ne_nil _ _) (fun _ => line_ne_clr_of_mem_transferWrites) hclr

end

/-- The receiver after a TEST_WRITE is the receiver over its line writes (R180). -/
theorem testWritten_trx_eq {s : State} (hcfg : s.cfg.wf) (hrs : s.rs.wf) (code : Byte) (data : List Byte) :
    (testWritten code data s).trx = receiverAfter s.cfg (transferWrites code data) s.lines s.trx := by
  rw [testWritten_trx, writeLines_trx _ hcfg hrs]

/-- Settles O26: the capture of the stale data lines, with and without a latched code, and then a clean transfer. -/
theorem staleCaptureOnEntry : Obligations.StaleCaptureOnEntry := by
  unfold Obligations.StaleCaptureOnEntry
  intro s code data hs hrs hpos hmax hclk hen hclr
  refine ⟨_, exec_testWrite_of_ready hs code hpos hmax, ?_⟩
  rw [testWritten_trx_eq hs.1 hrs, receiverAfter_transferWrites_of_stale code data hclr hclk hen]
  have hcount : (BitVec.ofNat 8 data.length).toNat = data.length := by
    rw [BitVec.toNat_ofNat, Nat.mod_eq_of_lt (by omega)]
  refine ⟨rfl, hcount, fun hcode => ?unlatched, fun latched hcode => ?latched⟩
  case unlatched =>
    rw [capture_of_no_code hcode]
    exact ⟨rfl, rfl⟩
  case latched =>
    rw [capture_of_code hcode]
    exact ⟨rfl, rfl⟩

/-- Settles O27: the receiver is cleared by the first line write and held so by the others. -/
theorem clearHeldVoidsTransfer : Obligations.ClearHeldVoidsTransfer := by
  unfold Obligations.ClearHeldVoidsTransfer
  intro s code data hs hrs hpos hmax hclr
  have htrx : (testWritten code data s).trx = s.trx.cleared s.cfg := by
    rw [testWritten_trx_eq hs.1 hrs, receiverAfter_transferWrites_of_clr code data hclr]
  refine ⟨_, exec_testWrite_of_ready hs code hpos hmax, testWritten_outbox code data s, htrx, fun htreg => ?_⟩
  rw [htrx, cleared_treg, htreg]

/-- The three entries of a TEST_WRITE: under an asserted clear, clean, and stale (R185, R186, R331). -/
theorem Lines.entry_cases (ls : Lines) :
    ls.clr = 1 ∨ (ls.clr = 0 ∧ (ls.clk = 1 ∨ ls.en = 1)) ∨ (ls.clr = 0 ∧ ls.clk = 0 ∧ ls.en = 0) := by
  by_cases hclr : ls.clr = 1
  · exact .inl hclr
  · have hlow := bit_eq_zero_of_ne_one hclr
    by_cases hclean : ls.clk = 1 ∨ ls.en = 1
    · exact .inr (.inl ⟨hlow, hclean⟩)
    · obtain ⟨hclk, hen⟩ := not_or.1 hclean
      exact .inr (.inr ⟨hlow, bit_eq_zero_of_ne_one hclk, bit_eq_zero_of_ne_one hen⟩)

/-- Over a transfer's line writes the mark is set only where the entry is stale and no code is latched (R184, R331). -/
theorem receiverAfter_transferWrites_marks {cfg : Config} {ls : Lines} {r : Receiver} (code : Byte) (data : List Byte)
    (h : (receiverAfter cfg (transferWrites code data) ls r).trxFault = true) :
    r.trxFault = true ∨ (ls.clk = 0 ∧ ls.en = 0 ∧ ls.clr = 0 ∧ r.codeLatch = none) := by
  obtain hclr | ⟨hclr, hclean⟩ | ⟨hclr, hclk, hen⟩ := ls.entry_cases
  · rw [receiverAfter_transferWrites_of_clr code data hclr] at h
    exact .inl h
  · rw [receiverAfter_transferWrites code data hclr hclean] at h
    exact .inl h
  · rw [receiverAfter_transferWrites_of_stale code data hclr hclk hen] at h
    cases hfault : r.trxFault with
    | true => exact .inl rfl
    | false => exact .inr ⟨hclk, hen, hclr, (capture_trxFault_iff hfault).1 h⟩

/-- Settles O28: an ILLEGAL TEST_WRITE makes no access, and a transfer marks only at a stale entry. -/
theorem testWriteFaultsOnlyOnStaleEntry : Obligations.TestWriteFaultsOnlyOnStaleEntry := by
  unfold Obligations.TestWriteFaultsOnlyOnStaleEntry
  intro s t code data hrs hexec hmarked
  obtain ⟨hs, ⟨st, -, rfl⟩ | hran⟩ := exec_next hexec
  · exact .inl hmarked
  · obtain ⟨⟨hpos, hmax⟩, -⟩ := hran
    cases (exec_testWrite_of_ready hs code hpos hmax).symm.trans hexec
    rw [testWritten_trx_eq hs.1 hrs] at hmarked
    exact receiverAfter_transferWrites_marks code data hmarked

end Sys2Proof.Machine

/-! PROOFS. The candidates of SOLVE on u32 operands: the widths of their values, and what the returned pair satisfies
(43_divider_solver.md R211 to R219). -/

namespace Sys2Proof.Machine

section
variable {ref p : Nat} (hp : candidateRange ref p)
include hp

theorem one_le_of_candidateRange : 1 ≤ p := (one_le_minPreDiv ref).trans hp.1

/-- `max_p` is no candidate, so a candidate divides the reference clock to more than 5 MHz (R212). -/
theorem mul_succ_le_of_candidateRange : 5000000 * (p + 1) ≤ ref := le_maxPreDiv_iff.1 hp.2

theorem candidate_le (href : ref < 2 ^ 32) : p ≤ 857 := by
  have := mul_succ_le_of_candidateRange hp
  omega

/-- Two floor divisions never bring the achieved clock above the target (R215). -/
theorem achievedClk_le (target : Nat) : achievedClk ref (feedbackDiv ref target p) p ≤ target := calc
  ref * (target * p / ref) / p ≤ target * p / p := Nat.div_le_div_right (Nat.mul_div_le _ _)
  _ = target := Nat.mul_div_cancel _ (one_le_of_candidateRange hp)

end

/-- Settles O37: the bounds on `p` by its inequalities, and each product by the bounds on its factors. -/
theorem solveDatapathWidths : Obligations.SolveDatapathWidths := by
  unfold Obligations.SolveDatapathWidths
  intro ref target
  have href : ref.toNat < 2 ^ 32 := ref.isLt
  refine ⟨(minPreDiv_le_iff (by decide)).2 (by omega), ?max, fun p hp => ?candidate⟩
  case max =>
    have := le_maxPreDiv_iff.1 (le_refl (maxPreDiv ref.toNat))
    omega
  case candidate =>
    have hle := candidate_le hp href
    refine ⟨hle, ?product, Nat.mod_lt _ (ref_pos_of_range (hp.1.trans hp.2.le)), fun hacc =>
      ⟨?achieved, achievedClk_le hp _⟩⟩
    case product => calc
      target.toNat * p < 2 ^ 32 * 2 ^ 10 := Nat.mul_lt_mul'' target.isLt (by omega)
      _ = 2 ^ 42 := by decide
    case achieved => calc
      ref.toNat * feedbackDiv ref.toNat target.toNat p < 2 ^ 32 * 2 ^ 9 := Nat.mul_lt_mul'' href hacc.2
      _ = 2 ^ 41 := by decide

/-- The three ends of SOLVE, by its operands alone (R210). -/
theorem solve_cases (ref target : Nat) :
    maxPreDiv ref < minPreDiv ref ∨
    (minPreDiv ref ≤ maxPreDiv ref ∧ ∀ p, candidateRange ref p → ¬acceptable ref target p) ∨
    ∃ p, isBestPreDiv ref target p := by
  obtain hempty | hrange := Nat.lt_or_ge (maxPreDiv ref) (minPreDiv ref)
  · exact .inl hempty
  · obtain ⟨-, hnone⟩ | ⟨-, hbest, -⟩ := solveResult_cases hrange target
    · exact .inr (.inl ⟨hrange, hnone⟩)
    · exact .inr (.inr ⟨_, hbest⟩)

/-- Settles O39: each of the three ends has one response, whatever the state. -/
theorem solveReadsNoState : Obligations.SolveReadsNoState := by
  unfold Obligations.SolveReadsNoState
  intro ref target
  obtain hempty | ⟨hrange, hnone⟩ | ⟨p, hbest⟩ := solve_cases ref.toNat target.toNat
  · exact ⟨_, fun s hs => exec_solve_of_no_range hs hempty⟩
  · exact ⟨_, fun s hs => exec_solve_of_none_acceptable hs hrange hnone⟩
  · exact ⟨_, fun s hs => exec_solve_of_isBestPreDiv hs hbest⟩

/-- An outbox tells which response was added to it. -/
theorem response_of_answers {s t u : State} {i : Instr} {r r' : List Word} (h : exec i s = .next (u.answers r))
    (ht : exec i s = .next t) (hout : t.outbox = u.outbox ++ [r']) : r = r' := by
  cases h.symm.trans ht
  exact List.singleton_inj.1 (List.append_cancel_left hout)

/-- Only a best candidate is answered with four words, its pair and the achieved clock (R210). -/
theorem best_of_solve_ok {s t : State} {ref target pre fb ach : Word} (hexec : exec (.solve ref target) s = .next t)
    (hout : t.outbox = s.outbox ++ [[0x00000000, pre, fb, ach]]) :
    ∃ p, isBestPreDiv ref.toNat target.toNat p ∧ BitVec.ofNat 32 p = pre ∧
      BitVec.ofNat 32 (feedbackDiv ref.toNat target.toNat p) = fb ∧
      BitVec.ofNat 32 (achievedClk ref.toNat (feedbackDiv ref.toNat target.toNat p) p) = ach := by
  obtain ⟨hs, -⟩ := exec_next hexec
  obtain hempty | ⟨hrange, hnone⟩ | ⟨p, hbest⟩ := solve_cases ref.toNat target.toNat
  · cases response_of_answers (exec_solve_of_no_range hs hempty) hexec hout
  · cases response_of_answers (exec_solve_of_none_acceptable hs hrange hnone) hexec hout
  · have hwords := response_of_answers (exec_solve_of_isBestPreDiv hs hbest) hexec hout
    simp only [List.cons.injEq, true_and, and_true] at hwords
    exact ⟨p, hbest, hwords⟩

/-- Settles O36: the response's words are the best candidate's numbers, which fit them. -/
theorem solveSolutionProperties : Obligations.SolveSolutionProperties := by
  unfold Obligations.SolveSolutionProperties
  intro s t ref target pre fb ach hexec hout
  obtain ⟨p, hbest, rfl, rfl, rfl⟩ := best_of_solve_ok hexec hout
  have ⟨⟨hp, hpos, hmax⟩, _⟩ := hbest
  have hpmax := candidate_le hp ref.isLt
  have hach := achievedClk_le hp target.toNat
  have hfbmax : feedbackDiv ref.toNat target.toNat p < 512 := hmax
  rw [BitVec.toNat_ofNat, BitVec.toNat_ofNat, BitVec.toNat_ofNat, Nat.mod_eq_of_lt (hpmax.trans_lt (by decide)),
    Nat.mod_eq_of_lt (hfbmax.trans (by decide)), Nat.mod_eq_of_lt (hach.trans_lt target.isLt)]
  have hlow := mul_succ_le_of_candidateRange hp
  refine ⟨hpos, hfbmax, hp.1, Nat.le_sub_one_of_lt hp.2, by omega,
    (minPreDiv_le_iff (one_le_of_candidateRange hp)).1 hp.1, ?identity, hbest, rfl, hach⟩
  case identity => exact (Nat.div_add_mod' _ _).symm

/-- Feedback dividers grow with the pre-divider, so a last candidate with 0 rejects them all. -/
theorem none_acceptable_of_last {ref target : Nat} (h : target * (maxPreDiv ref - 1) < ref) {p : Nat}
    (hp : candidateRange ref p) : ¬acceptable ref target p := by
  rintro ⟨hpos, -⟩
  have hprod : target * p < ref := (Nat.mul_le_mul_left target (Nat.le_sub_one_of_lt hp.2)).trans_lt h
  have hzero := (feedbackDiv_eq_zero_iff (Nat.zero_lt_of_lt h) target p).2 hprod
  omega

/-- Settles O38: the first candidate is below the bound, and the last one decides whether every divider is 0. -/
theorem upperBoundNeverEmptiesScan : Obligations.UpperBoundNeverEmptiesScan := by
  unfold Obligations.UpperBoundNeverEmptiesScan
  intro ref target hrange
  have hmin := one_le_minPreDiv ref.toNat
  have hfirst := mul_minPreDiv_le hrange
  refine ⟨by omega, feedbackDiv_minPreDiv_le hrange target.isLt, fun hnone => ?_,
    fun hlast p => none_acceptable_of_last hlast⟩
  have hp : candidateRange ref.toNat (maxPreDiv ref.toNat - 1) := ⟨by omega, by omega⟩
  exact (feedbackDiv_eq_zero_iff (by omega) _ _).1 (feedbackDiv_eq_zero_of_none_acceptable target.isLt hnone hp)

end Sys2Proof.Machine

/-! PROOFS. FR_LOOKUP on a table in ascending order (43_divider_solver.md R222, R223). -/

namespace Sys2Proof.Machine

theorem lt_length_of_matchesAt {table : List FrEntry} {clk j : Nat} (h : matchesAt table clk j) : j < table.length := by
  obtain ⟨e, he, -⟩ := matchesAt_iff.1 h
  exact (List.getElem?_eq_some_iff.1 he).1

/-- A table without a match has none, and one with a match has a last one. -/
theorem none_or_last_match (table : List FrEntry) (clk : Nat) :
    (∀ j, ¬matchesAt table clk j) ∨
    ∃ m, matchesAt table clk m ∧ ∀ j, m < j → ¬matchesAt table clk j := by
  by_cases h : ∃ j, matchesAt table clk j
  · obtain ⟨j, hj⟩ := h
    refine .inr ⟨Nat.findGreatest (fun j => matchesAt table clk j = true) table.length,
      Nat.findGreatest_spec (P := fun j => matchesAt table clk j = true) (lt_length_of_matchesAt hj).le hj,
      fun k hk hmatch => ?_⟩
    exact Nat.findGreatest_is_greatest hk (lt_length_of_matchesAt hmatch).le hmatch
  · exact .inl (not_exists.1 h)

/-- A threshold in MHz is at most the floor of the clock in MHz exactly where it is at most the clock (R223). -/
theorem matchesAt_iff_hertz {table : List FrEntry} {clk j : Nat} {e : FrEntry} (h : table[j]? = some e) :
    matchesAt table clk j ↔ e.thrMhz.toNat * 1000000 ≤ clk := by
  rw [matchesAt_of_getElem? h, entryMatches_iff, Nat.le_div_iff_mul_le (by decide)]

/-- FR_LOOKUP answers an index of its table only where that entry is the last match (R220). -/
theorem last_of_frLookup_ok {s : State} (hs : s.ready) {clk : Word} {m : Nat} (hm : m < s.cfg.frTable.length) {c : Word}
    (h : exec (.frLookup clk) s = .next (s.answers [0x00000000, c, BitVec.ofNat 32 m])) :
    matchesAt s.cfg.frTable clk.toNat m ∧ ∀ j, m < j → ¬matchesAt s.cfg.frTable clk.toNat j := by
  obtain hnone | ⟨n, hmatch, hlast⟩ := none_or_last_match s.cfg.frTable clk.toNat
  · cases response_of_answers (exec_frLookup_of_none hs hnone) h rfl
  · have hn := lt_length_of_matchesAt hmatch
    have hwords := response_of_answers
      (exec_frLookup_of_last hs (List.getElem?_eq_getElem hn) hmatch hlast) h rfl
    simp only [List.cons.injEq, true_and, and_true] at hwords
    obtain ⟨-, hindex⟩ := hwords
    have ⟨_, _, _, _, _, hmax⟩ := hs.1
    have heq := congrArg BitVec.toNat hindex
    rw [BitVec.toNat_ofNat, BitVec.toNat_ofNat, Nat.mod_eq_of_lt (by omega), Nat.mod_eq_of_lt (by omega)] at heq
    exact heq ▸ ⟨hmatch, hlast⟩

/-- Settles O41: every entry that matches stands at or before the last one, and so has at most its threshold. -/
theorem frLookupOnSortedTable : Obligations.FrLookupOnSortedTable := by
  unfold Obligations.FrLookupOnSortedTable
  intro s clk m e hs hsorted he hexec
  obtain ⟨hm, hentry⟩ := List.getElem?_eq_some_iff.1 he
  obtain ⟨hmatch, hlast⟩ := last_of_frLookup_ok hs hm hexec
  refine ⟨(matchesAt_iff_hertz he).1 hmatch, fun j e' he' hle => ?_⟩
  have hj : j ≤ m := Nat.le_of_not_lt fun hlt => hlast j hlt ((matchesAt_iff_hertz he').2 hle)
  refine ⟨?_, fun _ => hj⟩
  obtain ⟨hjlt, hentry'⟩ := List.getElem?_eq_some_iff.1 he'
  obtain rfl | hlt := hj.eq_or_lt
  · rw [Option.some.inj (he.symm.trans he')]
  · have := List.pairwise_iff_getElem.1 hsorted j m hjlt hm hlt
    rwa [hentry, hentry'] at this

end Sys2Proof.Machine

/-! PROOFS. The one response of each command, its status and its result words (30_encoding.md R112, 60_exceptions.md
R290). -/

namespace Sys2Proof.Machine

/-- The result words of each command's OK response (R112). -/
def resultCount : Instr → Nat
  | .fieldWrite _ _ => 0
  | .regRead _ _ => 1
  | .testWrite _ _ => 0
  | .solve _ _ => 3
  | .frLookup _ => 2

/-- From `s` to `t` the outbox gained one response, with `n` result words where its status is OK (R112). -/
def Responds (n : Nat) (s t : State) : Prop :=
  ∃ st results, t.outbox = s.outbox ++ [responseWords st results] ∧ (st = .ok → results.length = n)

theorem respond_responds {s t : State} (h : t.outbox = s.outbox) (results : List Word) :
    Responds results.length s (respond .ok results t) :=
  ⟨.ok, results, by rw [respond_outbox, h], fun _ => rfl⟩

theorem raiseStatus_responds (n : Nat) (s : State) {st : Status} (hst : st ≠ .ok) : Responds n s (raiseStatus st s) :=
  ⟨st, [], rfl, fun h => absurd h hst⟩

theorem solveEnd_responds (c : SolveState) (s : State) : Responds 3 s (solveEnd c s) := by
  unfold solveEnd
  split
  · exact respond_responds rfl _
  · exact raiseStatus_responds 3 s nofun

theorem lookupEnd_responds (c : LookupState) (s : State) : Responds 2 s (lookupEnd c s) := by
  unfold lookupEnd
  split
  · exact raiseStatus_responds 2 s nofun
  · split
    · exact raiseStatus_responds 2 s nofun
    · exact respond_responds rfl _

theorem ranCommand_responds {i : Instr} {s t : State} (h : ranCommand s t i) : Responds (resultCount i) s t := by
  cases i with
  | fieldWrite d v =>
    obtain ⟨-, -, rfl⟩ := h
    exact respond_responds (fieldWrite_outbox d v s) []
  | regRead b o =>
    obtain ⟨-, rfl⟩ := h
    exact respond_responds (rsRead_outbox (s.cfg.ea b o) s) [_]
  | testWrite code data =>
    obtain ⟨⟨hpos, -⟩, rfl⟩ := h
    rw [runCommand_testWrite code hpos]
    exact respond_responds (writeLines_outbox _ s) []
  | solve ref target =>
    obtain ⟨hrange, rfl⟩ := h
    rw [runCommand_solve hrange]
    exact solveEnd_responds _ s
  | frLookup clk =>
    obtain rfl : t = runCommand (.frLookup ⟨clk.toNat, 0, none⟩) s := h
    rw [runCommand_frLookup]
    exact lookupEnd_responds _ s

theorem exec_responds {i : Instr} {s t : State} (h : exec i s = .next t) : Responds (resultCount i) s t := by
  obtain ⟨-, ⟨st, hst, rfl⟩ | hran⟩ := exec_next h
  · exact raiseStatus_responds _ s hst
  · exact ranCommand_responds hran

/-- Only OK has the code 0 (R290). -/
theorem status_eq_ok_of_code {st : Status} (h : (st.code.setWidth 32 : Word) = 0x00000000) : st = .ok := by
  cases st with
  | ok => rfl
  | illegal | eaddr | misaligned | einvalRefclk | einvalNocand | enorange => revert h; decide

/-- The status word of a response is one of the seven codes (R290). -/
theorem statusWord_mem (st : Status) :
    (st.code.setWidth 32 : Word) ∈ [0x00000000#32, 0x00000001#32, 0x00000002#32, 0x00000003#32, 0x00000010#32,
      0x00000011#32, 0x00000012#32] := by
  cases st <;> decide

/-- A response is its status word, and the result words after an OK (R112). -/
theorem responseWords_eq (st : Status) (results : List Word) :
    responseWords st results = st.code.setWidth 32 :: if st = .ok then results else [] := by
  unfold responseWords
  split <;> rfl

/-- Settles O45: the response that `exec` adds, as its status word and its result words. -/
theorem oneResponsePerCommand : Obligations.OneResponsePerCommand := by
  unfold Obligations.OneResponsePerCommand
  intro s t i hexec
  obtain ⟨st, results, hout, hcount⟩ := exec_responds hexec
  rw [responseWords_eq] at hout
  refine ⟨_, _, hout, statusWord_mem st, fun hstatus => ?failed, fun hstatus => ?ok⟩
  case failed => exact if_neg fun hst => hstatus (by rw [hst]; rfl)
  case ok =>
    have hst := status_eq_ok_of_code hstatus
    rw [if_pos hst, hcount hst]
    cases i <;> rfl

end Sys2Proof.Machine

/-! PROOFS. The reference client's clock plan and its feedback-divider bytes (44_client_sequences.md R253, R254, R263). -/

namespace Sys2Proof.Client

open Sys2Proof.Machine

theorem updatePlan_of_escReq_zero {p : Params} (h : p.escReq = 0) (plan : ClockPlan) (achieved : Nat) :
    updatePlan p plan achieved = .error .eInvalid := if_pos h

theorem updatePlan_of_escReq_ne_zero {p : Params} (h : p.escReq ≠ 0) (plan : ClockPlan) (achieved : Nat) :
    updatePlan p plan achieved = .ok { plan with
      phyClk := achieved
      txByteClk := some (achieved / 8)
      txEscClk := some (min p.escReq.toNat (achieved / 8)) } := if_neg h

/-- Settles O54: the check of `ESC_REQ`, then the derived clocks, the escape clock under its clamp. -/
theorem clockPlanAfterSolving : Obligations.ClockPlanAfterSolving := by
  unfold Obligations.ClockPlanAfterSolving
  intro p plan achieved
  refine ⟨fun hzero => updatePlan_of_escReq_zero hzero plan achieved, fun hpos => ?_⟩
  exact ⟨_, updatePlan_of_escReq_ne_zero hpos plan achieved, rfl, rfl, _, rfl, rfl, Nat.min_le_right .., rfl, rfl, rfl⟩

/-- The low five bits of the feedback divider (R263). -/
theorem fbBytes_fst (fbMarker fb : Nat) : (fbBytes fbMarker fb).1.toNat = fb % 32 := by
  change (fb &&& 2 ^ 5 - 1) % 2 ^ 8 = fb % 32
  rw [Nat.and_two_pow_sub_one_eq_mod]
  omega

/-- High bits below the marker bit are added to it (R263). -/
theorem fbBytes_snd {fbMarker fb : Nat} (hlow : 4 ≤ fbMarker) (hhigh : fbMarker ≤ 7) (hfb : fb / 32 ≤ 15) :
    (fbBytes fbMarker fb).2.toNat = fb / 32 + 2 ^ fbMarker := by
  have hbelow : fb / 32 < 2 ^ fbMarker := calc
    fb / 32 < 2 ^ 4 := by omega
    _ ≤ 2 ^ fbMarker := Nat.pow_le_pow_right (by decide) hlow
  have hmarker : 2 ^ fbMarker ≤ 2 ^ 7 := Nat.pow_le_pow_right (by decide) hhigh
  change (fb >>> 5 ||| 1 <<< fbMarker) % 2 ^ 8 = _
  have hsum : 2 ^ fbMarker ||| fb / 32 = 2 ^ fbMarker + fb / 32 := by
    simpa using (Nat.two_pow_add_eq_or_of_lt hbelow 1).symm
  rw [Nat.shiftRight_eq_div_pow, Nat.one_shiftLeft, Nat.or_comm, hsum, Nat.add_comm, Nat.mod_eq_of_lt (by omega)]

/-- Settles O55: the low bits by the mask, the high bits because they lie below the marker. -/
theorem feedbackDividerBytes : Obligations.FeedbackDividerBytes := by
  unfold Obligations.FeedbackDividerBytes
  intro fbMarker fb hlow hhigh hfb
  have hbits : fb / 32 ≤ 15 := by omega
  exact ⟨fbBytes_fst fbMarker fb, hbits, fbBytes_snd hlow hhigh hbits⟩

end Sys2Proof.Client
